-- ==== Sys2Proof/Word.lean ====
section
/-! DEFINITION. The machine word of AFX-CORE: every register, memory cell, command word, operand word and response word is 32 bits wide, bit 0 least significant (spec 00_scope.md R7). -/

namespace Sys2Proof

/-- A word is 32 bits (00_scope.md R7). -/
abbrev Word := BitVec 32

end Sys2Proof
end

