-- ==== Sys2Proof/Config.lean ====
section
/-! DEFINITION. What an implementation fixes (00_scope.md R5): the counts and limits, the numerics record, the transform pair, the window table; and the free values and the implementation parameters, opaque constants about which nothing can be proved. -/

namespace Sys2Proof

/-- The two command ports (00_scope.md R11, 40_sys.md R140). -/
inductive Port where
  | audio
  | control
deriving DecidableEq, Repr, Inhabited

/-- The other port, `other(P)` of 40_sys.md R140. -/
def Port.other : Port → Port
  | .audio => .control
  | .control => .audio

/-- The windows, in the order of the codes 0 to 3 of `STCFG.WIN` (10_state.md R48). -/
inductive Window where
  | rectangular
  | bartlett
  | hann
  | hamming
deriving DecidableEq, Repr

/-- Which `Num`, `FFT` and `WROM` a device is built with (00_scope.md R5, 45_numerics_fft_window.md R301). The three are
functions and a state is plain data, so a device holds their name; `Params.impl` gives the functions (log entry 12). -/
inductive Build where
  /-- The defaults: binary32, the radix-2 pair, the correctly rounded periodic windows. -/
  | standard
  /-- Any other choice, by number: `Config.impl`. -/
  | other (choice : Nat)
deriving DecidableEq, Repr

/-- The parameters of a device (00_scope.md R5): its counts and limits, and what it is built with. -/
structure Params where
  /-- `NCH`, audio channels served by DL, BQ and ST. -/
  nch : Nat
  /-- `NSP`, smoothers. -/
  nsp : Nat
  /-- `NBQ`, filters. -/
  nbq : Nat
  /-- `DLCAP_MAX`, delay words per channel. -/
  dlcapMax : Nat
  /-- `FFT_MAX_LOG2`, the largest log2 of fftSize. -/
  fftMaxLog2 : Nat
  /-- `Num`, `FFT` and `WROM`. -/
  build : Build
deriving DecidableEq, Repr

/-- `FFT_MIN_LOG2`, fixed at 2 (00_scope.md R5). -/
def fftMinLog2 : Nat := 2

/-- The legal ranges of the counts and limits (00_scope.md R5). -/
abbrev Params.InRange (p : Params) : Prop :=
  (1 ≤ p.nch ∧ p.nch ≤ 16) ∧ (1 ≤ p.nsp ∧ p.nsp ≤ 256) ∧ (1 ≤ p.nbq ∧ p.nbq ≤ 256) ∧
    (2 ≤ p.dlcapMax ∧ p.dlcapMax ≤ 2 ^ 23) ∧ (2 ≤ p.fftMaxLog2 ∧ p.fftMaxLog2 ≤ 15)

/-- The default parameters (00_scope.md R5). -/
def Params.default : Params :=
  { nch := 2, nsp := 16, nbq := 8, dlcapMax := 2 ^ 18, fftMaxLog2 := 13, build := .standard }

/-- The numerics record `Num` over a carrier (45_numerics_fft_window.md R280): the primitives every
arithmetic rule is written in, and the constants the rules write as decimal numbers. The default,
binary32 over words, is `Machine.binary32`; a claim in exact arithmetic instantiates it otherwise. -/
structure Num (α : Type) where
  fadd : α → α → α
  fsub : α → α → α
  fmul : α → α → α
  fdiv : α → α → α
  fmod : α → α → α
  fneg : α → α
  flt : α → α → Bool
  fle : α → α → Bool
  feq : α → α → Bool
  isnan : α → Bool
  isfinite : α → Bool
  u2f : Nat → α
  /-- `ffloor_u`, R287. -/
  ffloorU : α → Nat
  zero : α
  half : α
  negHalf : α
  one : α
  threeHalves : α
  two : α
  fiveHalves : α
  /-- The constant `2^−L` of the inverse transform (R300). -/
  pow2neg : Nat → α
deriving Inhabited

/-- A complex number as the pair (re, im) of 44_stft.md R249. -/
structure Cpx (α : Type) where
  re : α
  im : α
deriving DecidableEq, Repr, Inhabited

/-- The twiddle ROM `TWC(L, k)`, `TWS(L, k)` (45_numerics_fft_window.md R298). -/
structure Twiddles (α : Type) where
  cosine : Nat → Nat → α
  sine : Nat → Nat → α

/-- The parameter `FFT`: the transform pair (45_numerics_fft_window.md R301). -/
structure Transform (α : Type) where
  forward : Nat → List (Cpx α) → List (Cpx α)
  inverse : Nat → List (Cpx α) → List (Cpx α)
deriving Inhabited

/-- The three parameters of a device that are functions (00_scope.md R5): `Num`, `FFT`, `WROM`, over a carrier. A device
computes over words; a claim in exact arithmetic takes the real or the rational numbers (45_numerics_fft_window.md R280, R301). -/
structure Impl (α : Type) where
  num : Num α
  fft : Transform α
  wrom : Window → Nat → Nat → α
deriving Inhabited

/-- IMPLEMENTATION PARAMETER, log entry 12. The `Num`, `FFT` and `WROM` of the devices built otherwise than by default, by the
number of the choice. It has no body: what holds of such a device holds for every choice (00_scope.md R5, 10_state.md R30). -/
opaque Config.impl : (choice : Nat) → Impl Word

/-- FREE VALUE, log entry 1. Which port goes next when both have an enabled command, at the n-th such
choice (20_memory.md R89, 93_implementation_defined.md U28). -/
opaque Config.pick : Nat → Port

/-- FREE VALUE, log entry 5. `draw32()` at its n-th use (60_exceptions.md R345). -/
opaque Config.draw32 : Nat → Word

/-- FREE VALUE, log entry 6. Bin `bin` of the answer of `Mod` at its n-th exchange, for the channel and
the spectrum it was shown (44_stft.md R252). -/
opaque Config.modBin : (exchange : Nat) → (channel : Nat) → (spectrum : List (Cpx Word)) → (bin : Nat) → Cpx Word

/-- FREE VALUE, log entry 6. Whether `Mod` ever answers its n-th exchange (44_stft.md R252: "a `Mod`
that never answers makes the command, and with it the block, hang"). -/
opaque Config.modAnswers : (exchange : Nat) → (channel : Nat) → (spectrum : List (Cpx Word)) → Bool

end Sys2Proof
end

