-- ==== Sys2Proof/Syntax.lean ====
section
/-! DEFINITION. The 21 commands of AFX-CORE, one constructor per row of spec/opcode_table.json (30_encoding.md R112, R113). Instance indices, channels and the subfields of `IMM` are natural numbers, bounded by WellFormed; an operand word is 32 bits and is taken as it comes (R114). -/

namespace Sys2Proof

/-- The memory spaces `SYS.RDMEM` can read, in the order of the codes 0 to 3 (20_memory.md R80). -/
inductive Space where
  | dlmem
  | inr
  | outr
  | wintab
deriving DecidableEq, Repr

/-- `MODSEL`: the identity (0) or the external modification agent (1) (10_state.md R48). -/
inductive ModSel where
  | identity
  | external
deriving DecidableEq, Repr

/-- A command with its operand words (30_encoding.md R110 to R113). -/
inductive Instr where
  /-- `SYS.NOP` (40_sys.md R145) -/
  | sysNop
  /-- `SYS.RESET` (R146) -/
  | sysReset
  /-- `SYS.PREPARE srate, maxblk, cap` (R147) -/
  | sysPrepare (srate maxblk cap : Word)
  /-- `SYS.BEGIN n` (R150) -/
  | sysBegin (n : Word)
  /-- `SYS.END` (R151) -/
  | sysEnd
  /-- `SYS.RDREG addr` (R152) -/
  | sysRdreg (addr : Word)
  /-- `SYS.RDMEM ch, space, addr` (R153) -/
  | sysRdmem (ch : Nat) (space : Space) (addr : Word)
  /-- `SP.CONFIG i, n` (41_smoothed_parameter.md R172) -/
  | spConfig (i : Nat) (n : Word)
  /-- `SP.SETTGT i, v` (R173) -/
  | spSettgt (i : Nat) (v : Word)
  /-- `SP.ADV i` (R174) -/
  | spAdv (i : Nat)
  /-- `SP.SNAP i` (R175) -/
  | spSnap (i : Nat)
  /-- `DL.WRITE ch, x` (42_delay_line.md R191) -/
  | dlWrite (ch : Nat) (x : Word)
  /-- `DL.ADV ch` (R192) -/
  | dlAdv (ch : Nat)
  /-- `DL.RDN ch, d` (R197) -/
  | dlRdn (ch : Nat) (d : Word)
  /-- `DL.RDL ch, d` (R198) -/
  | dlRdl (ch : Nat) (d : Word)
  /-- `DL.RDC ch, d` (R199) -/
  | dlRdc (ch : Nat) (d : Word)
  /-- `BQ.LOAD f, b0, b1, b2, a0, a1, a2` (43_biquad.md R223) -/
  | bqLoad (f : Nat) (b0 b1 b2 a0 a1 a2 : Word)
  /-- `BQ.STEP f, ch, x` (R224) -/
  | bqStep (f ch : Nat) (x : Word)
  /-- `BQ.CLEAR f` (R225) -/
  | bqClear (f : Nat)
  /-- `ST.CONFIG log2n, hop = 2^hopLog2, win, mod` (44_stft.md R243) -/
  | stConfig (fftLog2 hopLog2 : Nat) (win : Window) (mod : ModSel)
  /-- `ST.PUSH ch, x` (R247) -/
  | stPush (ch : Nat) (x : Word)
deriving DecidableEq, Repr

end Sys2Proof
end

