-- ==== Sys2Proof/WellFormed.lean ====
section
/-! DEFINITION. When a command can be encoded: every field fits its bits of the command word (30_encoding.md R111, R114). A field that fits but is out of range for the device is well formed; it raises a fault when it runs (R115). -/

namespace Sys2Proof

/-- `IDX[23:16]` holds eight bits (R111). -/
def fitsIdx (i : Nat) : Bool := decide (i < 256)

/-- `CH[15:12]` holds four bits (R111). -/
def fitsCh (ch : Nat) : Bool := decide (ch < 16)

/-- `IMM[3:0] = FFTLOG2` holds four bits (R114). -/
def fitsFftLog2 (l : Nat) : Bool := decide (l < 16)

/-- `IMM[5:4] = HOPLOG2` holds two bits (R114). -/
def fitsHopLog2 (h : Nat) : Bool := decide (h < 4)

/-- Every field of the command fits its bits of the command word. -/
def Instr.wellFormed : Instr → Bool
  | .sysNop => true
  | .sysReset => true
  | .sysPrepare _ _ _ => true
  | .sysBegin _ => true
  | .sysEnd => true
  | .sysRdreg _ => true
  | .sysRdmem ch _ _ => fitsCh ch
  | .spConfig i _ => fitsIdx i
  | .spSettgt i _ => fitsIdx i
  | .spAdv i => fitsIdx i
  | .spSnap i => fitsIdx i
  | .dlWrite ch _ => fitsCh ch
  | .dlAdv ch => fitsCh ch
  | .dlRdn ch _ => fitsCh ch
  | .dlRdl ch _ => fitsCh ch
  | .dlRdc ch _ => fitsCh ch
  | .bqLoad f _ _ _ _ _ _ => fitsIdx f
  | .bqStep f ch _ => fitsIdx f && fitsCh ch
  | .bqClear f => fitsIdx f
  | .stConfig l h _ _ => fitsFftLog2 l && fitsHopLog2 h
  | .stPush ch _ => fitsCh ch

end Sys2Proof
end

