-- ==== Sys2Proof/Decode.lean ====
section
/-! DEFINITION. The command encoding of 30_encoding.md: the opcode map (R112), the decoder (R118), total on any words and rejecting by name, and after it the encoder, written from the same table. -/

namespace Sys2Proof

/-- The 21 commands without their operands. -/
inductive Opcode where
  | sysNop | sysReset | sysPrepare | sysBegin | sysEnd | sysRdreg | sysRdmem
  | spConfig | spSettgt | spAdv | spSnap
  | dlWrite | dlAdv | dlRdn | dlRdl | dlRdc
  | bqLoad | bqStep | bqClear
  | stConfig | stPush
deriving DecidableEq, Repr

/-- One row of the opcode map (R112) with the operand count `K` (R113). -/
structure OpcodeRow where
  op : Opcode
  mnemonic : String
  pattern : Word
  mask : Word
  operands : Nat
deriving DecidableEq, Repr

/-- The opcode map (R112): a command word `w` selects a row when `(w AND mask) = match`. -/
def opcodeTable : List OpcodeRow :=
  [ ⟨.sysNop, "SYS.NOP", 0x00000000#32, 0xFFFFFFFF#32, 0⟩
  , ⟨.sysReset, "SYS.RESET", 0x01000000#32, 0xFFFFFFFF#32, 0⟩
  , ⟨.sysPrepare, "SYS.PREPARE", 0x02000000#32, 0xFFFFFFFF#32, 3⟩
  , ⟨.sysBegin, "SYS.BEGIN", 0x03000000#32, 0xFFFFFFFF#32, 1⟩
  , ⟨.sysEnd, "SYS.END", 0x04000000#32, 0xFFFFFFFF#32, 0⟩
  , ⟨.sysRdreg, "SYS.RDREG", 0x05000000#32, 0xFFFFFFFF#32, 1⟩
  , ⟨.sysRdmem, "SYS.RDMEM", 0x06000000#32, 0xFFFF0FFC#32, 1⟩
  , ⟨.spConfig, "SP.CONFIG", 0x10000000#32, 0xFF00FFFF#32, 1⟩
  , ⟨.spSettgt, "SP.SETTGT", 0x11000000#32, 0xFF00FFFF#32, 1⟩
  , ⟨.spAdv, "SP.ADV", 0x12000000#32, 0xFF00FFFF#32, 0⟩
  , ⟨.spSnap, "SP.SNAP", 0x13000000#32, 0xFF00FFFF#32, 0⟩
  , ⟨.dlWrite, "DL.WRITE", 0x20000000#32, 0xFFFF0FFF#32, 1⟩
  , ⟨.dlAdv, "DL.ADV", 0x21000000#32, 0xFFFF0FFF#32, 0⟩
  , ⟨.dlRdn, "DL.RDN", 0x24000000#32, 0xFFFF0FFF#32, 1⟩
  , ⟨.dlRdl, "DL.RDL", 0x25000000#32, 0xFFFF0FFF#32, 1⟩
  , ⟨.dlRdc, "DL.RDC", 0x26000000#32, 0xFFFF0FFF#32, 1⟩
  , ⟨.bqLoad, "BQ.LOAD", 0x30000000#32, 0xFF00FFFF#32, 6⟩
  , ⟨.bqStep, "BQ.STEP", 0x31000000#32, 0xFF000FFF#32, 1⟩
  , ⟨.bqClear, "BQ.CLEAR", 0x32000000#32, 0xFF00FFFF#32, 0⟩
  , ⟨.stConfig, "ST.CONFIG", 0x40000000#32, 0xFFFFFE00#32, 0⟩
  , ⟨.stPush, "ST.PUSH", 0x41000000#32, 0xFFFF0FFF#32, 1⟩ ]

/-- The row a command word selects, if any (R112, R118). -/
def findRow (w : Word) : Option OpcodeRow :=
  opcodeTable.find? fun r => (w &&& r.mask) == r.pattern

/-- `UNIT`, bits 31:28 (R111). -/
def unitField (w : Word) : Nat := (w.extractLsb' 28 4).toNat

/-- `FUNC`, bits 27:24 (R111). -/
def funcField (w : Word) : Nat := (w.extractLsb' 24 4).toNat

/-- `IDX`, bits 23:16, unsigned (R111, R114). -/
def idxField (w : Word) : Nat := (w.extractLsb' 16 8).toNat

/-- `CH`, bits 15:12, unsigned (R111, R114). -/
def chField (w : Word) : Nat := (w.extractLsb' 12 4).toNat

/-- `IMM[3:0] = FFTLOG2` of `ST.CONFIG` and of `STCFG` (R114, 10_state.md R48). -/
def fftLog2Field (w : Word) : Nat := (w.extractLsb' 0 4).toNat

/-- `IMM[5:4] = HOPLOG2` (R114, 10_state.md R48). -/
def hopLog2Field (w : Word) : Nat := (w.extractLsb' 4 2).toNat

/-- The window a two-bit code names (10_state.md R48). -/
def windowOf (code : BitVec 2) : Window :=
  if code = 0#2 then .rectangular
  else if code = 1#2 then .bartlett
  else if code = 2#2 then .hann
  else .hamming

/-- `IMM[7:6] = WIN` (R114, 10_state.md R48). -/
def winField (w : Word) : Window := windowOf (w.extractLsb' 6 2)

/-- `IMM[8] = MODSEL` (R114, 10_state.md R48). -/
def modField (w : Word) : ModSel := if w.extractLsb' 8 1 = 1#1 then .external else .identity

/-- The memory space a two-bit code names (20_memory.md R80). -/
def spaceOf (code : BitVec 2) : Space :=
  if code = 0#2 then .dlmem
  else if code = 1#2 then .inr
  else if code = 2#2 then .outr
  else .wintab

/-- `IMM[1:0] = SPACE` of `SYS.RDMEM` (R114). -/
def spaceField (w : Word) : Space := spaceOf (w.extractLsb' 0 2)

/-- The command of an opcode, its command word and the words that follow, with the words left over;
`none` when there are fewer words than the opcode has operands (R113, R118). -/
def assemble : Opcode → Word → List Word → Option (Instr × List Word)
  | .sysNop, _, ws => some (.sysNop, ws)
  | .sysReset, _, ws => some (.sysReset, ws)
  | .sysPrepare, _, srate :: maxblk :: cap :: ws => some (.sysPrepare srate maxblk cap, ws)
  | .sysPrepare, _, _ => none
  | .sysBegin, _, n :: ws => some (.sysBegin n, ws)
  | .sysBegin, _, [] => none
  | .sysEnd, _, ws => some (.sysEnd, ws)
  | .sysRdreg, _, addr :: ws => some (.sysRdreg addr, ws)
  | .sysRdreg, _, [] => none
  | .sysRdmem, w, addr :: ws => some (.sysRdmem (chField w) (spaceField w) addr, ws)
  | .sysRdmem, _, [] => none
  | .spConfig, w, n :: ws => some (.spConfig (idxField w) n, ws)
  | .spConfig, _, [] => none
  | .spSettgt, w, v :: ws => some (.spSettgt (idxField w) v, ws)
  | .spSettgt, _, [] => none
  | .spAdv, w, ws => some (.spAdv (idxField w), ws)
  | .spSnap, w, ws => some (.spSnap (idxField w), ws)
  | .dlWrite, w, x :: ws => some (.dlWrite (chField w) x, ws)
  | .dlWrite, _, [] => none
  | .dlAdv, w, ws => some (.dlAdv (chField w), ws)
  | .dlRdn, w, d :: ws => some (.dlRdn (chField w) d, ws)
  | .dlRdn, _, [] => none
  | .dlRdl, w, d :: ws => some (.dlRdl (chField w) d, ws)
  | .dlRdl, _, [] => none
  | .dlRdc, w, d :: ws => some (.dlRdc (chField w) d, ws)
  | .dlRdc, _, [] => none
  | .bqLoad, w, b0 :: b1 :: b2 :: a0 :: a1 :: a2 :: ws => some (.bqLoad (idxField w) b0 b1 b2 a0 a1 a2, ws)
  | .bqLoad, _, _ => none
  | .bqStep, w, x :: ws => some (.bqStep (idxField w) (chField w) x, ws)
  | .bqStep, _, [] => none
  | .bqClear, w, ws => some (.bqClear (idxField w), ws)
  | .stConfig, w, ws => some (.stConfig (fftLog2Field w) (hopLog2Field w) (winField w) (modField w), ws)
  | .stPush, w, x :: ws => some (.stPush (chField w) x, ws)
  | .stPush, _, [] => none

/-- What stands at the head of a sequence of words (R118). -/
inductive Decoded where
  /-- A command with all its operand words, and the words after it. -/
  | command (i : Instr) (rest : List Word)
  /-- A command word that matches no row: illegal, no operand words (R115). -/
  | illegal (w : Word) (rest : List Word)
  /-- The sequence ends before the command does: no command is delivered (R118). -/
  | incomplete
deriving DecidableEq, Repr

/-- The decoder (R118), total on any words. -/
def decode : List Word → Decoded
  | [] => .incomplete
  | w :: ws =>
    match findRow w with
    | none => .illegal w ws
    | some r =>
      match assemble r.op w ws with
      | some (i, rest) => .command i rest
      | none => .incomplete

/-! The encoder. -/

/-- A command word from its fields `UNIT`, `FUNC`, `IDX`, `CH`, `IMM` (R111). -/
def packCommand (unit func : BitVec 4) (idx ch imm : Nat) : Word :=
  unit ++ func ++ BitVec.ofNat 8 idx ++ BitVec.ofNat 4 ch ++ BitVec.ofNat 12 imm

/-- The code of a window in `WIN` (10_state.md R48). -/
def Window.code : Window → Nat
  | .rectangular => 0
  | .bartlett => 1
  | .hann => 2
  | .hamming => 3

/-- The code of a memory space in `SPACE` (20_memory.md R80). -/
def Space.code : Space → Nat
  | .dlmem => 0
  | .inr => 1
  | .outr => 2
  | .wintab => 3

/-- The code of `MODSEL` (10_state.md R48). -/
def ModSel.code : ModSel → Nat
  | .identity => 0
  | .external => 1

/-- `IMM[8:0] = M ++ W ++ h ++ L` of `ST.CONFIG` (44_stft.md R243). -/
def configImm (fftLog2 hopLog2 : Nat) (win : Window) (mod : ModSel) : Nat :=
  mod.code * 256 + win.code * 64 + hopLog2 * 16 + fftLog2

/-- The command word of a command (R111, R112, R114). -/
def Instr.commandWord : Instr → Word
  | .sysNop => packCommand 0 0 0 0 0
  | .sysReset => packCommand 0 1 0 0 0
  | .sysPrepare _ _ _ => packCommand 0 2 0 0 0
  | .sysBegin _ => packCommand 0 3 0 0 0
  | .sysEnd => packCommand 0 4 0 0 0
  | .sysRdreg _ => packCommand 0 5 0 0 0
  | .sysRdmem ch space _ => packCommand 0 6 0 ch space.code
  | .spConfig i _ => packCommand 1 0 i 0 0
  | .spSettgt i _ => packCommand 1 1 i 0 0
  | .spAdv i => packCommand 1 2 i 0 0
  | .spSnap i => packCommand 1 3 i 0 0
  | .dlWrite ch _ => packCommand 2 0 0 ch 0
  | .dlAdv ch => packCommand 2 1 0 ch 0
  | .dlRdn ch _ => packCommand 2 4 0 ch 0
  | .dlRdl ch _ => packCommand 2 5 0 ch 0
  | .dlRdc ch _ => packCommand 2 6 0 ch 0
  | .bqLoad f _ _ _ _ _ _ => packCommand 3 0 f 0 0
  | .bqStep f ch _ => packCommand 3 1 f ch 0
  | .bqClear f => packCommand 3 2 f 0 0
  | .stConfig l h win mod => packCommand 4 0 0 0 (configImm l h win mod)
  | .stPush ch _ => packCommand 4 1 0 ch 0

/-- The operand words of a command, in order (R113). -/
def Instr.operandWords : Instr → List Word
  | .sysNop => []
  | .sysReset => []
  | .sysPrepare srate maxblk cap => [srate, maxblk, cap]
  | .sysBegin n => [n]
  | .sysEnd => []
  | .sysRdreg addr => [addr]
  | .sysRdmem _ _ addr => [addr]
  | .spConfig _ n => [n]
  | .spSettgt _ v => [v]
  | .spAdv _ => []
  | .spSnap _ => []
  | .dlWrite _ x => [x]
  | .dlAdv _ => []
  | .dlRdn _ d => [d]
  | .dlRdl _ d => [d]
  | .dlRdc _ d => [d]
  | .bqLoad _ b0 b1 b2 a0 a1 a2 => [b0, b1, b2, a0, a1, a2]
  | .bqStep _ _ x => [x]
  | .bqClear _ => []
  | .stConfig _ _ _ _ => []
  | .stPush _ x => [x]

/-- The words of a command: the command word, then its operand words (R110). -/
def encode (i : Instr) : List Word := i.commandWord :: i.operandWords

/-! The host's reading of a table row. -/

/-- The seven words (one command word and up to six operand words, R110) of an instruction whose low
`nbits` bits are `w` and whose other bits are zero; bit 0 is bit 0 of the first word. -/
def tableWords (nbits w : Nat) : List Word :=
  (List.range 7).map fun k => BitVec.ofNat 32 ((w % 2 ^ nbits) / 2 ^ (32 * k))

/-- The command the decoder reads from such an instruction. -/
def decodeTableWord (nbits w : Nat) : Option Instr :=
  match decode (tableWords nbits w) with
  | .command i _ => some i
  | .illegal _ _ => none
  | .incomplete => none

end Sys2Proof
end

