-- ==== Sys2Proof/Machine/State.lean ====
section
/-! DEFINITION. The state of AFX-CORE as plain data (10_state.md), the reasons a step can stop, and the state after reset (R55). The spec's pieces are grouped by unit; the last two fields, `ports` and `free`, carry what 10_state.md R30 calls parameters of the step relation: the command sequences, the responses, and how many free values were drawn. -/

namespace Sys2Proof.Machine

/-- The fault codes 1 to 9 (60_exceptions.md R320). -/
inductive ErrCode where
  | illegal
  | index
  | notPrepared
  | scope
  | block
  | cfg
  | dlRange
  | coef
  | addr
deriving DecidableEq, Repr

/-- Why the machine stops. The block's own faults are NOT here: they are sticky state of the block (60_exceptions.md R332). -/
inductive Fault where
  /-- Raised by `ST.PUSH` when its frame asks the modification agent and the agent never answers: the command, and with it
  the block, hangs (44_stft.md R252, 93_implementation_defined.md U8). Safe: whether the agent answers is a free value. -/
  | modNeverAnswers
deriving DecidableEq, Repr

/-- Why the model has no meaning for an instruction. -/
inductive Refusal where
  /-- Raised by an arm of `exec` whose instruction has no meaning yet; no arm does. Safe. -/
  | notModelled (mnemonic : String)
deriving DecidableEq, Repr

/-- A memory: (address, word) pairs with strictly rising addresses and no zero word; an address that is
not listed reads as the zero word. Memories are word-addressed (00_scope.md R7, 20_memory.md R83). -/
abbrev Mem := List (Nat × Word)

/-- The two words the block answers a command with (30_encoding.md R116). -/
structure Response where
  status : Word
  data : Word
deriving DecidableEq, Repr

/-- One smoother `SP[i]` (10_state.md R41). -/
structure Smoother where
  cur : Word
  tgt : Word
  step : Word
  rem : Word
  rampLen : Word
deriving DecidableEq, Repr

/-- One channel of the delay line: `WIDX[ch]` and `DLMEM[ch]` (10_state.md R43). -/
structure DelayChannel where
  widx : Word
  mem : Mem
deriving DecidableEq, Repr

/-- Unit DL: `DLCAP` (10_state.md R39) and the channels (R43). -/
structure DelayUnit where
  cap : Word
  chans : List DelayChannel
deriving DecidableEq, Repr

/-- The coefficient set of a filter (10_state.md R45). -/
structure Coeffs (α : Type) where
  b0 : α
  b1 : α
  b2 : α
  a0 : α
  a1 : α
  a2 : α
deriving DecidableEq, Repr

/-- The state of one filter on one channel: `S1`, `S2` and the shadow history (10_state.md R46). -/
structure History (α : Type) where
  s1 : α
  s2 : α
  x1 : α
  x2 : α
  y1 : α
  y2 : α
deriving DecidableEq, Repr

/-- One filter `BQ[f]`: one coefficient set, one state per channel (10_state.md R45, R46). -/
structure Filter where
  coeffs : Coeffs Word
  chans : List (History Word)
deriving DecidableEq, Repr

/-- One channel of unit ST: the cursors and the hop counter (10_state.md R50), the input ring and the
output accumulation ring (R51). -/
structure StftChannel where
  inw : Word
  ord : Word
  owr : Word
  cnt : Word
  inr : Mem
  outr : Mem
deriving DecidableEq, Repr

/-- Unit ST: `STCFG` (10_state.md R48), `STN`, `STHOP`, `STSCALE` (R49), `WINTAB` (R51), the channels. -/
structure StftUnit where
  cfg : Word
  n : Word
  hop : Word
  scale : Word
  wintab : Mem
  chans : List StftChannel
deriving DecidableEq, Repr

/-- The system registers (10_state.md R35 to R38). `lock` is the owner of the block scope, `none` when
it is free; `errcode` is `none` while `ERRCODE` reads 0. -/
structure SysRegs where
  prepared : Bool
  fault : Bool
  lock : Option Port
  errcode : Option ErrCode
  errcmd : Word
  errport : Port
  srate : Word
  maxblk : Word
  blklen : Word
deriving DecidableEq, Repr

/-- MODEL'S OWN (log entries 9, 10): the words a port still has to deliver, and the responses the block
has sent on its response path, oldest first. -/
structure PortIO where
  pending : List Word
  sent : List Response
deriving DecidableEq, Repr

/-- MODEL'S OWN: the two ports, and the port whose command is being examined (log entry 16). -/
structure Ports where
  portA : PortIO
  portC : PortIO
  cur : Port
deriving DecidableEq, Repr

/-- MODEL'S OWN (log entry 25): how many free values of each kind were drawn. -/
structure FreeCounts where
  picks : Nat
  draws : Nat
  mods : Nat
deriving DecidableEq, Repr

/-- The whole state. `params` is the device (log entry 2) and never changes. -/
structure State where
  params : Params
  sys : SysRegs
  sp : List Smoother
  dl : DelayUnit
  bq : List Filter
  st : StftUnit
  ports : Ports
  free : FreeCounts
deriving DecidableEq, Repr

/-- A smoother after reset (10_state.md R55). -/
def Smoother.reset : Smoother := ⟨0#32, 0#32, 0#32, 0#32, 0#32⟩

/-- A delay channel after reset (R55; the memory by 70_reset_and_hazards.md R362). -/
def DelayChannel.reset : DelayChannel := ⟨0#32, []⟩

/-- The coefficients after reset: the identity filter (R55). -/
def Coeffs.reset : Coeffs Word := ⟨0x3F800000#32, 0#32, 0#32, 0x3F800000#32, 0#32, 0#32⟩

/-- The zero history (R55). -/
def History.reset : History Word := ⟨0#32, 0#32, 0#32, 0#32, 0#32, 0#32⟩

/-- A filter of `nch` channels after reset (R55). -/
def Filter.reset (nch : Nat) : Filter := ⟨Coeffs.reset, List.replicate nch History.reset⟩

/-- A channel of unit ST after reset (R55; the memories by R362). -/
def StftChannel.reset : StftChannel := ⟨0#32, 0#32, 0#32, 0#32, [], []⟩

/-- `STCFG` after reset: `FFTLOG2 = min(9, FFT_MAX_LOG2)`, `HOPLOG2 = 2`, `WIN = 2`, `MODSEL = 0` (R55, R57). -/
def resetConfig (p : Params) : Word := BitVec.ofNat 32 (2 * 64 + 2 * 16 + min 9 p.fftMaxLog2)

/-- The system registers after reset (R55). -/
def SysRegs.reset : SysRegs :=
  { prepared := false, fault := false, lock := none, errcode := none, errcmd := 0#32, errport := .audio,
    srate := 0#32, maxblk := 0#32, blklen := 0#32 }

/-- Unit DL after reset (R55). -/
def DelayUnit.reset (nch : Nat) : DelayUnit := ⟨0#32, List.replicate nch DelayChannel.reset⟩

/-- Unit ST after reset (R55). -/
def StftUnit.reset (p : Params) : StftUnit :=
  { cfg := resetConfig p, n := 0#32, hop := 0#32, scale := 0#32, wintab := [],
    chans := List.replicate p.nch StftChannel.reset }

/-- No command pending, no response sent (model's own, log entries 9, 10, 16). -/
def Ports.idle : Ports := ⟨⟨[], []⟩, ⟨[], []⟩, .audio⟩

/-- No free value drawn yet (model's own, log entry 25). -/
def FreeCounts.zero : FreeCounts := ⟨0, 0, 0⟩

/-- The block after reset on a device with parameters `p`, with given ports and free-value counts (R55). -/
def State.resetOn (p : Params) (ports : Ports) (free : FreeCounts) : State :=
  { params := p, sys := SysRegs.reset, sp := List.replicate p.nsp Smoother.reset, dl := DelayUnit.reset p.nch,
    bq := List.replicate p.nbq (Filter.reset p.nch), st := StftUnit.reset p, ports := ports, free := free }

/-- The machine right after reset, on the default device (70_reset_and_hazards.md R360). -/
def State.reset : State := State.resetOn Params.default Ports.idle FreeCounts.zero

end Sys2Proof.Machine
end

