-- ==== Sys2Proof/Machine/Flags.lean ====
section
/-! DEFINITION. The response flags (10_state.md R54) and the words of a response (30_encoding.md R116, R117). -/

namespace Sys2Proof.Machine

/-- The three response flags; they are returned in one response and never stored (10_state.md R54). -/
structure Flags where
  zd : Bool := false
  frame : Bool := false
  ramp : Bool := false
deriving DecidableEq, Repr

/-- The number of a fault code (60_exceptions.md R320). -/
def ErrCode.code : ErrCode → Nat
  | .illegal => 0x01
  | .index => 0x02
  | .notPrepared => 0x03
  | .scope => 0x04
  | .block => 0x05
  | .cfg => 0x06
  | .dlRange => 0x07
  | .coef => 0x08
  | .addr => 0x09

/-- `CODE` of a refused command (60_exceptions.md R323). -/
def refusedCode : Nat := 0x7F

/-- The status word: `CODE` in bits 7:0, `ZD` bit 8, `FRAME` bit 9, `RAMP` bit 10 (30_encoding.md R116). -/
def statusWord (code : Nat) (f : Flags) : Word :=
  BitVec.ofNat 32 (code + f.zd.toNat * 256 + f.frame.toNat * 512 + f.ramp.toNat * 1024)

/-- The response of a command that executed (R116, R117). -/
def Response.executed (data : Word) (f : Flags) : Response := ⟨statusWord 0 f, data⟩

/-- The response of a command that raised a fault: the code, no flags, data 0 (R117, 60_exceptions.md R332). -/
def Response.faulted (e : ErrCode) : Response := ⟨statusWord e.code {}, 0#32⟩

/-- The response of a refused command: status `0x0000007F`, data 0 (60_exceptions.md R323). -/
def Response.refused : Response := ⟨statusWord refusedCode {}, 0#32⟩

/-- `RAMP`: 1 when `REM ≠ 0` after the command (41_smoothed_parameter.md R171). -/
def rampFlag (sm : Smoother) : Flags := { ramp := sm.rem != 0#32 }

/-- `ZD`: the integer read index equals the write cursor (42_delay_line.md R196). -/
def zeroDelay (i1 w : Nat) : Bool := i1 == w

/-- The hop test of `ST.PUSH`, which is also its flag `FRAME` (44_stft.md R247). -/
def hopReached (cnt hop : Nat) : Bool := decide (hop ≤ cnt)

end Sys2Proof.Machine
end

