-- ==== Sys2Proof/Machine/Memory.lean ====
section
/-! DEFINITION. The operations over one memory: `MemRead` and `MemWrite` of 00_scope.md R8, and the two loops of the spec that overwrite a memory from address 0 up, given by what they leave. -/

namespace Sys2Proof.Machine

/-- What an address that is not listed reads as (70_reset_and_hazards.md R362; log entry 3). -/
def blankWord : Word := 0#32

/-- `MemRead`: the word at an address (00_scope.md R8). -/
def Mem.read : Mem → Nat → Word
  | [], _ => blankWord
  | (b, v) :: m, a => if a = b then v else Mem.read m a

/-- An entry, unless it holds what an unlisted address reads as. -/
def Mem.entry (a : Nat) (v : Word) (m : Mem) : Mem := if v = blankWord then m else (a, v) :: m

/-- `MemWrite`: store one word (00_scope.md R8), keeping the canonical form. -/
def Mem.write : Mem → Nat → Word → Mem
  | [], a, v => Mem.entry a v []
  | (b, u) :: m, a, v =>
    if a < b then Mem.entry a v ((b, u) :: m)
    else if a = b then Mem.entry a v m
    else (b, u) :: Mem.write m a v

/-- `for a in 0 .. n-1: MemWrite(a, 0)`. -/
def Mem.clear (n : Nat) (m : Mem) : Mem := m.filter fun e => decide (n ≤ e.1)

/-- `for a in 0 .. n-1: MemWrite(a, f a)`. -/
def Mem.fill (n : Nat) (f : Nat → Word) (m : Mem) : Mem :=
  ((List.range n).map fun a => (a, f a)).filter (fun e => e.2 != blankWord) ++ Mem.clear n m

/-- The words at addresses `0 .. n-1`, in order. -/
def Mem.words (n : Nat) (m : Mem) : List Word := (List.range n).map m.read

/-- The canonical form: addresses strictly rise and no entry is what an unlisted address reads as. -/
def Mem.wf (m : Mem) : Bool :=
  decide (m.Pairwise fun e e' => e.1 < e'.1) && m.all fun e => e.2 != blankWord

end Sys2Proof.Machine
end

