-- ==== Sys2Proof/Machine/Operands.lean ====
section
/-! DEFINITION. How commands name what they read: the register files and channels selected by `IDX` and `CH` (10_state.md R31), the register address space (R33), the memory spaces (20_memory.md R80), and the configuration word (R48). -/

namespace Sys2Proof.Machine

/-- `SP[i]` (10_state.md R41). -/
def State.smoother (s : State) (i : Nat) : Smoother := s.sp.getD i Smoother.reset

/-- Channel `ch` of the delay line (R43). -/
def State.delayChan (s : State) (ch : Nat) : DelayChannel := s.dl.chans.getD ch DelayChannel.reset

/-- `BQ[f]` (R45, R46). -/
def State.filter (s : State) (f : Nat) : Filter := s.bq.getD f (Filter.reset 0)

/-- The state of a filter on channel `ch` (R46). -/
def Filter.chan (q : Filter) (ch : Nat) : History Word := q.chans.getD ch History.reset

/-- Channel `ch` of unit ST (R50, R51). -/
def State.stftChan (s : State) (ch : Nat) : StftChannel := s.st.chans.getD ch StftChannel.reset

/-- Replace `SP[i]`. -/
def State.setSmoother (s : State) (i : Nat) (v : Smoother) : State := { s with sp := s.sp.set i v }

/-- Replace channel `ch` of the delay line. -/
def State.setDelayChan (s : State) (ch : Nat) (v : DelayChannel) : State :=
  { s with dl := { s.dl with chans := s.dl.chans.set ch v } }

/-- Replace `BQ[f]`. -/
def State.setFilter (s : State) (f : Nat) (v : Filter) : State := { s with bq := s.bq.set f v }

/-- Replace channel `ch` of unit ST. -/
def State.setStftChan (s : State) (ch : Nat) (v : StftChannel) : State :=
  { s with st := { s.st with chans := s.st.chans.set ch v } }

/-! The configuration word. -/

/-- `STCFG` from the fields of `ST.CONFIG`: the nine bits of `IMM`, zero-extended (10_state.md R48, 30_encoding.md R114). -/
def configWord (fftLog2 hopLog2 : Nat) (win : Window) (mod : ModSel) : Word :=
  BitVec.ofNat 32 (configImm fftLog2 hopLog2 win mod)

/-- A legal configuration (44_stft.md R241). -/
def legalConfig (p : Params) (fftLog2 hopLog2 : Nat) : Bool :=
  decide (fftMinLog2 ≤ fftLog2) && decide (fftLog2 ≤ p.fftMaxLog2) &&
    decide (1 ≤ hopLog2) && decide (hopLog2 ≤ 3) && decide (hopLog2 ≤ fftLog2)

/-! The register address space (10_state.md R33). -/

/-- The code of a port in `LOCK` (R36, 40_sys.md R140). -/
def lockCode : Option Port → Nat
  | none => 0
  | some .audio => 1
  | some .control => 2

/-- The code of a port in `ERRPORT` (R37). -/
def portCode : Port → Nat
  | .audio => 0
  | .control => 1

/-- `ERRCODE`: the first fault's code, 0 while there is none (R37). -/
def errcodeWord : Option ErrCode → Word
  | none => 0#32
  | some e => BitVec.ofNat 32 e.code

/-- `ID`, hardwired (R34). -/
def idWord : Word := 0x41465831#32

/-- `STATUS`: `PREPARED` bit 0, `FAULT` bit 1, `LOCK` bits 3:2, `ERRPORT` bit 4, zero above (R35). -/
def statusReg (r : SysRegs) : Word :=
  BitVec.ofNat 32 (r.prepared.toNat + r.fault.toNat * 2 + lockCode r.lock * 4 + portCode r.errport * 16)

/-- `CAPS0` (R40). -/
def caps0 (p : Params) : Word := BitVec.ofNat 32 (p.nch + p.nsp * 2 ^ 8 + p.nbq * 2 ^ 20)

/-- `CAPS1` (R40). -/
def caps1 (p : Params) : Word := BitVec.ofNat 32 (p.dlcapMax + p.fftMaxLog2 * 2 ^ 24)

/-- The system registers, addresses `0x0000` to `0x000D` (R33). -/
def systemReg (s : State) : Nat → Option Word
  | 0x0 => some idWord
  | 0x1 => some (statusReg s.sys)
  | 0x2 => some (errcodeWord s.sys.errcode)
  | 0x3 => some s.sys.errcmd
  | 0x4 => some s.sys.srate
  | 0x5 => some s.sys.maxblk
  | 0x6 => some s.sys.blklen
  | 0x7 => some s.dl.cap
  | 0x8 => some s.st.cfg
  | 0x9 => some s.st.n
  | 0xA => some s.st.hop
  | 0xB => some s.st.scale
  | 0xC => some (caps0 s.params)
  | 0xD => some (caps1 s.params)
  | _ => none

/-- The per-channel cursors at `0x0010 + 16·row + ch` (R33): row 0 `WIDX`, 1 `INW`, 2 `ORD`, 3 `OWR`, 4 `CNT`. -/
def cursorReg (s : State) (row ch : Nat) : Option Word :=
  if s.params.nch ≤ ch then none else
  match row with
  | 0 => some (s.delayChan ch).widx
  | 1 => some (s.stftChan ch).inw
  | 2 => some (s.stftChan ch).ord
  | 3 => some (s.stftChan ch).owr
  | 4 => some (s.stftChan ch).cnt
  | _ => none

/-- Register `k` of smoother `i` at `0x1000 + 8·i + k` (R33). -/
def smootherReg (s : State) (i k : Nat) : Option Word :=
  if s.params.nsp ≤ i then none else
  match k with
  | 0 => some (s.smoother i).cur
  | 1 => some (s.smoother i).tgt
  | 2 => some (s.smoother i).step
  | 3 => some (s.smoother i).rem
  | 4 => some (s.smoother i).rampLen
  | _ => none

/-- Coefficient `k` of filter `f` at `0x2000 + 8·f + k` (R33). -/
def coeffReg (s : State) (f k : Nat) : Option Word :=
  if s.params.nbq ≤ f then none else
  match k with
  | 0 => some (s.filter f).coeffs.b0
  | 1 => some (s.filter f).coeffs.b1
  | 2 => some (s.filter f).coeffs.b2
  | 3 => some (s.filter f).coeffs.a0
  | 4 => some (s.filter f).coeffs.a1
  | 5 => some (s.filter f).coeffs.a2
  | _ => none

/-- State word `k` of filter `f` on channel `ch` at `0x4000 + 128·f + 8·ch + k` (R33). -/
def historyReg (s : State) (f ch k : Nat) : Option Word :=
  if s.params.nbq ≤ f ∨ s.params.nch ≤ ch then none else
  match k with
  | 0 => some ((s.filter f).chan ch).s1
  | 1 => some ((s.filter f).chan ch).s2
  | 2 => some ((s.filter f).chan ch).x1
  | 3 => some ((s.filter f).chan ch).x2
  | 4 => some ((s.filter f).chan ch).y1
  | 5 => some ((s.filter f).chan ch).y2
  | _ => none

/-- The register at an address, `none` where the address is unmapped (R33). -/
def readReg (s : State) (a : Nat) : Option Word :=
  if a < 0x10 then systemReg s a
  else if a < 0x60 then cursorReg s ((a - 0x10) / 16) ((a - 0x10) % 16)
  else if a < 0x1000 then none
  else if a < 0x2000 then smootherReg s ((a - 0x1000) / 8) ((a - 0x1000) % 8)
  else if a < 0x4000 then coeffReg s ((a - 0x2000) / 8) ((a - 0x2000) % 8)
  else historyReg s ((a - 0x4000) / 128) ((a - 0x4000) % 128 / 8) ((a - 0x4000) % 8)

/-! The memory spaces (20_memory.md R80). -/

/-- The current length of a space: `DLCAP` for `DLMEM`, `STN` for the others (40_sys.md R153). -/
def spaceLength (s : State) : Space → Nat
  | .dlmem => s.dl.cap.toNat
  | .inr => s.st.n.toNat
  | .outr => s.st.n.toNat
  | .wintab => s.st.n.toNat

/-- The memory of a space and channel; `WINTAB` is one table (20_memory.md R80). -/
def spaceMem (s : State) (space : Space) (ch : Nat) : Mem :=
  match space with
  | .dlmem => (s.delayChan ch).mem
  | .inr => (s.stftChan ch).inr
  | .outr => (s.stftChan ch).outr
  | .wintab => s.st.wintab

/-- `MemRead(space, ch, a)` (00_scope.md R8). -/
def State.memRead (s : State) (space : Space) (ch a : Nat) : Word := (spaceMem s space ch).read a

/-- Whether `SYS.RDMEM` may read there: below the current length, and `WINTAB` only with `CH = 0` (40_sys.md R153). -/
def memMapped (s : State) (space : Space) (ch a : Nat) : Bool :=
  !(space == .wintab && ch != 0) && decide (a < spaceLength s space)

end Sys2Proof.Machine
end

