-- ==== Sys2Proof/Machine/Float.lean ====
section
/-! DEFINITION. The default numerics record: IEEE 754 binary32, round to nearest with ties to even (45_numerics_fft_window.md R281 to R288). Every finite word is an integer multiple of 2^−149, so an operation computes its exact result as a quotient of integers in that unit and rounds once. -/

namespace Sys2Proof.Machine

/-- The canonical quiet NaN (R283). -/
def quietNaN : Word := 0x7FC00000#32

/-- Bit 31, the sign (R281). -/
def signBit (w : Word) : Bool := w.extractLsb' 31 1 == 1#1

/-- Bits 30:23, the biased exponent `e` (R281). -/
def expField (w : Word) : Nat := (w.extractLsb' 23 8).toNat

/-- Bits 22:0, the fraction `f` (R281). -/
def fracField (w : Word) : Nat := (w.extractLsb' 0 23).toNat

/-- `isnan`: `e = 255` and `f ≠ 0` (R285). -/
def isNaN (w : Word) : Bool := expField w == 255 && fracField w != 0

/-- `isfinite`: `e ≠ 255` (R285). -/
def isFinite (w : Word) : Bool := expField w != 255

/-- `e = 255, f = 0` (R281). -/
def isInf (w : Word) : Bool := expField w == 255 && fracField w == 0

/-- The absolute value of a finite word in units of 2^−149 (R281): `f` when `e = 0`, else `(2^23 + f) · 2^(e−1)`. -/
def magnitude (w : Word) : Nat :=
  if expField w = 0 then fracField w else (2 ^ 23 + fracField w) * 2 ^ (expField w - 1)

/-- The value of a finite word in units of 2^−149 (R281). -/
def scaledValue (w : Word) : Int := if signBit w then -(magnitude w : Int) else (magnitude w : Int)

/-- The sign bit in place. -/
def signWord (s : Bool) : Word := if s then 0x80000000#32 else 0#32

/-- The infinity of a sign (R281). -/
def infinity (s : Bool) : Word := signWord s ||| 0x7F800000#32

/-- The natural number nearest to `n / d`, ties to even. -/
def roundQuotient (n d : Nat) : Nat :=
  let q := n / d
  let r := n % d
  if 2 * r < d then q else if 2 * r = d then q + q % 2 else q + 1

/-- The binary32 word nearest to ± (n / d) · 2^−149, ties to even, with gradual underflow, and the
infinity of the sign on overflow (R282, R284). With `k` the power of two that leaves a 24-bit significand,
the encoding of `m · 2^k` is `k · 2^23 + m`, also where rounding carries into the next binade. -/
def roundWord (s : Bool) (n d : Nat) : Word :=
  let t := n / d
  let k := if t < 2 ^ 24 then 0 else Nat.log2 t - 23
  let bits := k * 2 ^ 23 + roundQuotient n (d * 2 ^ k)
  if 0x7F800000 ≤ bits then infinity s else signWord s ||| BitVec.ofNat 32 bits

/-- The word of an exact non-zero sum in units of 2^−149. -/
def roundInt (z : Int) : Word := roundWord (decide (z < 0)) z.natAbs 1

/-- `fneg` flips bit 31, also of a NaN (R283). -/
def fneg (a : Word) : Word := a ^^^ 0x80000000#32

/-- `fadd` (R282, R283). -/
def fadd (a b : Word) : Word :=
  if isNaN a || isNaN b then quietNaN
  else if isInf a then (if isInf b && (signBit a != signBit b) then quietNaN else a)
  else if isInf b then b
  else
    let z := scaledValue a + scaledValue b
    if z = 0 then signWord (signBit a && signBit b) else roundInt z

/-- `fsub(a, b)` is `fadd(a, fneg(b))` (R282). -/
def fsub (a b : Word) : Word := fadd a (fneg b)

/-- `fmul` (R282, R283). -/
def fmul (a b : Word) : Word :=
  let s := signBit a != signBit b
  if isNaN a || isNaN b then quietNaN
  else if isInf a || isInf b then
    (if (isFinite a && magnitude a == 0) || (isFinite b && magnitude b == 0) then quietNaN else infinity s)
  else roundWord s (magnitude a * magnitude b) (2 ^ 149)

/-- `fdiv` (R282, R283). -/
def fdiv (a b : Word) : Word :=
  let s := signBit a != signBit b
  if isNaN a || isNaN b then quietNaN
  else if isInf a then (if isInf b then quietNaN else infinity s)
  else if isInf b then signWord s
  else if magnitude b = 0 then (if magnitude a = 0 then quietNaN else infinity s)
  else roundWord s (magnitude a * 2 ^ 149) (magnitude b)

/-- `fmod`: for finite `a ≥ 0` (−0.0 among them) and finite `b > 0` the exact remainder, with sign + (R288).
Outside that domain, where no rule uses it, the C library's `fmod`, as R288 allows (log entry 13). -/
def fmod (a b : Word) : Word :=
  if isNaN a || isNaN b || isInf a || (isFinite b && magnitude b == 0) then quietNaN
  else if isInf b then a
  else roundWord (signBit a && magnitude a != 0) (magnitude a % magnitude b) 1

/-- A value that orders the words that are no NaN: the infinities lie beyond every finite value. -/
def orderKey (w : Word) : Int :=
  if isInf w then (if signBit w then -(2 ^ 300 : Int) else (2 ^ 300 : Int)) else scaledValue w

/-- `flt`, the quiet comparison a < b (R285). -/
def flt (a b : Word) : Bool := !isNaN a && !isNaN b && decide (orderKey a < orderKey b)

/-- `fle`, the quiet comparison a ≤ b (R285). -/
def fle (a b : Word) : Bool := !isNaN a && !isNaN b && decide (orderKey a ≤ orderKey b)

/-- `feq`, the quiet comparison a = b on values (R285). -/
def feq (a b : Word) : Bool := !isNaN a && !isNaN b && decide (orderKey a = orderKey b)

/-- `u2f`: the binary32 value nearest to an unsigned integer (R286). -/
def u2f (n : Nat) : Word := roundWord false (n * 2 ^ 149) 1

/-- `ffloor_u`: the floor of a finite non-negative value (R287). Outside that domain, where no rule uses it:
0 for a negative value, a NaN or an infinity (log entry 13). -/
def ffloorU (a : Word) : Nat := if signBit a || !isFinite a then 0 else magnitude a / 2 ^ 149

/-- The default numerics record (45_numerics_fft_window.md R280 to R288). -/
def binary32 : Num Word :=
  { fadd := fadd, fsub := fsub, fmul := fmul, fdiv := fdiv, fmod := fmod, fneg := fneg,
    flt := flt, fle := fle, feq := feq, isnan := isNaN, isfinite := isFinite,
    u2f := u2f, ffloorU := ffloorU,
    zero := 0x00000000#32, half := 0x3F000000#32, negHalf := 0xBF000000#32, one := 0x3F800000#32,
    threeHalves := 0x3FC00000#32, two := 0x40000000#32, fiveHalves := 0x40200000#32,
    pow2neg := fun l => roundWord false (2 ^ 149) (2 ^ l) }

end Sys2Proof.Machine
end

