-- ==== Sys2Proof/Machine/Trig.lean ====
section
/-! DEFINITION. The tables of constants: the twiddle ROM (45_numerics_fft_window.md R298) and the default window ROM (R290 to R294). Each entry is the binary32 word nearest to a real number; the real is computed in fixed point with 128 fraction bits, far below half a unit of any entry (log entry 14). -/

namespace Sys2Proof.Machine

/-- The scale of the fixed point: a number `x` is held as an integer near `x · 2^128`. -/
def fixOne : Nat := 2 ^ 128

/-- π in fixed point, rounded down. -/
def fixPi : Nat := 0x3243F6A8885A308D313198A2E03707344

/-- The angle 2πk/2^L in fixed point. -/
def fixAngle (l k : Nat) : Nat := 2 * fixPi * k / 2 ^ l

/-- The alternating series t − t·x²/((m+1)(m+2)) + …: the Taylor series of cosine (from m = 0, t = 1) and
of sine (from m = 1, t = x), `fuel` terms. -/
def fixSeries (xx : Nat) : (fuel m t : Nat) → Int
  | 0, _, _ => 0
  | fuel + 1, m, t => (t : Int) - fixSeries xx fuel (m + 2) (t * xx / fixOne / ((m + 1) * (m + 2)))

/-- cos(2πk/2^L) in fixed point, exact where it is 0, 1 or −1. -/
def fixCos (l k : Nat) : Int :=
  if 4 * k % 2 ^ l = 0 then
    (let quarter := 4 * k / 2 ^ l % 4
     if quarter = 0 then (fixOne : Int) else if quarter = 2 then -(fixOne : Int) else 0)
  else fixSeries (fixAngle l k * fixAngle l k / fixOne) 40 0 fixOne

/-- sin(2πk/2^L) in fixed point, exact where it is 0, 1 or −1. -/
def fixSin (l k : Nat) : Int :=
  if 4 * k % 2 ^ l = 0 then
    (let quarter := 4 * k / 2 ^ l % 4
     if quarter = 1 then (fixOne : Int) else if quarter = 3 then -(fixOne : Int) else 0)
  else fixSeries (fixAngle l k * fixAngle l k / fixOne) 40 1 (fixAngle l k)

/-- The binary32 word nearest to z / d. -/
def nearestWord (z : Int) (d : Nat) : Word := roundWord (decide (z < 0)) (z.natAbs * 2 ^ 149) d

/-- The default twiddle ROM: `TWC(L, k)` and `TWS(L, k)` (R298). -/
def twiddleRom : Twiddles Word :=
  { cosine := fun l k => nearestWord (fixCos l k) fixOne, sine := fun l k => nearestWord (fixSin l k) fixOne }

/-- Bartlett, w(j, N) = 1 − |2j/N − 1| (R292). -/
def bartlettWord (l j : Nat) : Word :=
  nearestWord (if 2 * j ≤ 2 ^ l then ((2 * j : Nat) : Int) else 2 * (2 : Int) ^ l - 2 * j) (2 ^ l)

/-- Hann, w(j, N) = 0.5 − 0.5·cos(2πj/N) (R293). -/
def hannWord (l j : Nat) : Word := nearestWord ((fixOne : Int) - fixCos l j) (2 * fixOne)

/-- Hamming, w(j, N) = 0.54 − 0.46·cos(2πj/N) (R294). -/
def hammingWord (l j : Nat) : Word := nearestWord (54 * (fixOne : Int) - 46 * fixCos l j) (100 * fixOne)

/-- The default `WROM(W, L, j)` (R290). -/
def windowRom : Window → Nat → Nat → Word
  | .rectangular, _, _ => 0x3F800000#32
  | .bartlett, l, j => bartlettWord l j
  | .hann, l, j => hannWord l j
  | .hamming, l, j => hammingWord l j

end Sys2Proof.Machine
end

