-- ==== Sys2Proof/Machine/Transform.lean ====
section
/-! DEFINITION. The reference transform pair: in-order iterative radix-2 decimation in time (45_numerics_fft_window.md R297, R299, R300), over any numerics record and twiddle table; the default implementation `reference`, and the implementation a device is built with. -/

namespace Sys2Proof.Machine

/-- `cadd` (R299). -/
def cadd {α : Type} (N : Num α) (a b : Cpx α) : Cpx α := ⟨N.fadd a.re b.re, N.fadd a.im b.im⟩

/-- `csub` (R299). -/
def csub {α : Type} (N : Num α) (a b : Cpx α) : Cpx α := ⟨N.fsub a.re b.re, N.fsub a.im b.im⟩

/-- `cmul`: four multiplications and two additions, each rounded, in this operand order (R299). -/
def cmul {α : Type} (N : Num α) (w x : Cpx α) : Cpx α :=
  ⟨N.fsub (N.fmul w.re x.re) (N.fmul w.im x.im), N.fadd (N.fmul w.re x.im) (N.fmul w.im x.re)⟩

/-- `bitrev(L, j)`: the `L`-bit representation of `j` reversed (R297). -/
def bitrev : Nat → Nat → Nat
  | 0, _ => 0
  | l + 1, j => j % 2 * 2 ^ l + bitrev l (j / 2)

/-- `b[bitrev(L, j)] <- a[j]` for all `j`; `bitrev(L, ·)` is its own inverse, so `b[k] = a[bitrev(L, k)]` (R297). -/
def bitReversed {α : Type} (N : Num α) (l : Nat) (a : List (Cpx α)) : List (Cpx α) :=
  (List.range (2 ^ l)).map fun k => a.getD (bitrev l k) ⟨N.zero, N.zero⟩

/-- The twiddle factor `w` of index `k`: `(c, sn)` for the inverse, `(c, fneg(sn))` for the forward transform (R297). -/
def twiddle {α : Type} (N : Num α) (tw : Twiddles α) (l : Nat) (inverse : Bool) (k : Nat) : Cpx α :=
  ⟨tw.cosine l k, if inverse then tw.sine l k else N.fneg (tw.sine l k)⟩

/-- The butterflies of one block of `2 · half` elements: `t <- cmul(w, b[k+j+half])`, then `b[k+j] <- cadd(u, t)`
and `b[k+j+half] <- csub(u, t)` for each `j < half` (R297). They touch disjoint pairs. -/
def butterflies {α : Type} (N : Num α) (ws : List (Cpx α)) (half : Nat) (block : List (Cpx α)) : List (Cpx α) :=
  let us := block.take half
  let ts := List.zipWith (cmul N) ws (block.drop half)
  List.zipWith (cadd N) us ts ++ List.zipWith (csub N) us ts

/-- The butterflies of `count` consecutive blocks (R297). -/
def blocks {α : Type} (N : Num α) (ws : List (Cpx α)) (half : Nat) : (count : Nat) → List (Cpx α) → List (Cpx α)
  | 0, _ => []
  | count + 1, b => butterflies N ws half (b.take (2 * half)) ++ blocks N ws half count (b.drop (2 * half))

/-- Stage `s`: blocks of `m = 2^s` elements with twiddle indices `j · stride`, `stride = N / m` (R297). -/
def fftStage {α : Type} (N : Num α) (tw : Twiddles α) (l : Nat) (inverse : Bool) (s : Nat) (b : List (Cpx α)) :
    List (Cpx α) :=
  let half := 2 ^ s / 2
  let stride := 2 ^ l / 2 ^ s
  blocks N ((List.range half).map fun j => twiddle N tw l inverse (j * stride)) half (2 ^ l / 2 ^ s) b

/-- `FFT_core(L, a, inverse)`: the permutation, then the stages 1 to L in order (R297). -/
def fftCore {α : Type} (N : Num α) (tw : Twiddles α) (l : Nat) (inverse : Bool) (a : List (Cpx α)) : List (Cpx α) :=
  (List.range l).foldl (fun b s => fftStage N tw l inverse (s + 1) b) (bitReversed N l a)

/-- `FFT_fwd` (R297). -/
def fftForward {α : Type} (N : Num α) (tw : Twiddles α) (l : Nat) (a : List (Cpx α)) : List (Cpx α) :=
  fftCore N tw l false a

/-- `FFT_inv`: the core with `(c, +s)`, then both parts of every element times `2^−L` (R300). -/
def fftInverse {α : Type} (N : Num α) (tw : Twiddles α) (l : Nat) (a : List (Cpx α)) : List (Cpx α) :=
  (fftCore N tw l true a).map fun z => ⟨N.fmul z.re (N.pow2neg l), N.fmul z.im (N.pow2neg l)⟩

/-- The radix-2 transform pair over a numerics record and a twiddle table (R297, R300). -/
def radix2 {α : Type} (N : Num α) (tw : Twiddles α) : Transform α :=
  { forward := fftForward N tw, inverse := fftInverse N tw }

/-- The default implementation: the default `Num`, `FFT` and `WROM` (00_scope.md R5). -/
def reference : Impl Word := { num := binary32, fft := radix2 binary32 twiddleRom, wrom := windowRom }

end Sys2Proof.Machine

namespace Sys2Proof

/-- The `Num`, `FFT` and `WROM` of a device: every command computes with them (00_scope.md R5, 10_state.md R30; log entry 12). -/
def Params.impl (p : Params) : Impl Word :=
  match p.build with
  | .standard => Machine.reference
  | .other choice => Config.impl choice

end Sys2Proof
end

