-- ==== Sys2Proof/Machine/Ops.lean ====
section
/-! DEFINITION. The shared operations: answering a command, the order of checks every command goes through (60_exceptions.md R331), taking a fault (R332) and the reset that alone leaves it (R336, 70_reset_and_hazards.md R360), `st_reinit` (44_stft.md R243), and the delivery of commands by the two ports (40_sys.md R140 to R144). -/

namespace Sys2Proof.Machine

/-! Ports and responses. -/

/-- The words and responses of a port. -/
def Ports.port (q : Ports) : Port → PortIO
  | .audio => q.portA
  | .control => q.portC

/-- Append a response to the response path of the port being served (30_encoding.md R116). -/
def Ports.send (q : Ports) (r : Response) : Ports :=
  match q.cur with
  | .audio => { q with portA := { q.portA with sent := q.portA.sent ++ [r] } }
  | .control => { q with portC := { q.portC with sent := q.portC.sent ++ [r] } }

/-- Serve a port: it becomes the current one and `rest` is what it still has to deliver. -/
def Ports.take (q : Ports) (p : Port) (rest : List Word) : Ports :=
  match p with
  | .audio => { q with portA := { q.portA with pending := rest }, cur := .audio }
  | .control => { q with portC := { q.portC with pending := rest }, cur := .control }

/-- Answer the current command (30_encoding.md R116). -/
def State.respond (s : State) (r : Response) : State := { s with ports := s.ports.send r }

/-- The command executed: its response carries the data word and the flags (R117). -/
def answer (s : State) (data : Word) (f : Flags) : Host.Outcome State Fault Refusal :=
  .next (s.respond (Response.executed data f))

/-! Fault entry and reset. -/

/-- The four fault registers after a fault `e` of command word `w` on port `p`: the first fault is kept (60_exceptions.md R332). -/
def SysRegs.enterFault (r : SysRegs) (e : ErrCode) (w : Word) (p : Port) : SysRegs :=
  if r.fault then r else { r with fault := true, errcode := some e, errcmd := w, errport := p }

/-- TAKING A FAULT, `raise Fault(E)`: the fault registers, nothing else, and the response (60_exceptions.md R332, R335). -/
def State.raise (s : State) (e : ErrCode) (w : Word) : State :=
  { s with sys := s.sys.enterFault e w s.ports.cur, ports := s.ports.send (Response.faulted e) }

/-- The command ends in a fault (60_exceptions.md R332). -/
def failWith (e : ErrCode) (i : Instr) (s : State) : Host.Outcome State Fault Refusal := .next (s.raise e i.commandWord)

/-- THE RETURN FROM A FAULT is reset (60_exceptions.md R336): every piece of the block's state takes its reset value,
by `SYS.RESET` or by the input `rst` (70_reset_and_hazards.md R360). The ports' sequences are not the block's (10_state.md R53). -/
def State.hardwareReset (s : State) : State := State.resetOn s.params s.ports s.free

/-- `fault_o`, equal to `STATUS.FAULT` at all times (60_exceptions.md R340). -/
def State.faultOut (s : State) : Bool := s.sys.fault

/-! Classes and the order of checks. -/

/-- The classes X, F, P, R, S of 40_sys.md R143. -/
inductive CmdClass where
  | reset
  | free
  | processing
  | reconfiguration
  | scope
deriving DecidableEq, Repr

/-- The class of a command (40_sys.md R143). -/
def cmdClass : Instr → CmdClass
  | .sysNop => .free
  | .sysReset => .reset
  | .sysPrepare _ _ _ => .reconfiguration
  | .sysBegin _ => .scope
  | .sysEnd => .scope
  | .sysRdreg _ => .free
  | .sysRdmem _ _ _ => .free
  | .spConfig _ _ => .free
  | .spSettgt _ _ => .free
  | .spAdv _ => .free
  | .spSnap _ => .free
  | .dlWrite _ _ => .processing
  | .dlAdv _ => .processing
  | .dlRdn _ _ => .processing
  | .dlRdl _ _ => .processing
  | .dlRdc _ _ => .processing
  | .bqLoad _ _ _ _ _ _ _ => .reconfiguration
  | .bqStep _ _ _ => .processing
  | .bqClear _ => .reconfiguration
  | .stConfig _ _ _ _ => .reconfiguration
  | .stPush _ _ => .processing

/-- `IDX` and `CH` are in range for the device (60_exceptions.md R326). -/
def indexOk (p : Params) : Instr → Bool
  | .sysNop => true
  | .sysReset => true
  | .sysPrepare _ _ _ => true
  | .sysBegin _ => true
  | .sysEnd => true
  | .sysRdreg _ => true
  | .sysRdmem ch _ _ => decide (ch < p.nch)
  | .spConfig i _ => decide (i < p.nsp)
  | .spSettgt i _ => decide (i < p.nsp)
  | .spAdv i => decide (i < p.nsp)
  | .spSnap i => decide (i < p.nsp)
  | .dlWrite ch _ => decide (ch < p.nch)
  | .dlAdv ch => decide (ch < p.nch)
  | .dlRdn ch _ => decide (ch < p.nch)
  | .dlRdl ch _ => decide (ch < p.nch)
  | .dlRdc ch _ => decide (ch < p.nch)
  | .bqLoad f _ _ _ _ _ _ => decide (f < p.nbq)
  | .bqStep f ch _ => decide (f < p.nbq) && decide (ch < p.nch)
  | .bqClear f => decide (f < p.nbq)
  | .stConfig _ _ _ _ => true
  | .stPush ch _ => decide (ch < p.nch)

/-- The two commands, besides `SYS.RESET`, that still execute while `FAULT = 1` (60_exceptions.md R323). -/
def survivesFault (i : Instr) : Bool :=
  match i with
  | .sysNop => true
  | .sysRdreg _ => true
  | _ => false

/-- The commands that need `PREPARED = 1` (60_exceptions.md R324; `SYS.RESET` is decided before). -/
def needsPrepare (i : Instr) : Bool :=
  match i with
  | .sysNop => false
  | .sysReset => false
  | .sysPrepare _ _ _ => false
  | .sysRdreg _ => false
  | _ => true

/-- What the common checks of 60_exceptions.md R331, steps 1 to 6, decide. -/
inductive Verdict where
  | go
  | refused
  | held
  | fault (e : ErrCode)
deriving DecidableEq, Repr

/-- A command that needs the issuing port to own the scope. -/
def ownScope (lock : Option Port) (p : Port) : Verdict := if lock = some p then .go else .fault .scope

/-- A command that waits while the other port owns the scope (40_sys.md R144). -/
def awaitScope (lock : Option Port) (p : Port) : Verdict := if lock = some p.other then .held else .go

/-- A command that waits for the other port's scope and must not be inside the own one. -/
def outsideScope (lock : Option Port) (p : Port) : Verdict :=
  if lock = some p then .fault .scope else awaitScope lock p

/-- Step 6, the scope check (60_exceptions.md R325, R331). -/
def scopeCheck (i : Instr) (lock : Option Port) (p : Port) : Verdict :=
  match cmdClass i with
  | .reset => .go
  | .free => .go
  | .processing => ownScope lock p
  | .reconfiguration =>
    (match i with
     | .sysPrepare _ _ _ => outsideScope lock p
     | _ => awaitScope lock p)
  | .scope =>
    (match i with
     | .sysEnd => ownScope lock p
     | _ => outsideScope lock p)

/-- The order of checks, steps 1 to 6, for a legal command at the head of port `p` (60_exceptions.md R331). -/
def examine (i : Instr) (p : Port) (s : State) : Verdict :=
  if cmdClass i = .reset then .go
  else if s.sys.fault then (if survivesFault i then .go else .refused)
  else if !indexOk s.params i then .fault .index
  else if !s.sys.prepared && needsPrepare i then .fault .notPrepared
  else scopeCheck i s.sys.lock p

/-- Every command: the common checks, then what the command does (60_exceptions.md R331). A held command does
nothing and changes nothing (40_sys.md R144); the step does not hand one over (log entry 15). -/
def runCommand (i : Instr) (s : State) (perform : State → Host.Outcome State Fault Refusal) :
    Host.Outcome State Fault Refusal :=
  match examine i s.ports.cur s with
  | .go => perform s
  | .refused => .next (s.respond Response.refused)
  | .held => .next s
  | .fault e => failWith e i s

/-- An illegal command word: refused while `FAULT = 1`, else `E_ILLEGAL` (60_exceptions.md R322, R323). -/
def illegalCommand (w : Word) (s : State) : State :=
  if s.sys.fault then s.respond Response.refused else s.raise .illegal w

/-! `st_reinit`. -/

/-- The scale factor (44_stft.md R244): the table words are summed in ascending order from `+0.0`. -/
def scaleFactor {α : Type} (N : Num α) (hopLog2 n : Nat) (table : List α) : α :=
  N.fmul (N.fdiv (N.fdiv N.one (N.u2f (2 ^ hopLog2))) (table.foldl N.fadd N.zero)) (N.u2f n)

/-- A channel of unit ST after `st_reinit` (44_stft.md R243, R245). -/
def StftChannel.restart (n hop : Nat) (c : StftChannel) : StftChannel :=
  { inw := 0#32, ord := 0#32, owr := BitVec.ofNat 32 hop, cnt := 0#32, inr := c.inr.clear n, outr := c.outr.clear n }

/-- `st_reinit()`, from the current `STCFG` (44_stft.md R243). -/
def StftUnit.reinit (I : Impl Word) (st : StftUnit) : StftUnit :=
  let l := fftLog2Field st.cfg
  let h := hopLog2Field st.cfg
  let n := 2 ^ l
  let hop := n / 2 ^ h
  let wintab := st.wintab.fill n fun j => I.wrom (winField st.cfg) l j
  { cfg := st.cfg, n := BitVec.ofNat 32 n, hop := BitVec.ofNat 32 hop,
    scale := scaleFactor I.num h n (wintab.words n), wintab := wintab,
    chans := st.chans.map (StftChannel.restart n hop) }

/-! Delivery of commands. -/

/-- What port `p` delivers next (30_encoding.md R118). -/
def State.delivered (s : State) (p : Port) : Decoded := decode (s.ports.port p).pending

/-- Whether port `p` has a command that is enabled (40_sys.md R144). An illegal word is never held. -/
def State.enabled (s : State) (p : Port) : Bool :=
  match s.delivered p with
  | .incomplete => false
  | .illegal _ _ => true
  | .command i _ => decide (examine i p s ≠ .held)

/-- The port that is served next, if any: where both have an enabled command, the interleaving picks one
(20_memory.md R89; log entry 1). -/
def State.choose (s : State) : Option Port :=
  match s.enabled .audio, s.enabled .control with
  | false, false => none
  | true, false => some .audio
  | false, true => some .control
  | true, true => some (Config.pick s.free.picks)

/-- The state once `p` is chosen and its command taken off the port: the operand words are consumed with it,
and a choice that was drawn is counted. -/
def State.takeCommand (s : State) (p : Port) (rest : List Word) : State :=
  { s with ports := s.ports.take p rest,
           free := { s.free with picks := if s.enabled .audio && s.enabled .control then s.free.picks + 1 else s.free.picks } }

/-- The words `ws` put in front of what port `p` has to deliver, and nothing left on the other port. -/
def Ports.deliverOnly (q : Ports) (p : Port) (ws : List Word) : Ports :=
  match p with
  | .audio => { q with portA := { q.portA with pending := ws ++ q.portA.pending }, portC := { q.portC with pending := [] } }
  | .control => { q with portC := { q.portC with pending := ws ++ q.portC.pending }, portA := { q.portA with pending := [] } }

end Sys2Proof.Machine
end

