-- ==== Sys2Proof/Machine/Sys.lean ====
section
/-! DEFINITION. Unit SYS (40_sys.md): no operation, reset, prepare, the block scope, read-back. -/

namespace Sys2Proof.Machine

/-- `SYS.NOP` (R145). -/
def execSysNop (s : State) : Host.Outcome State Fault Refusal :=
  runCommand .sysNop s fun s => answer s 0#32 {}

/-- `SYS.RESET` (R146). -/
def execSysReset (s : State) : Host.Outcome State Fault Refusal :=
  runCommand .sysReset s fun s => answer s.hardwareReset 0#32 {}

/-- A channel of the delay line after prepare: the first `cap` words are zero (R147). -/
def DelayChannel.prepare (cap : Nat) (c : DelayChannel) : DelayChannel := { widx := 0#32, mem := c.mem.clear cap }

/-- A smoother that is brought to its target at once; the ramp length stays (R147, R172). -/
def Smoother.settle (sm : Smoother) : Smoother := { sm with cur := sm.tgt, step := 0#32, rem := 0#32 }

/-- A filter with its state zeroed on every channel; the coefficients stay (R147, 43_biquad.md R225). -/
def Filter.clear (q : Filter) : Filter := { q with chans := q.chans.map fun _ => History.reset }

/-- What a successful `SYS.PREPARE` leaves (R147, 10_state.md R56). -/
def State.prepare (I : Impl Word) (srate maxblk cap : Word) (s : State) : State :=
  { s with
    sys := { s.sys with prepared := true, srate := srate, maxblk := maxblk, blklen := 0#32 }
    dl := { cap := cap, chans := s.dl.chans.map (DelayChannel.prepare cap.toNat) }
    sp := s.sp.map Smoother.settle
    bq := s.bq.map Filter.clear
    st := s.st.reinit I }

/-- `cap` is a capacity the device can be prepared with (R147). -/
def legalCapacity (p : Params) (cap : Word) : Bool := decide (cap ≠ 0#32) && decide (cap.toNat ≤ p.dlcapMax)

/-- `SYS.PREPARE srate, maxblk, cap` (R147). -/
def execSysPrepare (srate maxblk cap : Word) (s : State) : Host.Outcome State Fault Refusal :=
  runCommand (.sysPrepare srate maxblk cap) s fun s =>
    if legalCapacity s.params cap then answer (s.prepare s.params.impl srate maxblk cap) 0#32 {}
    else failWith .cfg (.sysPrepare srate maxblk cap) s

/-- `SYS.BEGIN n` (R150). -/
def execSysBegin (n : Word) (s : State) : Host.Outcome State Fault Refusal :=
  runCommand (.sysBegin n) s fun s =>
    if s.sys.maxblk.toNat < n.toNat then failWith .block (.sysBegin n) s
    else answer { s with sys := { s.sys with lock := some s.ports.cur, blklen := n } } 0#32 {}

/-- `SYS.END` (R151). -/
def execSysEnd (s : State) : Host.Outcome State Fault Refusal :=
  runCommand .sysEnd s fun s => answer { s with sys := { s.sys with lock := none } } 0#32 {}

/-- `SYS.RDREG addr` (R152). -/
def execSysRdreg (addr : Word) (s : State) : Host.Outcome State Fault Refusal :=
  runCommand (.sysRdreg addr) s fun s =>
    match readReg s addr.toNat with
    | some v => answer s v {}
    | none => failWith .addr (.sysRdreg addr) s

/-- `SYS.RDMEM ch, space, addr` (R153). -/
def execSysRdmem (ch : Nat) (space : Space) (addr : Word) (s : State) : Host.Outcome State Fault Refusal :=
  runCommand (.sysRdmem ch space addr) s fun s =>
    if memMapped s space ch addr.toNat then answer s (s.memRead space ch addr.toNat) {}
    else failWith .addr (.sysRdmem ch space addr) s

end Sys2Proof.Machine
end

