-- ==== Sys2Proof/Machine/Biquad.lean ====
section
/-! DEFINITION. Unit BQ (43_biquad.md): second-order sections in transposed direct form II. The recurrence and the normalisation are written over any numerics record. -/

namespace Sys2Proof.Machine

/-- `a0` can be normalised to one: it is no NaN, not infinite and not zero (R223). -/
def legalA0 {α : Type} (N : Num α) (a0 : α) : Bool := !(N.isnan a0 || !N.isfinite a0 || N.feq a0 N.zero)

/-- The stored coefficients: five true divisions by `a0`; `A0` is `unit` (R223). -/
def normalise {α : Type} (N : Num α) (unit b0 b1 b2 a0 a1 a2 : α) : Coeffs α :=
  { b0 := N.fdiv b0 a0, b1 := N.fdiv b1 a0, b2 := N.fdiv b2 a0, a0 := unit, a1 := N.fdiv a1 a0, a2 := N.fdiv a2 a0 }

/-- `BQ.LOAD f, b0, b1, b2, a0, a1, a2`; `A0` is the word `0x3F800000` on every device (R223, 10_state.md R47). -/
def execBqLoad (f : Nat) (b0 b1 b2 a0 a1 a2 : Word) (s : State) : Host.Outcome State Fault Refusal :=
  runCommand (.bqLoad f b0 b1 b2 a0 a1 a2) s fun s =>
    if legalA0 s.params.impl.num a0 then
      answer (s.setFilter f { s.filter f with coeffs := normalise s.params.impl.num 0x3F800000#32 b0 b1 b2 a0 a1 a2 }) 0#32 {}
    else failWith .coef (.bqLoad f b0 b1 b2 a0 a1 a2) s

/-- The output `y` of one step (R224). -/
def biquadOut {α : Type} (N : Num α) (c : Coeffs α) (h : History α) (x : α) : α := N.fadd (N.fmul c.b0 x) h.s1

/-- The state after one step; `S1` and `S2` use the old `S2` and the new `y` (R224). -/
def biquadNext {α : Type} (N : Num α) (c : Coeffs α) (h : History α) (x : α) : History α :=
  let y := biquadOut N c h x
  { s1 := N.fadd (N.fsub (N.fmul c.b1 x) (N.fmul c.a1 y)) h.s2
    s2 := N.fsub (N.fmul c.b2 x) (N.fmul c.a2 y)
    x1 := x, x2 := h.x1, y1 := y, y2 := h.y1 }

/-- `BQ.STEP f, ch, x` (R224). -/
def execBqStep (f ch : Nat) (x : Word) (s : State) : Host.Outcome State Fault Refusal :=
  runCommand (.bqStep f ch x) s fun s =>
    let q := s.filter f
    answer (s.setFilter f { q with chans := q.chans.set ch (biquadNext s.params.impl.num q.coeffs (q.chan ch) x) })
      (biquadOut s.params.impl.num q.coeffs (q.chan ch) x) {}

/-- `BQ.CLEAR f` (R225). -/
def execBqClear (f : Nat) (s : State) : Host.Outcome State Fault Refusal :=
  runCommand (.bqClear f) s fun s => answer (s.setFilter f (s.filter f).clear) 0#32 {}

end Sys2Proof.Machine
end

