-- ==== Sys2Proof/Machine/Delay.lean ====
section
/-! DEFINITION. Unit DL (42_delay_line.md): the circular delay buffer and the fractional-delay reads. The position arithmetic and the interpolation formulas are written over any numerics record. -/

namespace Sys2Proof.Machine

/-- `WIDX <- (WIDX + 1) mod DLCAP` (R191, R192). -/
def DelayChannel.bump (cap : Nat) (c : DelayChannel) : DelayChannel :=
  { c with widx := BitVec.ofNat 32 ((c.widx.toNat + 1) % cap) }

/-- The channel after `DL.WRITE x`: the word is stored at the cursor, the cursor advances (R191). -/
def DelayChannel.push (cap : Nat) (x : Word) (c : DelayChannel) : DelayChannel :=
  DelayChannel.bump cap { c with mem := c.mem.write c.widx.toNat x }

/-- `DL.WRITE ch, x` (R191). -/
def execDlWrite (ch : Nat) (x : Word) (s : State) : Host.Outcome State Fault Refusal :=
  runCommand (.dlWrite ch x) s fun s =>
    answer (s.setDelayChan ch ((s.delayChan ch).push s.dl.cap.toNat x)) 0#32 {}

/-- `DL.ADV ch` (R192). -/
def execDlAdv (ch : Nat) (s : State) : Host.Outcome State Fault Refusal :=
  runCommand (.dlAdv ch) s fun s =>
    answer (s.setDelayChan ch ((s.delayChan ch).bump s.dl.cap.toNat)) 0#32 {}

/-- A legal delay: `DLCAP ≥ 2`, no NaN, `0 ≤ d ≤ DLCAP − 2` (R193). -/
def legalDelay {α : Type} (N : Num α) (cap : Nat) (d : α) : Bool :=
  decide (2 ≤ cap) && !N.isnan d && N.fle N.zero d && N.fle d (N.u2f (cap - 2))

/-- The read position `r`, subtract, add, then `fmod`, in this order (R194). -/
def readPosition {α : Type} (N : Num α) (w cap : Nat) (d : α) : α :=
  N.fmod (N.fadd (N.fsub (N.u2f w) d) (N.u2f cap)) (N.u2f cap)

/-- The integer index `i1` of a position (R195). -/
def indexOf {α : Type} (N : Num α) (r : α) : Nat := N.ffloorU r

/-- The fraction `fr` of a position (R195). -/
def fractionOf {α : Type} (N : Num α) (r : α) : α := N.fsub r (N.u2f (N.ffloorU r))

/-- The neighbours `i0, i1, i2, i3` of an index: one sample older, the index, one and two newer (R195). -/
def neighbour (cap i1 : Nat) : Fin 4 → Nat
  | 0 => (i1 + cap - 1) % cap
  | 1 => i1
  | 2 => (i1 + 1) % cap
  | 3 => (i1 + 2) % cap

/-- Nearest: a fraction of one half goes to the newer sample (R197). -/
def nearestSample {α : Type} (N : Num α) (fr s1 s2 : α) : α := if N.flt fr N.half then s1 else s2

/-- Linear: the stored word at fraction zero, else `a + fr·(b − a)`, each operation rounded (R198). -/
def linearSample {α : Type} (N : Num α) (fr a b : α) : α :=
  if N.feq fr N.zero then a else N.fadd a (N.fmul fr (N.fsub b a))

/-- The Catmull-Rom polynomial through four samples, in the nesting of R199. -/
def catmullRom {α : Type} (N : Num α) (fr s0 s1 s2 s3 : α) : α :=
  let f2 := N.fmul fr fr
  let f3 := N.fmul f2 fr
  let a0 := N.fadd (N.fsub (N.fadd (N.fmul N.negHalf s0) (N.fmul N.threeHalves s1)) (N.fmul N.threeHalves s2)) (N.fmul N.half s3)
  let a1 := N.fsub (N.fadd (N.fsub s0 (N.fmul N.fiveHalves s1)) (N.fmul N.two s2)) (N.fmul N.half s3)
  let a2 := N.fadd (N.fmul N.negHalf s0) (N.fmul N.half s2)
  N.fadd (N.fadd (N.fadd (N.fmul a0 f3) (N.fmul a1 f2)) (N.fmul a2 fr)) s1

/-- Cubic: the stored word at fraction zero, else the polynomial (R199). -/
def cubicSample {α : Type} (N : Num α) (fr s0 s1 s2 s3 : α) : α :=
  if N.feq fr N.zero then s1 else catmullRom N fr s0 s1 s2 s3

/-- How a read turns the fraction and the four neighbours `i0 … i3` into a sample. -/
abbrev Interpolation := Word → (Fin 4 → Word) → Word

/-- The nearest mode (R197). -/
def nearestMode (N : Num Word) : Interpolation := fun fr v => nearestSample N fr (v 1) (v 2)

/-- The linear mode (R198). -/
def linearMode (N : Num Word) : Interpolation := fun fr v => linearSample N fr (v 1) (v 2)

/-- The cubic mode (R199). -/
def cubicMode (N : Num Word) : Interpolation := fun fr v => cubicSample N fr (v 0) (v 1) (v 2) (v 3)

/-- The read position of delay `d` on channel `ch` (R194). -/
def State.delayPosition (s : State) (ch : Nat) (d : Word) : Word :=
  readPosition s.params.impl.num (s.delayChan ch).widx.toNat s.dl.cap.toNat d

/-- Whether a read is a zero-delay read (R196). -/
def State.zeroDelayRead (s : State) (ch : Nat) (d : Word) : Bool :=
  zeroDelay (indexOf s.params.impl.num (s.delayPosition ch d)) (s.delayChan ch).widx.toNat

/-- The value a read computes when it is no zero-delay read (R195, R197 to R199). -/
def State.delayValue (s : State) (mode : Interpolation) (ch : Nat) (d : Word) : Word :=
  mode (fractionOf s.params.impl.num (s.delayPosition ch d)) fun k =>
    (s.delayChan ch).mem.read (neighbour s.dl.cap.toNat (indexOf s.params.impl.num (s.delayPosition ch d)) k)

/-- The state with one more `draw32()` drawn (log entry 5). -/
def State.countDraw (s : State) : State := { s with free := { s.free with draws := s.free.draws + 1 } }

/-- A delay read: `E_DL_RANGE` for an illegal delay; a draw and `ZD = 1` at zero effective delay; else the value (R193, R196). -/
def delayRead (i : Instr) (mode : Interpolation) (ch : Nat) (d : Word) (s : State) : Host.Outcome State Fault Refusal :=
  if legalDelay s.params.impl.num s.dl.cap.toNat d then
    (if s.zeroDelayRead ch d then answer s.countDraw (Config.draw32 s.free.draws) { zd := true }
     else answer s (s.delayValue mode ch d) {})
  else failWith .dlRange i s

/-- `DL.RDN ch, d` (R197). -/
def execDlRdn (ch : Nat) (d : Word) (s : State) : Host.Outcome State Fault Refusal :=
  runCommand (.dlRdn ch d) s fun s => delayRead (.dlRdn ch d) (nearestMode s.params.impl.num) ch d s

/-- `DL.RDL ch, d` (R198). -/
def execDlRdl (ch : Nat) (d : Word) (s : State) : Host.Outcome State Fault Refusal :=
  runCommand (.dlRdl ch d) s fun s => delayRead (.dlRdl ch d) (linearMode s.params.impl.num) ch d s

/-- `DL.RDC ch, d` (R199). -/
def execDlRdc (ch : Nat) (d : Word) (s : State) : Host.Outcome State Fault Refusal :=
  runCommand (.dlRdc ch d) s fun s => delayRead (.dlRdc ch d) (cubicMode s.params.impl.num) ch d s

end Sys2Proof.Machine
end

