-- ==== Sys2Proof/Machine/Smoother.lean ====
section
/-! DEFINITION. Unit SP (41_smoothed_parameter.md): the linear ramp generators. All four commands answer with the flag `RAMP` of the smoother they leave (R171). -/

namespace Sys2Proof.Machine

/-- The smoother after `SP.CONFIG n` (R172). -/
def Smoother.configure (n : Word) (sm : Smoother) : Smoother := { sm.settle with rampLen := n }

/-- The step size of a ramp of `n` steps, over any numerics record (R173). -/
def rampStep {α : Type} (N : Num α) (cur v : α) (n : Nat) : α := N.fdiv (N.fsub v cur) (N.u2f n)

/-- The smoother after `SP.SETTGT v` (R173). -/
def Smoother.setTarget (N : Num Word) (v : Word) (sm : Smoother) : Smoother :=
  if sm.rampLen = 0#32 then { sm with tgt := v, cur := v, step := 0#32, rem := 0#32 }
  else { sm with tgt := v, step := rampStep N sm.cur v sm.rampLen.toNat, rem := sm.rampLen }

/-- The smoother after `SP.ADV`: the last step of a ramp copies the target (R174). -/
def Smoother.advance (N : Num Word) (sm : Smoother) : Smoother :=
  if sm.rem = 0#32 then sm
  else if sm.rem = 1#32 then { sm with rem := 0#32, cur := sm.tgt }
  else { sm with rem := sm.rem - 1#32, cur := N.fadd sm.cur sm.step }

/-- `SP[i]` becomes `sm`, and the command answers `data` with the flag `RAMP` of `sm` (R171). -/
def smootherResult (i : Nat) (sm : Smoother) (data : Word) (s : State) : Host.Outcome State Fault Refusal :=
  answer (s.setSmoother i sm) data (rampFlag sm)

/-- `SP.CONFIG i, n` (R172). -/
def execSpConfig (i : Nat) (n : Word) (s : State) : Host.Outcome State Fault Refusal :=
  runCommand (.spConfig i n) s fun s => smootherResult i ((s.smoother i).configure n) 0#32 s

/-- `SP.SETTGT i, v` (R173). -/
def execSpSettgt (i : Nat) (v : Word) (s : State) : Host.Outcome State Fault Refusal :=
  runCommand (.spSettgt i v) s fun s => smootherResult i ((s.smoother i).setTarget s.params.impl.num v) 0#32 s

/-- `SP.ADV i` (R174). -/
def execSpAdv (i : Nat) (s : State) : Host.Outcome State Fault Refusal :=
  runCommand (.spAdv i) s fun s =>
    smootherResult i ((s.smoother i).advance s.params.impl.num) ((s.smoother i).advance s.params.impl.num).cur s

/-- `SP.SNAP i` (R175). -/
def execSpSnap (i : Nat) (s : State) : Host.Outcome State Fault Refusal :=
  runCommand (.spSnap i) s fun s => answer s (s.smoother i).cur (rampFlag (s.smoother i))

end Sys2Proof.Machine
end

