-- ==== Sys2Proof/Machine/Stft.lean ====
section
/-! DEFINITION. Unit ST (44_stft.md): configuration, the per-sample push, and the frame: windowed analysis copy, forward transform, modification, inverse transform, overlap-add. -/

namespace Sys2Proof.Machine

/-- `ST.CONFIG` (R243). -/
def execStConfig (fftLog2 hopLog2 : Nat) (win : Window) (mod : ModSel) (s : State) : Host.Outcome State Fault Refusal :=
  runCommand (.stConfig fftLog2 hopLog2 win mod) s fun s =>
    if legalConfig s.params fftLog2 hopLog2 then
      answer { s with st := ({ s.st with cfg := configWord fftLog2 hopLog2 win mod } : StftUnit).reinit s.params.impl } 0#32 {}
    else failWith .cfg (.stConfig fftLog2 hopLog2 win mod) s

/-- `INW`, the input ring: store `x` at the cursor, advance it (R247). -/
def StftChannel.input (n : Nat) (x : Word) (c : StftChannel) : StftChannel :=
  { c with inr := c.inr.write c.inw.toNat x, inw := BitVec.ofNat 32 ((c.inw.toNat + 1) % n) }

/-- The word the output ring delivers (R247). -/
def StftChannel.output (c : StftChannel) : Word := c.outr.read c.ord.toNat

/-- The output ring is read destructively and its cursor advances (R246, R247). -/
def StftChannel.drain (n : Nat) (c : StftChannel) : StftChannel :=
  { c with outr := c.outr.write c.ord.toNat 0#32, ord := BitVec.ofNat 32 ((c.ord.toNat + 1) % n) }

/-- The channel after the two ring accesses of a push and before the hop test (R247). -/
def StftChannel.shift (n : Nat) (x : Word) (c : StftChannel) : StftChannel :=
  { (c.input n x).drain n with cnt := BitVec.ofNat 32 (c.cnt.toNat + 1) }

/-! The frame (R248 to R253), over any implementation and any kind of ring: a device runs it over words and memories, a claim in
exact arithmetic over numbers (R249, 45_numerics_fft_window.md R301). -/

/-- The windowed analysis copy, oldest sample first (R248, R249). -/
def analysisFrame {α : Type} (N : Num α) (n inw : Nat) (wintab inr : Nat → α) : List (Cpx α) :=
  (List.range n).map fun j => ⟨N.fmul (wintab j) (inr ((inw + j) % n)), N.zero⟩

/-- The frame buffer from the analysis copy to the result of the inverse transform, the modification being `modify`; `none` when
that never answers (R249, R252). -/
def transformed {α : Type} (I : Impl α) (l : Nat) (modify : List (Cpx α) → Option (List (Cpx α))) (copy : List (Cpx α)) :
    Option (List (Cpx α)) :=
  (modify (I.fft.forward l copy)).map (I.fft.inverse l)

/-- Overlap-add: for ascending `j`, the real part of element `j` is scaled and added at `(OWR + j) mod N` (R250, R253). -/
def overlapAdd {α ρ : Type} (N : Num α) (read : ρ → Nat → α) (write : ρ → Nat → α → ρ) (n owr : Nat) (scale : α)
    (fb : List (Cpx α)) (outr : ρ) : ρ :=
  (List.range n).foldl
    (fun m j => write m ((owr + j) % n) (N.fadd (read m ((owr + j) % n)) (N.fmul (fb.getD j ⟨N.zero, N.zero⟩).re scale))) outr

/-- The modification: the identity, or the `N` bins the agent answers with; `none` when the agent never
answers (R252; log entry 6). -/
def modified (mode : ModSel) (n exchange ch : Nat) (spectrum : List (Cpx Word)) : Option (List (Cpx Word)) :=
  match mode with
  | .identity => some spectrum
  | .external =>
    if Config.modAnswers exchange ch spectrum then some ((List.range n).map (Config.modBin exchange ch spectrum)) else none

/-- The frame buffer of a channel after the inverse transform, at the given exchange with the agent (R249). -/
def StftChannel.frameBuffer (I : Impl Word) (st : StftUnit) (exchange ch : Nat) (c : StftChannel) : Option (List (Cpx Word)) :=
  transformed I (fftLog2Field st.cfg) (modified (modField st.cfg) st.n.toNat exchange ch)
    (analysisFrame I.num st.n.toNat c.inw.toNat st.wintab.read c.inr.read)

/-- The channel after the second half of a frame: overlap-add, then `OWR` advances by the hop size; the hop counter is
zero (R247, R249). -/
def StftChannel.resynthesise (N : Num Word) (st : StftUnit) (fb : List (Cpx Word)) (c : StftChannel) : StftChannel :=
  { c with
    outr := overlapAdd N Mem.read Mem.write st.n.toNat c.owr.toNat st.scale fb c.outr
    owr := BitVec.ofNat 32 ((c.owr.toNat + st.hop.toNat) % st.n.toNat)
    cnt := 0#32 }

/-- The state with the exchange of a frame counted, when there is one (log entry 6). -/
def State.countExchange (s : State) : State :=
  match modField s.st.cfg with
  | .identity => s
  | .external => { s with free := { s.free with mods := s.free.mods + 1 } }

/-- The push once the command may execute (R247): the rings, the output word, and a frame when the hop is complete. -/
def pushSample (I : Impl Word) (ch : Nat) (x : Word) (s : State) : Host.Outcome State Fault Refusal :=
  let c := s.stftChan ch
  let shifted := c.shift s.st.n.toNat x
  if hopReached shifted.cnt.toNat s.st.hop.toNat then
    match shifted.frameBuffer I s.st s.free.mods ch with
    | some fb => answer (s.countExchange.setStftChan ch (shifted.resynthesise I.num s.st fb)) c.output { frame := true }
    | none => .fault .modNeverAnswers
  else answer (s.setStftChan ch shifted) c.output {}

/-- `ST.PUSH ch, x` (R247). -/
def execStPush (ch : Nat) (x : Word) (s : State) : Host.Outcome State Fault Refusal :=
  runCommand (.stPush ch x) s fun s => pushSample s.params.impl ch x s

end Sys2Proof.Machine
end

