-- ==== Sys2Proof/Machine/Dispatch.lean ====
section
/-! DEFINITION. `exec`: one arm per command, each one direct call of its meaning. -/

namespace Sys2Proof.Machine

def exec (i : Instr) (s : State) : Host.Outcome State Fault Refusal :=
  match i with
  -- unit SYS (40_sys.md)
  | .sysNop => Sys2Proof.Machine.execSysNop s
  | .sysReset => Sys2Proof.Machine.execSysReset s
  | .sysPrepare srate maxblk cap => Sys2Proof.Machine.execSysPrepare srate maxblk cap s
  | .sysBegin n => Sys2Proof.Machine.execSysBegin n s
  | .sysEnd => Sys2Proof.Machine.execSysEnd s
  | .sysRdreg addr => Sys2Proof.Machine.execSysRdreg addr s
  | .sysRdmem ch space addr => Sys2Proof.Machine.execSysRdmem ch space addr s
  -- unit SP (41_smoothed_parameter.md)
  | .spConfig k n => Sys2Proof.Machine.execSpConfig k n s
  | .spSettgt k v => Sys2Proof.Machine.execSpSettgt k v s
  | .spAdv k => Sys2Proof.Machine.execSpAdv k s
  | .spSnap k => Sys2Proof.Machine.execSpSnap k s
  -- unit DL (42_delay_line.md)
  | .dlWrite ch x => Sys2Proof.Machine.execDlWrite ch x s
  | .dlAdv ch => Sys2Proof.Machine.execDlAdv ch s
  | .dlRdn ch d => Sys2Proof.Machine.execDlRdn ch d s
  | .dlRdl ch d => Sys2Proof.Machine.execDlRdl ch d s
  | .dlRdc ch d => Sys2Proof.Machine.execDlRdc ch d s
  -- unit BQ (43_biquad.md)
  | .bqLoad f b0 b1 b2 a0 a1 a2 => Sys2Proof.Machine.execBqLoad f b0 b1 b2 a0 a1 a2 s
  | .bqStep f ch x => Sys2Proof.Machine.execBqStep f ch x s
  | .bqClear f => Sys2Proof.Machine.execBqClear f s
  -- unit ST (44_stft.md)
  | .stConfig fftLog2 hopLog2 win mod => Sys2Proof.Machine.execStConfig fftLog2 hopLog2 win mod s
  | .stPush ch x => Sys2Proof.Machine.execStPush ch x s

end Sys2Proof.Machine
end

