-- ==== Sys2Proof/Machine/Step.lean ====
section
/-! DEFINITION. One step of the machine: the command at the head of one port is examined (00_scope.md R12, 20_memory.md R88, R89). The block fetches nothing; commands come from the ports (10_state.md R32). -/

namespace Sys2Proof.Machine

/-- Serve port `p`: its next command leaves the port and executes, faults or is refused. -/
def serve (p : Port) (s : State) : Host.Outcome State Fault Refusal :=
  match s.delivered p with
  | .incomplete => .next s
  | .illegal w rest => .next (illegalCommand w (s.takeCommand p rest))
  | .command i rest => exec i (s.takeCommand p rest)

/-- One step: the port the interleaving picks among those with an enabled command is served. Where no port has
one, the run has ended or is stuck and the block holds its state (00_scope.md R12, 60_exceptions.md R347). -/
def step (s : State) : Host.Outcome State Fault Refusal :=
  match s.choose with
  | none => .next s
  | some p => serve p s

/-- The state in which the very next step examines the command of these bits: its words are put first on the port that
owns the block scope (port A when it is free), where it is never held, and the other port has nothing to
deliver (log entry 9). -/
def State.withFetchWord (s : State) (nbits w : Nat) : State :=
  { s with ports := s.ports.deliverOnly (s.sys.lock.getD .audio) (tableWords nbits w) }

end Sys2Proof.Machine
end

