-- ==== Sys2Proof/Machine/TransformLaws.lean ====
section
/-! DEFINITION. Which devices are legal (00_scope.md R5): the ranges of the counts and limits, and the laws another `FFT` than the default must keep (45_numerics_fft_window.md R301): the transforms of R296, the latency of 44_stft.md R255, the tolerance of R256. -/

namespace Sys2Proof.Machine

/-- The value of a finite binary32 word (45_numerics_fft_window.md R281). -/
def value (w : Word) : ℚ := (scaledValue w : ℚ) / 2 ^ 149

/-- The tolerance, an RMS error of 1e-5 (44_stft.md R256). -/
def rmsTolerance : ℚ := 1 / 10 ^ 5

/-- `fb` is the sequence `x` of `n` complex numbers, in finite words. -/
def Represents (n : Nat) (fb : List (Cpx Word)) (x : Nat → ℂ) : Prop :=
  fb.length = n ∧ ∀ j < n, let z := fb.getD j ⟨0#32, 0#32⟩
    isFinite z.re = true ∧ isFinite z.im = true ∧ x j = ⟨(value z.re : ℝ), (value z.im : ℝ)⟩

/-- `X` is the forward transform of the length-`n` sequence `x`, and so `x` the inverse transform of `X`
(45_numerics_fft_window.md R296). -/
def IsDft (n : Nat) (x X : Nat → ℂ) : Prop :=
  ∀ k < n, X k = ∑ j ∈ Finset.range n, x j * Complex.exp (-2 * Real.pi * Complex.I * (j * k) / n)

/-- `fb` is `x` to within the tolerance: `n` elements of finite words whose mean square distance from `x` is below the square of
the tolerance, for sequences of mean square up to `power`. -/
def Approximates (n : Nat) (power : ℝ) (fb : List (Cpx Word)) (x : Nat → ℂ) : Prop :=
  ∃ z, Represents n fb z ∧ ∑ k ∈ Finset.range n, ‖z k - x k‖ ^ 2 < n * (power * rmsTolerance ^ 2)

/-- Sample words: finite values from −1 to 1. -/
def FullScale (xs : List Word) : Prop := ∀ x ∈ xs, isFinite x = true ∧ |value x| ≤ 1

/-- The words `ys` follow the samples `xs` with an RMS error below the tolerance (44_stft.md R256). -/
def Follows (ys xs : List Word) : Prop :=
  ys.length = xs.length ∧ (∀ y ∈ ys, isFinite y = true) ∧
    ((List.zipWith (fun y x => (value y - value x) ^ 2) ys xs).sum < xs.length * rmsTolerance ^ 2)

/-- The results of pushing samples on channel 0, with an implementation `I` (44_stft.md R247). -/
def pushAll (I : Impl Word) : List Word → State → List Word
  | [], _ => []
  | x :: xs, s =>
    (s.stftChan 0).output ::
      match pushSample I 0 x s with
      | .next t => pushAll I xs t
      | .fault _ => []
      | .refused _ => []

/-- An engine just configured, with the identity modification (44_stft.md R243). -/
def configured (I : Impl Word) (fftLog2 hopLog2 : Nat) (win : Window) : State :=
  { State.reset with
    st := ({ State.reset.st with cfg := configWord fftLog2 hopLog2 win .identity } : StftUnit).reinit I }

end Sys2Proof.Machine

namespace Sys2Proof

open Machine

/-- The laws of a transform pair of size `2^l` on a device with the default `Num` (45_numerics_fft_window.md R301; log entry 26). -/
structure Transform.Lawful (F : Transform Word) (l : Nat) : Prop where
  /-- R296: the forward transform of samples, the bins of which have a mean square up to `2^l`. -/
  forward : ∀ (a : List (Cpx Word)) (x X : Nat → ℂ), Represents (2 ^ l) a x → (∀ j < 2 ^ l, ‖x j‖ ≤ 1) →
    IsDft (2 ^ l) x X → Approximates (2 ^ l) (2 ^ l) (F.forward l a) X
  /-- R296: the inverse transform of the bins of samples. -/
  inverse : ∀ (b : List (Cpx Word)) (y Y : Nat → ℂ), Represents (2 ^ l) b Y → (∀ j < 2 ^ l, ‖y j‖ ≤ 1) →
    IsDft (2 ^ l) y Y → Approximates (2 ^ l) 1 (F.inverse l b) y
  /-- 44_stft.md R255: in every configuration of this size the first `2^l` results are latency. -/
  latency : ∀ (h : Nat) (win : Window) (xs : List Word), 1 ≤ h → h ≤ 3 → h ≤ l → FullScale xs → xs.length = 2 ^ l →
    Follows (pushAll ⟨binary32, F, windowRom⟩ xs (configured ⟨binary32, F, windowRom⟩ l h win))
      (List.replicate (2 ^ l) 0x00000000#32)
  /-- 44_stft.md R255, R256: with the Hann window and hop divisor 4 the later results are the samples `2^l` before, over
  `2^l` samples or more. -/
  tolerance : ∀ (xs xs' : List Word), FullScale (xs ++ xs') → 2 ^ l ≤ xs.length → xs'.length = 2 ^ l →
    Follows ((pushAll ⟨binary32, F, windowRom⟩ (xs ++ xs') (configured ⟨binary32, F, windowRom⟩ l 2 .hann)).drop (2 ^ l)) xs
  /-- R301: one NaN or infinity makes every element NaN, once through the pair. -/
  nonfinite : ∀ (a : List (Cpx Word)) (i : Nat), a.length = 2 ^ l → (∀ z ∈ a, z.im = 0x00000000#32) → i < 2 ^ l →
    isFinite (a.getD i ⟨0#32, 0#32⟩).re = false →
    ∀ j < 2 ^ l, isNaN ((F.inverse l (F.forward l a)).getD j ⟨0#32, 0#32⟩).re = true

/-- The laws of an implementation: where its `Num` is the default, so that words have values, those of its transform pair in every
size of the device (45_numerics_fft_window.md R301). -/
def Impl.Lawful (I : Impl Word) (maxLog2 : Nat) : Prop :=
  I.num = binary32 → ∀ l, fftMinLog2 ≤ l → l ≤ maxLog2 → I.fft.Lawful l

/-- A legal device: counts and limits in range (00_scope.md R5), and another implementation than the default is lawful. -/
def Params.Legal (p : Params) : Prop :=
  p.InRange ∧ (p.build ≠ .standard → p.impl.Lawful p.fftMaxLog2)

end Sys2Proof
end

