-- ==== Sys2Proof/Safety.lean ====
section
/-! DEFINITION. What a good state is, in the terms the statements use: the invariants the spec writes beside its state (10_state.md R39, R42, R44, R47, R48, R49, R52), the shape a device's parameters give the state, and when a run has ended, has ended well, or is stuck (00_scope.md R12). -/

namespace Sys2Proof.Machine

/-- Every listed address is below a bound. -/
abbrev Mem.Within (n : Nat) (m : Mem) : Prop := ∀ e ∈ m, e.1 < n

/-- A memory in canonical form, inside its physical size. -/
abbrev Mem.Ok (size : Nat) (m : Mem) : Prop := m.wf = true ∧ m.Within size

/-- The error registers agree with `FAULT`; a block that is not prepared has no scope; `BLKLEN ≤ MAXBLK`
(10_state.md R35 to R38, 60_exceptions.md R332). -/
abbrev SysRegs.Ok (r : SysRegs) : Prop :=
  r.fault = r.errcode.isSome ∧ (r.fault = false → r.errcmd = 0#32 ∧ r.errport = .audio) ∧
    (r.prepared = false → r.lock = none) ∧ r.blklen.toNat ≤ r.maxblk.toNat

/-- The invariant of a smoother (10_state.md R42). -/
abbrev Smoother.Ok (sm : Smoother) : Prop :=
  sm.rem.toNat ≤ sm.rampLen.toNat ∧ (sm.rem = 0#32 → sm.cur = sm.tgt)

/-- A channel of the delay line: the write cursor stays below `DLCAP` (10_state.md R43, R44). -/
abbrev DelayChannel.Ok (p : Params) (prepared : Bool) (cap : Nat) (c : DelayChannel) : Prop :=
  c.mem.Ok p.dlcapMax ∧ (prepared = true → c.widx.toNat < cap)

/-- Unit DL: `1 ≤ DLCAP ≤ DLCAP_MAX` once prepared (10_state.md R39, R43, R44). -/
abbrev DelayUnit.Ok (p : Params) (prepared : Bool) (dl : DelayUnit) : Prop :=
  dl.chans.length = p.nch ∧ (prepared = true → 1 ≤ dl.cap.toNat ∧ dl.cap.toNat ≤ p.dlcapMax) ∧
    ∀ c ∈ dl.chans, c.Ok p prepared dl.cap.toNat

/-- A filter: `A0` reads 1.0 (10_state.md R46, R47). -/
abbrev Filter.Ok (p : Params) (q : Filter) : Prop := q.coeffs.a0 = 0x3F800000#32 ∧ q.chans.length = p.nch

/-- `STCFG` holds a legal configuration and nothing above bit 8 (10_state.md R48, 44_stft.md R241). -/
abbrev configOk (p : Params) (cfg : Word) : Prop :=
  cfg.toNat < 512 ∧ legalConfig p (fftLog2Field cfg) (hopLog2Field cfg) = true

/-- The derived registers and the window table are those of the configuration (10_state.md R49, R52, 44_stft.md R243, R244). -/
abbrev StftUnit.Derived (I : Impl Word) (st : StftUnit) : Prop :=
  st.n.toNat = 2 ^ fftLog2Field st.cfg ∧ st.hop.toNat * 2 ^ hopLog2Field st.cfg = st.n.toNat ∧
    (∀ j < st.n.toNat, st.wintab.read j = I.wrom (winField st.cfg) (fftLog2Field st.cfg) j) ∧
    st.scale = scaleFactor I.num (hopLog2Field st.cfg) st.n.toNat (st.wintab.words st.n.toNat)

/-- The cursors of a channel of unit ST (10_state.md R52). -/
abbrev StftChannel.CursorsOk (n hop : Nat) (c : StftChannel) : Prop :=
  c.inw.toNat < n ∧ c.ord.toNat < n ∧ c.owr.toNat < n ∧ c.cnt.toNat < hop ∧ hop ∣ c.owr.toNat ∧ c.inw = c.ord

/-- A channel of unit ST (10_state.md R50, R51, R52). -/
abbrev StftChannel.Ok (p : Params) (prepared : Bool) (st : StftUnit) (c : StftChannel) : Prop :=
  c.inr.Ok (2 ^ p.fftMaxLog2) ∧ c.outr.Ok (2 ^ p.fftMaxLog2) ∧ (prepared = true → c.CursorsOk st.n.toNat st.hop.toNat)

/-- Unit ST (10_state.md R48 to R52). -/
abbrev StftUnit.Ok (p : Params) (prepared : Bool) (st : StftUnit) : Prop :=
  configOk p st.cfg ∧ st.wintab.Ok (2 ^ p.fftMaxLog2) ∧ (prepared = true → st.Derived p.impl) ∧ st.chans.length = p.nch ∧
    ∀ c ∈ st.chans, c.Ok p prepared st

/-- The invariant of the machine: the device is legal, the files have the lengths its parameters give, and every
invariant the spec states of a reachable state holds. -/
structure State.Inv (s : State) : Prop where
  /-- The device is legal (00_scope.md R5, 45_numerics_fft_window.md R301). -/
  legal : s.params.Legal
  sys : s.sys.Ok
  spLength : s.sp.length = s.params.nsp
  sp : ∀ sm ∈ s.sp, sm.Ok
  dl : s.dl.Ok s.params s.sys.prepared
  bqLength : s.bq.length = s.params.nbq
  bq : ∀ q ∈ s.bq, q.Ok s.params
  st : s.st.Ok s.params s.sys.prepared

/-! When a command may run. -/

/-- The block is prepared and no fault is recorded: the gates of 60_exceptions.md R323 and R324 are open. -/
abbrev State.Ready (s : State) : Prop := s.sys.prepared = true ∧ s.sys.fault = false

/-- The port being served owns the block scope (40_sys.md R140). -/
abbrev State.OwnsScope (s : State) : Prop := s.sys.lock = some s.ports.cur

/-- The other port does not own the block scope: a class R command is not held (40_sys.md R144). -/
abbrev State.NotLockedOut (s : State) : Prop := s.sys.lock ≠ some s.ports.cur.other

/-! How a run ends (00_scope.md R12). -/

/-- A port has no command left; words cut off by the end of its sequence are none (30_encoding.md R118). -/
abbrev State.Exhausted (s : State) (p : Port) : Prop := s.delivered p = .incomplete

/-- The run has ended: both sequences are exhausted. -/
abbrev State.Ended (s : State) : Prop := s.Exhausted .audio ∧ s.Exhausted .control

/-- The run has ended well. -/
abbrev State.EndedWell (s : State) : Prop := s.Ended ∧ s.sys.fault = false

/-- Some port still has a command and no command is enabled. -/
abbrev State.Stuck (s : State) : Prop := ¬ s.Ended ∧ s.choose = none

end Sys2Proof.Machine
end

