-- ==== Sys2Proof/Certificates/Slice0/Obligations.lean ====
section
/-! DEFINITION. The statements for the provers. Each says what a rule of the spec says of a command, of the step, of the numerics or of the whole machine; OBLIGATIONS.json lists them. Where a result depends on `Num`, `FFT` or `WROM`, a statement takes those of the device, `s.params.impl`, and so holds for every choice of them (log entry 12); what the defaults compute is said under Numerics. The vocabulary they share comes first. -/

namespace Sys2Proof.Statements

open Sys2Proof.Machine

/-- `s` with one response sent on the port being served (30_encoding.md R116), and nothing else changed. -/
def answered (s : State) (status data : Word) : State := { s with ports := s.ports.send ⟨status, data⟩ }

/-- The numbers of the fault codes (60_exceptions.md R320). -/
def faultCode : ErrCode → Nat
  | .illegal => 0x01
  | .index => 0x02
  | .notPrepared => 0x03
  | .scope => 0x04
  | .block => 0x05
  | .cfg => 0x06
  | .dlRange => 0x07
  | .coef => 0x08
  | .addr => 0x09

/-- `s` after the first fault `e`, of a command with command word `w` (60_exceptions.md R332): the four fault
registers, the response, and nothing else. -/
def faulted (s : State) (e : ErrCode) (w : Word) : State :=
  { s with
    sys := { s.sys with fault := true, errcode := some e, errcmd := w, errport := s.ports.cur }
    ports := s.ports.send ⟨BitVec.ofNat 32 (faultCode e), 0#32⟩ }

/-- The commands of class P (40_sys.md R143). -/
def ClassP : Instr → Prop
  | .dlWrite _ _ => True
  | .dlAdv _ => True
  | .dlRdn _ _ => True
  | .dlRdl _ _ => True
  | .dlRdc _ _ => True
  | .bqStep _ _ _ => True
  | .stPush _ _ => True
  | _ => False

/-- The commands of class R (40_sys.md R143). -/
def ClassR : Instr → Prop
  | .sysPrepare _ _ _ => True
  | .bqLoad _ _ _ _ _ _ _ => True
  | .bqClear _ => True
  | .stConfig _ _ _ _ => True
  | _ => False

/-- An instance field of the command is out of range for the device (60_exceptions.md R326). -/
def OutOfRange (p : Params) : Instr → Prop
  | .sysRdmem ch _ _ => p.nch ≤ ch
  | .spConfig k _ => p.nsp ≤ k
  | .spSettgt k _ => p.nsp ≤ k
  | .spAdv k => p.nsp ≤ k
  | .spSnap k => p.nsp ≤ k
  | .dlWrite ch _ => p.nch ≤ ch
  | .dlAdv ch => p.nch ≤ ch
  | .dlRdn ch _ => p.nch ≤ ch
  | .dlRdl ch _ => p.nch ≤ ch
  | .dlRdc ch _ => p.nch ≤ ch
  | .bqLoad f _ _ _ _ _ _ => p.nbq ≤ f
  | .bqStep f ch _ => p.nbq ≤ f ∨ p.nch ≤ ch
  | .bqClear f => p.nbq ≤ f
  | .stPush ch _ => p.nch ≤ ch
  | _ => False

/-- Every condition under which a command `i` is held on port `p` is true (40_sys.md R144). -/
def Held (s : State) (p : Port) (i : Instr) : Prop :=
  i ≠ .sysReset ∧ s.sys.fault = false ∧ ¬ OutOfRange s.params i ∧
    (s.sys.prepared = true ∨ ∃ srate maxblk cap, i = .sysPrepare srate maxblk cap) ∧
    (ClassR i ∨ ∃ n, i = .sysBegin n) ∧ s.sys.lock = some p.other

/-- The words of all memories are the same in `t` as in `s`. -/
def SameMemory (s t : State) : Prop := ∀ space ch a, t.memRead space ch a = s.memRead space ch a

/-- The memories of `t` are those of `s` but for the word `v` stored at `(space, ch, a)`. -/
def StoredAt (s t : State) (space : Space) (ch a : Nat) (v : Word) : Prop :=
  t.memRead space ch a = v ∧
    ∀ space' ch' a', ¬ (space' = space ∧ ch' = ch ∧ a' = a) → t.memRead space' ch' a' = s.memRead space' ch' a'

/-- Several commands of one port, one after the other. -/
def execAll : List Instr → State → Host.Outcome State Fault Refusal
  | [], s => .next s
  | i :: is, s =>
    match exec i s with
    | .next t => execAll is t
    | .fault r => .fault r
    | .refused r => .refused r

/-- Several commands of both ports, in one interleaving (20_memory.md R89). -/
def issueAll : List (Port × Instr) → State → Host.Outcome State Fault Refusal
  | [], s => .next s
  | (p, i) :: is, s =>
    match exec i { s with ports := { s.ports with cur := p } } with
    | .next t => issueAll is t
    | .fault r => .fault r
    | .refused r => .refused r

/-- The commands that write smoother `i` other than `SP.ADV i` (10_state.md R41). -/
def setsSmoother (i : Nat) : Instr → Bool
  | .spConfig k _ => k == i
  | .spSettgt k _ => k == i
  | .sysPrepare _ _ _ => true
  | .sysReset => true
  | _ => false

/-- The reset column of the table of 10_state.md R55, for a device with parameters `p`; the memories, which that
column calls unspecified, are left out. -/
structure ResetValues (p : Params) (t : State) : Prop where
  sys : t.sys = ⟨false, false, none, none, 0#32, .audio, 0#32, 0#32, 0#32⟩
  sp : t.sp = List.replicate p.nsp ⟨0#32, 0#32, 0#32, 0#32, 0#32⟩
  dlcap : t.dl.cap = 0#32
  widx : t.dl.chans.map DelayChannel.widx = List.replicate p.nch 0#32
  bq : t.bq = List.replicate p.nbq
    ⟨⟨0x3F800000#32, 0#32, 0#32, 0x3F800000#32, 0#32, 0#32⟩, List.replicate p.nch ⟨0#32, 0#32, 0#32, 0#32, 0#32, 0#32⟩⟩
  fftLog2 : fftLog2Field t.st.cfg = min 9 p.fftMaxLog2
  hopLog2 : hopLog2Field t.st.cfg = 2
  win : winField t.st.cfg = .hann
  mod : modField t.st.cfg = .identity
  cfgHigh : t.st.cfg.toNat < 512
  derived : t.st.n = 0#32 ∧ t.st.hop = 0#32 ∧ t.st.scale = 0#32
  cursors : t.st.chans.map (fun c => (c.inw, c.ord, c.owr, c.cnt)) = List.replicate p.nch (0#32, 0#32, 0#32, 0#32)

/-- Unit ST of `t` after `st_reinit()` (44_stft.md R243, R244, R245) with configuration word `cfg`, started from `s` on a device
with implementation `I`. That words at or above the new length keep what they held is the model's choice (log entry 3). -/
structure Reinitialised (I : Impl Word) (cfg : Word) (s t : State) : Prop where
  configured : t.st.cfg = cfg
  n : t.st.n.toNat = 2 ^ fftLog2Field cfg
  hop : t.st.hop.toNat = 2 ^ fftLog2Field cfg / 2 ^ hopLog2Field cfg
  wintab : ∀ ch j, t.memRead .wintab ch j =
    if j < 2 ^ fftLog2Field cfg then I.wrom (winField cfg) (fftLog2Field cfg) j else s.memRead .wintab ch j
  scale : t.st.scale =
    I.num.fmul (I.num.fdiv (I.num.fdiv I.num.one (I.num.u2f (2 ^ hopLog2Field cfg)))
      ((List.range (2 ^ fftLog2Field cfg)).foldl (fun acc j => I.num.fadd acc (t.memRead .wintab 0 j)) I.num.zero))
      (I.num.u2f (2 ^ fftLog2Field cfg))
  chans : t.st.chans.length = s.st.chans.length
  cursors : ∀ ch < s.st.chans.length, (t.stftChan ch).inw = 0#32 ∧ (t.stftChan ch).ord = 0#32 ∧
    (t.stftChan ch).cnt = 0#32 ∧ (t.stftChan ch).owr = t.st.hop
  inr : ∀ ch j, t.memRead .inr ch j = if j < 2 ^ fftLog2Field cfg then 0#32 else s.memRead .inr ch j
  outr : ∀ ch j, t.memRead .outr ch j = if j < 2 ^ fftLog2Field cfg then 0#32 else s.memRead .outr ch j

/-- An illegal command word, as 30_encoding.md R115 lists them: a reserved `UNIT`, a reserved `FUNC`, or a
non-zero bit in a must-be-zero field. -/
def Reserved (w : Word) : Prop :=
  let unit := w.toNat / 2 ^ 28
  let func := w.toNat / 2 ^ 24 % 16
  let idx := w.toNat / 2 ^ 16 % 256
  let ch := w.toNat / 2 ^ 12 % 16
  let imm := w.toNat % 2 ^ 12
  5 ≤ unit ∨
    (unit = 0 ∧ 7 ≤ func) ∨ (unit = 1 ∧ 4 ≤ func) ∨ (unit = 2 ∧ (func = 2 ∨ func = 3 ∨ 7 ≤ func)) ∨
    (unit = 3 ∧ 3 ≤ func) ∨ (unit = 4 ∧ 2 ≤ func) ∨
    (unit = 0 ∧ func < 6 ∧ ¬ (idx = 0 ∧ ch = 0 ∧ imm = 0)) ∨ (unit = 0 ∧ func = 6 ∧ ¬ (idx = 0 ∧ imm < 4)) ∨
    (unit = 1 ∧ ¬ (ch = 0 ∧ imm = 0)) ∨ (unit = 2 ∧ ¬ (idx = 0 ∧ imm = 0)) ∨
    (unit = 3 ∧ func = 1 ∧ imm ≠ 0) ∨ (unit = 3 ∧ func ≠ 1 ∧ ¬ (ch = 0 ∧ imm = 0)) ∨
    (unit = 4 ∧ func = 0 ∧ ¬ (idx = 0 ∧ ch = 0 ∧ imm < 512)) ∨ (unit = 4 ∧ func = 1 ∧ ¬ (idx = 0 ∧ imm = 0))

/-- `r` is the correctly rounded word of the real number `x`, to nearest with ties to even
(45_numerics_fft_window.md R282): finite exactly below the overflow threshold, then nearest among all finite words
and even in a tie, else the infinity of the sign of `x`. -/
def Rounded (r : Word) (x : ℚ) : Prop :=
  (isFinite r = true ↔ |x| < (2 ^ 25 - 1) * 2 ^ 103) ∧
    (isFinite r = true → ∀ w, isFinite w = true → |value r - x| ≤ |value w - x| ∧
      (|value w - x| = |value r - x| → value w ≠ value r → fracField r % 2 = 0)) ∧
    (isFinite r = false → isInf r = true ∧ (signBit r = true ↔ x < 0))

/-- The value of a word that is no NaN, an infinity lying beyond every finite value (45_numerics_fft_window.md R281). -/
def extendedValue (w : Word) : WithBot (WithTop ℚ) :=
  if isInf w then (if signBit w then ⊥ else ((⊤ : WithTop ℚ) : WithBot (WithTop ℚ))) else ((value w : WithTop ℚ) : WithBot (WithTop ℚ))

/-- A word is `+0.0` or `−0.0` (45_numerics_fft_window.md R281). -/
def IsZero (w : Word) : Prop := w = 0x00000000#32 ∨ w = 0x80000000#32

/-- The binary32 format (45_numerics_fft_window.md R281, R285). -/
structure HasFormat (w : Word) : Prop where
  isNaN : isNaN w = true ↔ w.toNat / 2 ^ 23 % 2 ^ 8 = 255 ∧ w.toNat % 2 ^ 23 ≠ 0
  isInf : isInf w = true ↔ w = 0x7F800000#32 ∨ w = 0xFF800000#32
  isFinite : isFinite w = true ↔ w.toNat / 2 ^ 23 % 2 ^ 8 ≠ 255
  signBit : signBit w = true ↔ 2 ^ 31 ≤ w.toNat
  subnormal : w.toNat / 2 ^ 23 % 2 ^ 8 = 0 →
    value w = (-1) ^ (w.toNat / 2 ^ 31) * (w.toNat % 2 ^ 23 : ℕ) / 2 ^ 149
  normal : 1 ≤ w.toNat / 2 ^ 23 % 2 ^ 8 → w.toNat / 2 ^ 23 % 2 ^ 8 ≤ 254 →
    value w = (-1) ^ (w.toNat / 2 ^ 31) * (2 ^ 23 + w.toNat % 2 ^ 23 : ℕ) * 2 ^ (w.toNat / 2 ^ 23 % 2 ^ 8) / 2 ^ 150

/-- The signs of zero results, and the operations on zeros and infinities that are no invalid operation
(45_numerics_fft_window.md R282). -/
structure SpecialResults (a b : Word) : Prop where
  zeroSum : isFinite a = true → isFinite b = true → value a + value b = 0 →
    fadd a b = if a = 0x80000000#32 ∧ b = 0x80000000#32 then 0x80000000#32 else 0x00000000#32
  difference : fsub a b = fadd a (fneg b)
  productSign : isNaN (fmul a b) = false → signBit (fmul a b) = (signBit a != signBit b)
  quotientSign : isNaN (fdiv a b) = false → signBit (fdiv a b) = (signBit a != signBit b)
  infinitySum : isInf a = true → isFinite b = true ∨ b = a → fadd a b = a ∧ fadd b a = a
  infinityProduct : isInf a = true → isNaN b = false → ¬ IsZero b → isInf (fmul a b) = true ∧ isInf (fmul b a) = true
  infinityQuotient : isInf a = true → isFinite b = true → isInf (fdiv a b) = true ∧ IsZero (fdiv b a)
  zeroProduct : IsZero a → isFinite b = true → IsZero (fmul a b) ∧ IsZero (fmul b a)
  zeroQuotient : IsZero a → isFinite b = true → ¬ IsZero b → IsZero (fdiv a b) ∧ isInf (fdiv b a) = true

/-- The canonical quiet NaN, of a NaN operand and of an invalid operation (45_numerics_fft_window.md R282, R283). -/
structure CanonicalNaN (a b : Word) : Prop where
  operand : isNaN a = true ∨ isNaN b = true → ∀ op ∈ [fadd, fsub, fmul, fdiv, fmod], op a b = 0x7FC00000#32
  sum : isInf a = true → isInf b = true → a ≠ b → fadd a b = 0x7FC00000#32
  difference : isInf a = true → fsub a a = 0x7FC00000#32
  product : isInf a = true → IsZero b → fmul a b = 0x7FC00000#32 ∧ fmul b a = 0x7FC00000#32
  infinityQuotient : isInf a = true → isInf b = true → fdiv a b = 0x7FC00000#32
  zeroQuotient : IsZero a → IsZero b → fdiv a b = 0x7FC00000#32
  negation : fneg a = a ^^^ 0x80000000#32

/-- The quiet comparisons (45_numerics_fft_window.md R285). -/
structure Compares (a b : Word) : Prop where
  unordered : isNaN a = true ∨ isNaN b = true → flt a b = false ∧ fle a b = false ∧ feq a b = false
  ordered : isNaN a = false → isNaN b = false → (flt a b = true ↔ extendedValue a < extendedValue b) ∧
    (fle a b = true ↔ extendedValue a ≤ extendedValue b) ∧ (feq a b = true ↔ extendedValue a = extendedValue b)

/-- The primitives and the constants of the default `Num` (45_numerics_fft_window.md R280, R281); the powers of two are those of
R300. -/
structure IsDefaultNum (N : Num Word) : Prop where
  arithmetic : N.fadd = fadd ∧ N.fsub = fsub ∧ N.fmul = fmul ∧ N.fdiv = fdiv ∧ N.fmod = fmod ∧ N.fneg = fneg
  tests : N.flt = flt ∧ N.fle = fle ∧ N.feq = feq ∧ N.isnan = isNaN ∧ N.isfinite = isFinite
  conversions : N.u2f = u2f ∧ N.ffloorU = ffloorU
  constants : N.zero = 0x00000000#32 ∧ N.half = 0x3F000000#32 ∧ N.negHalf = 0xBF000000#32 ∧ N.one = 0x3F800000#32 ∧
    N.threeHalves = 0x3FC00000#32 ∧ N.two = 0x40000000#32 ∧ N.fiveHalves = 0x40200000#32
  powers : ∀ l ≤ 15, isFinite (N.pow2neg l) = true ∧ value (N.pow2neg l) = 1 / 2 ^ l

/-- Exact numerics over a field: every primitive the arithmetic rules use is the operation it approximates
(45_numerics_fft_window.md R280). -/
structure Exact {α : Type} [Field α] (N : Num α) : Prop where
  fadd : ∀ a b, N.fadd a b = a + b
  fsub : ∀ a b, N.fsub a b = a - b
  fmul : ∀ a b, N.fmul a b = a * b
  fneg : ∀ a, N.fneg a = -a
  feq : ∀ a b, N.feq a b = true ↔ a = b
  zero : N.zero = 0
  half : N.half = 1 / 2
  negHalf : N.negHalf = -1 / 2
  threeHalves : N.threeHalves = 3 / 2
  two : N.two = 2
  fiveHalves : N.fiveHalves = 5 / 2
  pow2neg : ∀ l, N.pow2neg l = 1 / 2 ^ l

/-- The history of a filter in exact arithmetic before input `n`, from a cleared history (43_biquad.md R224, R225). -/
def historyAt {α : Type} [Field α] (N : Num α) (c : Coeffs α) (x : Nat → α) : Nat → History α
  | 0 => ⟨0, 0, 0, 0, 0, 0⟩
  | n + 1 => biquadNext N c (historyAt N c x n) (x n)

/-- The output for input `n`. -/
def outputAt {α : Type} [Field α] (N : Num α) (c : Coeffs α) (x : Nat → α) (n : Nat) : α :=
  biquadOut N c (historyAt N c x n) (x n)

/-- A complex number of a pair (45_numerics_fft_window.md R299). -/
def toComplex (z : Cpx ℝ) : ℂ := ⟨z.re, z.im⟩

/-- Channel `ch` of unit ST after the two ring accesses of `ST.PUSH ch, x` (44_stft.md R247). -/
def shifted (s : State) (ch : Nat) (x : Word) : StftChannel :=
  let c := s.stftChan ch
  { inw := BitVec.ofNat 32 ((c.inw.toNat + 1) % s.st.n.toNat)
    ord := BitVec.ofNat 32 ((c.ord.toNat + 1) % s.st.n.toNat)
    owr := c.owr
    cnt := c.cnt + 1#32
    inr := c.inr.write c.inw.toNat x
    outr := c.outr.write c.ord.toNat 0#32 }

/-- The windowed analysis copy of a channel (44_stft.md R248, R249). -/
def analysed (s : State) (c : StftChannel) : List (Cpx Word) :=
  (List.range s.st.n.toNat).map fun j =>
    ⟨s.params.impl.num.fmul (s.st.wintab.read j) (c.inr.read ((c.inw.toNat + j) % s.st.n.toNat)), s.params.impl.num.zero⟩

/-- `t` is `s` after a push on `ch` that ran a frame whose modified spectrum is `fb` (44_stft.md R247, R249, R250). -/
structure FrameRan (s t : State) (ch : Nat) (x : Word) (fb : List (Cpx Word)) : Prop where
  channel : ∃ outr, t.st = { s.st with chans := s.st.chans.set ch { shifted s ch x with
    owr := BitVec.ofNat 32 (((s.stftChan ch).owr.toNat + s.st.hop.toNat) % s.st.n.toNat), cnt := 0#32, outr := outr } }
  stored : t.memRead .inr ch (s.stftChan ch).inw.toNat = x
  added : ∀ j < s.st.n.toNat, t.memRead .outr ch (((s.stftChan ch).owr.toNat + j) % s.st.n.toNat) =
    s.params.impl.num.fadd ((shifted s ch x).outr.read (((s.stftChan ch).owr.toNat + j) % s.st.n.toNat))
      (s.params.impl.num.fmul ((s.params.impl.fft.inverse (fftLog2Field s.st.cfg) fb).getD j
        ⟨s.params.impl.num.zero, s.params.impl.num.zero⟩).re s.st.scale)
  others : ∀ space ch' a,
    ¬ (space = .inr ∧ ch' = ch ∧ a = (s.stftChan ch).inw.toNat) → ¬ (space = .outr ∧ ch' = ch ∧ a < s.st.n.toNat) →
      t.memRead space ch' a = s.memRead space ch' a
  rest : t = { s with st := t.st, ports := t.ports, free := t.free }

end Sys2Proof.Statements

section Statements

open Sys2Proof Sys2Proof.Machine Sys2Proof.Statements

/-! Encoding. -/

/-- 30_encoding.md R110 to R114, R118: decoding an encoded well-formed command gives it back, with every field at
every value the encoding admits, and leaves the following words alone. -/
def Obligations.DecodeOfEncode : Prop :=
  ∀ (i : Instr) (rest : List Word), i.wellFormed = true → decode (encode i ++ rest) = .command i rest

/-- 30_encoding.md R118: the words a command was decoded from are its encoding and nothing else, so each command word has
one meaning and each command one command word. -/
def Obligations.EncodeOfDecode : Prop :=
  ∀ (ws : List Word) (i : Instr) (rest : List Word), decode ws = .command i rest →
    i.wellFormed = true ∧ encode i ++ rest = ws

/-- 30_encoding.md R118: the match and mask pairs of the opcode map are pairwise disjoint. -/
def Obligations.OpcodeRowsAreDisjoint : Prop :=
  ∀ (w : Word), ∀ r ∈ opcodeTable, ∀ r' ∈ opcodeTable,
    w &&& r.mask = r.pattern → w &&& r'.mask = r'.pattern → r = r'

/-- 30_encoding.md R115: a word is illegal exactly when it has a reserved `UNIT`, a reserved `FUNC`, or a non-zero bit in a
must-be-zero field; it takes no operand words. -/
def Obligations.IllegalExactlyWhenReserved : Prop :=
  ∀ (w : Word) (ws : List Word), decode (w :: ws) = .illegal w ws ↔ Reserved w

/-- Words of 95_test_vectors.md sections 2.1 and 2.2, one of each unit, decode to the commands the spec prints for them. -/
def Obligations.SpecWordsDecode : Prop :=
  decode [0x06001003#32, 7#32] = .command (.sysRdmem 1 .wintab 7#32) [] ∧
  decode [0x120F0000#32] = .command (.spAdv 15) [] ∧
  decode [0x25001000#32, 0x40200000#32] = .command (.dlRdl 1 0x40200000#32) [] ∧
  decode [0x3107F000#32, 0#32] = .command (.bqStep 7 15 0#32) [] ∧
  decode [0x400001FF#32] = .command (.stConfig 15 3 .hamming .external) [] ∧
  decode [0x07000000#32, 0#32] = .illegal 0x07000000#32 [0#32]

/-! The step and the two ports. -/

/-- 20_memory.md R88, R89: where the chosen port delivers a command, one step is that command's meaning on the state in
which its words have left the port and the port is the one being served; the block's own state is untouched until then. A
port is chosen only when its command is enabled, and where only one is enabled that one is chosen. -/
def Obligations.StepRunsDecodedCommand : Prop :=
  (∀ (s : State) (p : Port) (i : Instr) (rest : List Word), s.choose = some p → s.delivered p = .command i rest →
    s.enabled p = true ∧ step s = exec i (s.takeCommand p rest) ∧
    (s.takeCommand p rest).ports.cur = p ∧
    (s.takeCommand p rest).ports.port p = { s.ports.port p with pending := rest } ∧
    (s.takeCommand p rest).ports.port p.other = s.ports.port p.other ∧
    s.takeCommand p rest =
      { s with ports := (s.takeCommand p rest).ports, free := { s.free with picks := (s.takeCommand p rest).free.picks } }) ∧
  (∀ (s : State) (p : Port), s.enabled p = true → s.enabled p.other = false → s.choose = some p)

/-- 40_sys.md R144: the command at the head of a port is held, that is not enabled, exactly when all the conditions of
the rule are true; and it is held by nothing but those. -/
def Obligations.HeldExactlyByRule : Prop :=
  ∀ (s : State) (p : Port) (i : Instr) (rest : List Word), s.delivered p = .command i rest →
    (s.enabled p = false ↔ Held s p i)

/-- 30_encoding.md R116, 40_sys.md R141: a step that serves port `p` takes exactly one command off the head of that port,
sends exactly one response on that port, and leaves the other port's words and responses alone. -/
def Obligations.OneResponsePerCommand : Prop :=
  ∀ (s t : State) (p : Port), s.choose = some p → step s = .next t →
    (∃ r, (t.ports.port p).sent = (s.ports.port p).sent ++ [r]) ∧
    ((∃ i, s.delivered p = .command i (t.ports.port p).pending) ∨
      (∃ w, s.delivered p = .illegal w (t.ports.port p).pending)) ∧
    t.ports.port p.other = s.ports.port p.other

/-- 70_reset_and_hazards.md R378, 00_scope.md R12: a prepared run without fault gets stuck only because one port opened
a scope, has nothing left to deliver, and the other port's next command waits for that scope; and the step then changes
nothing (the last clause is the model's choice, log entry 8). -/
def Obligations.StuckOnlyBehindOpenScope : Prop :=
  ∀ (s : State), s.Stuck →
    (∃ p i rest, s.Exhausted p ∧ s.delivered p.other = .command i rest ∧ s.sys.lock = some p ∧ s.sys.fault = false ∧
      (ClassR i ∨ ∃ n, i = .sysBegin n)) ∧ step s = .next s

/-! Invariants. -/

/-- 10_state.md R42, R44, R47, R52, R55: the invariants hold in the reset state of every legal device, whatever its ports deliver
and whatever it is built with (another `FFT` with the laws of 45_numerics_fft_window.md R301, log entry 26), and so in the reset
state of the default device (log entry 2). -/
def Obligations.InvariantAtReset : Prop :=
  (∀ (p : Params) (ports : Ports) (free : FreeCounts), p.Legal → (State.resetOn p ports free).Inv) ∧ State.reset.Inv

/-- 10_state.md R42, R44, R47, R52: every step keeps the invariant. -/
def Obligations.StepKeepsInvariant : Prop :=
  ∀ (s t : State), s.Inv → step s = .next t → t.Inv

/-! Unit SYS. -/

/-- 40_sys.md R145: `SYS.NOP` is the word zero; in any state, prepared or not, with a fault recorded or not, it answers
status 0, data 0 and does nothing else. -/
def Obligations.NopOnlyAnswers : Prop :=
  encode .sysNop = [0#32] ∧ cmdClass .sysNop = .free ∧
    ∀ (s : State), exec .sysNop s = .next (answered s 0#32 0#32)

/-- 40_sys.md R146, 10_state.md R55: from any state `SYS.RESET` leaves every piece of state at its reset value, as the
start state has, which is that of the default device (log entry 2). That the words the ports still deliver and the responses
already sent stay (log entry 10), and that the counters of drawn free values stay (log entry 25), is the model's choice. -/
def Obligations.ResetLeavesResetValues : Prop :=
  ResetValues Params.default State.reset ∧
  ∀ (s : State), ∃ t, exec .sysReset s = .next t ∧ ResetValues s.params t ∧
    t.params = s.params ∧ t.ports = s.ports.send ⟨0#32, 0#32⟩ ∧ t.free = s.free

/-- 40_sys.md R147, 10_state.md R56: a prepare with a legal capacity, outside any scope and with no fault recorded,
prepares the block: sizes, cleared delay memory, settled smoothers, cleared filter states, a new start of unit ST. That the words
of a memory at or above its new length keep what they held is the model's choice (log entry 3): R56 calls them unspecified. -/
def Obligations.PrepareSizesAndClears : Prop :=
  ∀ (s : State) (srate maxblk cap : Word), s.Inv → s.sys.fault = false → s.sys.lock = none →
    1 ≤ cap.toNat → cap.toNat ≤ s.params.dlcapMax →
    ∃ t, exec (.sysPrepare srate maxblk cap) s = .next t ∧
      t.sys = { s.sys with prepared := true, srate := srate, maxblk := maxblk, blklen := 0#32 } ∧
      t.sp = s.sp.map (fun sm => ⟨sm.tgt, sm.tgt, 0#32, 0#32, sm.rampLen⟩) ∧
      t.dl.cap = cap ∧ t.dl.chans.map DelayChannel.widx = List.replicate s.params.nch 0#32 ∧
      (∀ ch a, t.memRead .dlmem ch a = if a < cap.toNat then 0#32 else s.memRead .dlmem ch a) ∧
      t.bq = s.bq.map (fun q => ⟨q.coeffs, List.replicate s.params.nch ⟨0#32, 0#32, 0#32, 0#32, 0#32, 0#32⟩⟩) ∧
      Reinitialised s.params.impl s.st.cfg s t ∧
      t.params = s.params ∧ t.ports = s.ports.send ⟨0#32, 0#32⟩ ∧ t.free = s.free

/-- 40_sys.md R150, 60_exceptions.md R328: with no scope open, `SYS.BEGIN n` opens the scope for the issuing port and
records `n` when `n ≤ MAXBLK`, and faults with `E_BLOCK` when `n > MAXBLK`. -/
def Obligations.BeginOpensScope : Prop :=
  ∀ (s : State) (n : Word), s.Ready → s.sys.lock = none →
    (n.toNat ≤ s.sys.maxblk.toNat →
      exec (.sysBegin n) s =
        .next (answered { s with sys := { s.sys with lock := some s.ports.cur, blklen := n } } 0#32 0#32)) ∧
    (s.sys.maxblk.toNat < n.toNat → exec (.sysBegin n) s = .next (faulted s .block 0x03000000#32))

/-- 40_sys.md R151: `SYS.END` from the owner frees the scope. -/
def Obligations.EndFreesScope : Prop :=
  ∀ (s : State), s.Ready → s.OwnsScope →
    exec .sysEnd s = .next (answered { s with sys := { s.sys with lock := none } } 0#32 0#32)

/-- 40_sys.md R152, 60_exceptions.md R332, R333: `SYS.RDREG` answers the register in any state, prepared or not, with a
fault recorded or not; an unmapped address is `E_ADDR`, which is recorded only when no fault is. -/
def Obligations.RdregReadsRegister : Prop :=
  ∀ (s : State) (addr : Word),
    (∀ v, readReg s addr.toNat = some v → exec (.sysRdreg addr) s = .next (answered s 0#32 v)) ∧
    (readReg s addr.toNat = none → s.sys.fault = false →
      exec (.sysRdreg addr) s = .next (faulted s .addr 0x05000000#32)) ∧
    (readReg s addr.toNat = none → s.sys.fault = true → exec (.sysRdreg addr) s = .next (answered s 9#32 0#32))

/-- 10_state.md R33, 60_exceptions.md R320: the register space holds the registers of the table at the addresses of the table;
`ERRCODE` reads 0 without a fault and the number of the fault's code with one. -/
def Obligations.RegisterMapHoldsState : Prop :=
  ∀ (s : State), s.Inv →
    readReg s 0x0 = some 0x41465831#32 ∧ readReg s 0x1 = some (statusReg s.sys) ∧
    (s.sys.errcode = none → readReg s 0x2 = some 0x00#32) ∧ (s.sys.errcode = some .illegal → readReg s 0x2 = some 0x01#32) ∧
    (s.sys.errcode = some .index → readReg s 0x2 = some 0x02#32) ∧
    (s.sys.errcode = some .notPrepared → readReg s 0x2 = some 0x03#32) ∧
    (s.sys.errcode = some .scope → readReg s 0x2 = some 0x04#32) ∧ (s.sys.errcode = some .block → readReg s 0x2 = some 0x05#32) ∧
    (s.sys.errcode = some .cfg → readReg s 0x2 = some 0x06#32) ∧ (s.sys.errcode = some .dlRange → readReg s 0x2 = some 0x07#32) ∧
    (s.sys.errcode = some .coef → readReg s 0x2 = some 0x08#32) ∧ (s.sys.errcode = some .addr → readReg s 0x2 = some 0x09#32) ∧
    readReg s 0x3 = some s.sys.errcmd ∧
    readReg s 0x4 = some s.sys.srate ∧ readReg s 0x5 = some s.sys.maxblk ∧ readReg s 0x6 = some s.sys.blklen ∧
    readReg s 0x7 = some s.dl.cap ∧ readReg s 0x8 = some s.st.cfg ∧ readReg s 0x9 = some s.st.n ∧
    readReg s 0xA = some s.st.hop ∧ readReg s 0xB = some s.st.scale ∧
    readReg s 0xC = some (caps0 s.params) ∧ readReg s 0xD = some (caps1 s.params) ∧
    (∀ ch < s.params.nch,
      readReg s (0x10 + ch) = some (s.delayChan ch).widx ∧ readReg s (0x20 + ch) = some (s.stftChan ch).inw ∧
      readReg s (0x30 + ch) = some (s.stftChan ch).ord ∧ readReg s (0x40 + ch) = some (s.stftChan ch).owr ∧
      readReg s (0x50 + ch) = some (s.stftChan ch).cnt) ∧
    (∀ i < s.params.nsp,
      readReg s (0x1000 + 8 * i) = some (s.smoother i).cur ∧ readReg s (0x1000 + 8 * i + 1) = some (s.smoother i).tgt ∧
      readReg s (0x1000 + 8 * i + 2) = some (s.smoother i).step ∧ readReg s (0x1000 + 8 * i + 3) = some (s.smoother i).rem ∧
      readReg s (0x1000 + 8 * i + 4) = some (s.smoother i).rampLen) ∧
    (∀ f < s.params.nbq,
      readReg s (0x2000 + 8 * f) = some (s.filter f).coeffs.b0 ∧ readReg s (0x2000 + 8 * f + 1) = some (s.filter f).coeffs.b1 ∧
      readReg s (0x2000 + 8 * f + 2) = some (s.filter f).coeffs.b2 ∧ readReg s (0x2000 + 8 * f + 3) = some 0x3F800000#32 ∧
      readReg s (0x2000 + 8 * f + 4) = some (s.filter f).coeffs.a1 ∧ readReg s (0x2000 + 8 * f + 5) = some (s.filter f).coeffs.a2) ∧
    (∀ f < s.params.nbq, ∀ ch < s.params.nch,
      readReg s (0x4000 + 128 * f + 8 * ch) = some ((s.filter f).chan ch).s1 ∧
      readReg s (0x4000 + 128 * f + 8 * ch + 1) = some ((s.filter f).chan ch).s2 ∧
      readReg s (0x4000 + 128 * f + 8 * ch + 2) = some ((s.filter f).chan ch).x1 ∧
      readReg s (0x4000 + 128 * f + 8 * ch + 3) = some ((s.filter f).chan ch).x2 ∧
      readReg s (0x4000 + 128 * f + 8 * ch + 4) = some ((s.filter f).chan ch).y1 ∧
      readReg s (0x4000 + 128 * f + 8 * ch + 5) = some ((s.filter f).chan ch).y2)

/-- 10_state.md R33: every other address is unmapped. -/
def Obligations.RegisterMapHasNoOthers : Prop :=
  ∀ (s : State) (a : Nat), s.params.InRange → (readReg s a).isSome = true →
    a ≤ 0xD ∨ (∃ row < 5, ∃ ch < s.params.nch, a = 0x10 + 16 * row + ch) ∨
    (∃ i < s.params.nsp, ∃ k < 5, a = 0x1000 + 8 * i + k) ∨ (∃ f < s.params.nbq, ∃ k < 6, a = 0x2000 + 8 * f + k) ∨
    (∃ f < s.params.nbq, ∃ ch < s.params.nch, ∃ k < 6, a = 0x4000 + 128 * f + 8 * ch + k)

/-- 10_state.md R40, R35: registers `0x000C` and `0x000D` hold `CAPS0` and `CAPS1`, whose fields report the parameters and
whose other bits are zero, and no command changes them; register `0x0001` holds `STATUS` with the fields of R35: `LOCK` is 0 when
the scope is free, 1 when port A and 2 when port C owns it (R36), `ERRPORT` is 0 for port A and 1 for port C (R37). -/
def Obligations.StatusAndCapsFields : Prop :=
  (∀ (s : State), s.params.InRange → ∃ c0 c1 : Word, readReg s 0xC = some c0 ∧ readReg s 0xD = some c1 ∧
    (c0.extractLsb' 0 5).toNat = s.params.nch ∧ (c0.extractLsb' 5 3).toNat = 0 ∧
    (c0.extractLsb' 8 9).toNat = s.params.nsp ∧ (c0.extractLsb' 17 3).toNat = 0 ∧
    (c0.extractLsb' 20 9).toNat = s.params.nbq ∧ (c0.extractLsb' 29 3).toNat = 0 ∧
    (c1.extractLsb' 0 24).toNat = s.params.dlcapMax ∧ (c1.extractLsb' 24 4).toNat = s.params.fftMaxLog2 ∧
    (c1.extractLsb' 28 4).toNat = 0) ∧
  (∀ (s t : State) (i : Instr), exec i s = .next t → readReg t 0xC = readReg s 0xC ∧ readReg t 0xD = readReg s 0xD) ∧
  (∀ (s : State), ∃ w : Word, readReg s 0x1 = some w ∧ w.getLsbD 0 = s.sys.prepared ∧ w.getLsbD 1 = s.sys.fault ∧
    (s.sys.lock = none → (w.extractLsb' 2 2).toNat = 0) ∧ (s.sys.lock = some .audio → (w.extractLsb' 2 2).toNat = 1) ∧
    (s.sys.lock = some .control → (w.extractLsb' 2 2).toNat = 2) ∧
    (s.sys.errport = .audio → (w.extractLsb' 4 1).toNat = 0) ∧ (s.sys.errport = .control → (w.extractLsb' 4 1).toNat = 1) ∧
    (w.extractLsb' 5 27).toNat = 0)

/-- 40_sys.md R153, 60_exceptions.md R333: `SYS.RDMEM` answers the memory word below the current length of the space and
faults with `E_ADDR` elsewhere, and for `WINTAB` with `CH ≠ 0`. -/
def Obligations.RdmemReadsMemory : Prop :=
  ∀ (s : State) (ch : Nat) (space : Space) (addr : Word), s.params.InRange → s.Ready → ch < s.params.nch →
    (addr.toNat < (if space = .dlmem then s.dl.cap.toNat else s.st.n.toNat) ∧ (space = .wintab → ch = 0) →
      exec (.sysRdmem ch space addr) s = .next (answered s 0#32 (s.memRead space ch addr.toNat))) ∧
    (¬ (addr.toNat < (if space = .dlmem then s.dl.cap.toNat else s.st.n.toNat) ∧ (space = .wintab → ch = 0)) →
      exec (.sysRdmem ch space addr) s = .next (faulted s .addr (0x06000000#32 + BitVec.ofNat 32 (ch * 2 ^ 12 + space.code))))

/-! Unit SP. -/

/-- 41_smoothed_parameter.md R172: `SP.CONFIG` sets the ramp length and finishes a running ramp at its target; `RAMP = 0`. -/
def Obligations.SpConfigSetsRampLength : Prop :=
  ∀ (s : State) (i : Nat) (n : Word), s.Ready → i < s.params.nsp →
    exec (.spConfig i n) s = .next (answered
      { s with sp := s.sp.set i ⟨(s.smoother i).tgt, (s.smoother i).tgt, 0#32, 0#32, n⟩ } 0#32 0#32)

/-- 41_smoothed_parameter.md R173: `SP.SETTGT` jumps when `RAMPLEN = 0`, else schedules a full ramp from the current value
with `STEP = (v − CUR) / RAMPLEN` and `RAMP = 1`. -/
def Obligations.SpSettgtSchedulesRamp : Prop :=
  ∀ (s : State) (i : Nat) (v : Word), s.Ready → i < s.params.nsp →
    ((s.smoother i).rampLen = 0#32 →
      exec (.spSettgt i v) s = .next (answered { s with sp := s.sp.set i ⟨v, v, 0#32, 0#32, 0#32⟩ } 0#32 0#32)) ∧
    ((s.smoother i).rampLen ≠ 0#32 →
      exec (.spSettgt i v) s = .next (answered
        { s with sp := s.sp.set i ⟨(s.smoother i).cur, v,
            s.params.impl.num.fdiv (s.params.impl.num.fsub v (s.smoother i).cur)
              (s.params.impl.num.u2f (s.smoother i).rampLen.toNat),
            (s.smoother i).rampLen, (s.smoother i).rampLen⟩ } 0x400#32 0#32))

/-- 41_smoothed_parameter.md R174: `SP.ADV` adds `STEP`, lands on `TGT` in the last step, does nothing after the ramp, and
answers the value after the step with `RAMP = (REM ≠ 0)`. -/
def Obligations.SpAdvStepsRamp : Prop :=
  ∀ (s : State) (i : Nat), s.Ready → s.sp.length = s.params.nsp → i < s.params.nsp →
    ((s.smoother i).rem = 0#32 → exec (.spAdv i) s = .next (answered s 0#32 (s.smoother i).cur)) ∧
    ((s.smoother i).rem = 1#32 →
      exec (.spAdv i) s = .next (answered
        { s with sp := s.sp.set i { s.smoother i with rem := 0#32, cur := (s.smoother i).tgt } } 0#32 (s.smoother i).tgt)) ∧
    (2 ≤ (s.smoother i).rem.toNat →
      exec (.spAdv i) s = .next (answered
        { s with sp := s.sp.set i { s.smoother i with
            rem := (s.smoother i).rem - 1#32, cur := s.params.impl.num.fadd (s.smoother i).cur (s.smoother i).step } }
        0x400#32 (s.params.impl.num.fadd (s.smoother i).cur (s.smoother i).step)))

/-- 41_smoothed_parameter.md R175: `SP.SNAP` answers `CUR` and the flag `RAMP` and changes nothing. -/
def Obligations.SpSnapReadsCurrent : Prop :=
  ∀ (s : State) (i : Nat), s.Ready → i < s.params.nsp →
    exec (.spSnap i) s =
      .next (answered s (if (s.smoother i).rem = 0#32 then 0#32 else 0x400#32) (s.smoother i).cur)

/-- 41_smoothed_parameter.md R176: after `SP.SETTGT v` and exactly `N` `SP.ADV`, whatever other commands of either port
come between (none that writes the smoother otherwise, and none that leaves a fault), `CUR` holds `v` bit for bit and
`REM = 0`; after `k < N` steps `CUR` is the starting value with `STEP` added `k` times. -/
def Obligations.RampConvergesExactly : Prop :=
  ∀ (s t t' : State) (p : Port) (i : Nat) (v : Word) (is : List (Port × Instr)), s.Ready → i < s.params.nsp →
    s.sp.length = s.params.nsp → let N := s.params.impl.num
    issueAll [(p, .spSettgt i v)] s = .next t → (∀ c ∈ is, setsSmoother i c.2 = false) →
    issueAll is t = .next t' → t'.sys.fault = false →
    ((is.map Prod.snd).count (.spAdv i) = (s.smoother i).rampLen.toNat → (t'.smoother i).cur = v ∧ (t'.smoother i).rem = 0#32) ∧
    ((is.map Prod.snd).count (.spAdv i) < (s.smoother i).rampLen.toNat →
      (t'.smoother i).cur =
        (fun c => N.fadd c (N.fdiv (N.fsub v (s.smoother i).cur) (N.u2f (s.smoother i).rampLen.toNat)))^[(is.map Prod.snd).count (.spAdv i)]
          (s.smoother i).cur)

/-! Unit DL. -/

/-- 42_delay_line.md R191: `DL.WRITE` stores its operand at the cursor of its channel, unchanged, and advances that cursor. -/
def Obligations.DlWriteStoresAtCursor : Prop :=
  ∀ (s : State) (ch : Nat) (x : Word), s.Inv → s.Ready → s.OwnsScope → ch < s.params.nch →
    ∃ t, exec (.dlWrite ch x) s = .next t ∧
      StoredAt s t .dlmem ch (s.delayChan ch).widx.toNat x ∧
      (t.delayChan ch).widx.toNat = ((s.delayChan ch).widx.toNat + 1) % s.dl.cap.toNat ∧
      (∀ c, c ≠ ch → t.delayChan c = s.delayChan c) ∧
      t = { s with dl := t.dl, ports := s.ports.send ⟨0#32, 0#32⟩ } ∧ t.dl.cap = s.dl.cap

/-- 42_delay_line.md R192: `DL.ADV` advances the cursor of its channel and stores nothing. -/
def Obligations.DlAdvMovesCursor : Prop :=
  ∀ (s : State) (ch : Nat), s.Inv → s.Ready → s.OwnsScope → ch < s.params.nch →
    ∃ t, exec (.dlAdv ch) s = .next t ∧ SameMemory s t ∧
      (t.delayChan ch).widx.toNat = ((s.delayChan ch).widx.toNat + 1) % s.dl.cap.toNat ∧
      (∀ c, c ≠ ch → t.delayChan c = s.delayChan c) ∧
      t = { s with dl := t.dl, ports := s.ports.send ⟨0#32, 0#32⟩ } ∧ t.dl.cap = s.dl.cap

/-- 42_delay_line.md R194 to R199: the three reads of a legal delay. With `r`, `i1` and `fr` computed as R194 and R195
say, a read with `i1 = WIDX` answers `ZD = 1` and some word (a free value, log entry 5), and every other read answers the
value of its mode; nothing is stored. -/
def Obligations.DelayReadsInterpolate : Prop :=
  ∀ (s : State) (ch : Nat) (d : Word), s.Ready → s.OwnsScope → ch < s.params.nch →
    let N := s.params.impl.num
    2 ≤ s.dl.cap.toNat → N.isnan d = false → N.fle N.zero d = true → N.fle d (N.u2f (s.dl.cap.toNat - 2)) = true →
    let cap := s.dl.cap.toNat
    let w := (s.delayChan ch).widx.toNat
    let r := N.fmod (N.fadd (N.fsub (N.u2f w) d) (N.u2f cap)) (N.u2f cap)
    let i1 := N.ffloorU r
    let fr := N.fsub r (N.u2f i1)
    let s0 := s.memRead .dlmem ch ((i1 + cap - 1) % cap)
    let s1 := s.memRead .dlmem ch i1
    let s2 := s.memRead .dlmem ch ((i1 + 1) % cap)
    let s3 := s.memRead .dlmem ch ((i1 + 2) % cap)
    let f2 := N.fmul fr fr
    let f3 := N.fmul f2 fr
    let a0 := N.fadd (N.fsub (N.fadd (N.fmul N.negHalf s0) (N.fmul N.threeHalves s1)) (N.fmul N.threeHalves s2)) (N.fmul N.half s3)
    let a1 := N.fsub (N.fadd (N.fsub s0 (N.fmul N.fiveHalves s1)) (N.fmul N.two s2)) (N.fmul N.half s3)
    let a2 := N.fadd (N.fmul N.negHalf s0) (N.fmul N.half s2)
    (i1 = w → ∀ i ∈ [Instr.dlRdn ch d, .dlRdl ch d, .dlRdc ch d], ∃ v free,
      exec i s = .next { answered s 0x100#32 v with free := free }) ∧
    (i1 ≠ w →
      exec (.dlRdn ch d) s = .next (answered s 0#32 (if N.flt fr N.half then s1 else s2)) ∧
      exec (.dlRdl ch d) s = .next (answered s 0#32
        (if N.feq fr N.zero then s1 else N.fadd s1 (N.fmul fr (N.fsub s2 s1)))) ∧
      exec (.dlRdc ch d) s = .next (answered s 0#32
        (if N.feq fr N.zero then s1 else N.fadd (N.fadd (N.fadd (N.fmul a0 f3) (N.fmul a1 f2)) (N.fmul a2 fr)) s1)))

/-- 60_exceptions.md R327, 42_delay_line.md R193: a delay that is a NaN, negative or above `DLCAP − 2`, or any delay with
`DLCAP < 2`, is `E_DL_RANGE` in all three reads. -/
def Obligations.IllegalDelayFaults : Prop :=
  ∀ (s : State) (ch : Nat) (d : Word), s.params.InRange → s.Ready → s.OwnsScope → ch < s.params.nch →
    (s.dl.cap.toNat < 2 ∨ s.params.impl.num.isnan d = true ∨ s.params.impl.num.fle s.params.impl.num.zero d = false ∨
      s.params.impl.num.fle d (s.params.impl.num.u2f (s.dl.cap.toNat - 2)) = false) →
    exec (.dlRdn ch d) s = .next (faulted s .dlRange (0x24000000#32 + BitVec.ofNat 32 (ch * 2 ^ 12))) ∧
    exec (.dlRdl ch d) s = .next (faulted s .dlRange (0x25000000#32 + BitVec.ofNat 32 (ch * 2 ^ 12))) ∧
    exec (.dlRdc ch d) s = .next (faulted s .dlRange (0x26000000#32 + BitVec.ofNat 32 (ch * 2 ^ 12)))

/-- 42_delay_line.md R194, R195, R196: for a legal delay, in the default numerics, the position lies in the buffer, the fraction is exact and in
`[0, 1)`, the index is below `DLCAP`, and the read is a zero-delay read exactly when `p2 = u2f(w + DLCAP)`. -/
def Obligations.ReadPositionInBuffer : Prop :=
  ∀ (cap w : Nat) (d : Word), 2 ≤ cap → cap ≤ 2 ^ 23 → w < cap → isNaN d = false → fle 0#32 d = true →
    fle d (u2f (cap - 2)) = true →
    let p2 := fadd (fsub (u2f w) d) (u2f cap)
    let r := fmod p2 (u2f cap)
    2 ≤ value p2 ∧ value p2 ≤ 2 * cap - 1 ∧ 0 ≤ value r ∧ value r < cap ∧
      ffloorU r < cap ∧ value (fsub r (u2f (ffloorU r))) = value r - ffloorU r ∧
      0 ≤ value (fsub r (u2f (ffloorU r))) ∧ value (fsub r (u2f (ffloorU r))) < 1 ∧
      (ffloorU r = w ↔ p2 = u2f (w + cap))

/-- 42_delay_line.md R200: for an integer `D` with `1 ≤ D ≤ DLCAP − 2` each read returns, bit for bit, the word at
`(WIDX + DLCAP − D) mod DLCAP` with `ZD = 0`; `D = 0` gives `ZD = 1`. For every device with the default `Num`
(45_numerics_fft_window.md R280), whatever its `FFT` and `WROM`. -/
def Obligations.IntegerDelayIsBitExact : Prop :=
  ∀ (s : State) (ch D : Nat), s.params.impl.num = binary32 → s.Inv → s.Ready → s.OwnsScope → ch < s.params.nch → D + 2 ≤ s.dl.cap.toNat →
    ∀ i ∈ [Instr.dlRdn ch (u2f D), .dlRdl ch (u2f D), .dlRdc ch (u2f D)],
      (1 ≤ D → exec i s = .next (answered s 0#32
        (s.memRead .dlmem ch (((s.delayChan ch).widx.toNat + s.dl.cap.toNat - D) % s.dl.cap.toNat)))) ∧
      (D = 0 → ∃ v free, exec i s = .next { answered s 0x100#32 v with free := free })

/-- 42_delay_line.md R190, R200, 20_memory.md R84: after a run of writes on a channel, a read with the integer delay `k`
returns, bit for bit, the sample stored by the `k`-th last write. For every device with the default `Num`, whatever its `FFT`
and `WROM`. -/
def Obligations.DelayReturnsPastSample : Prop :=
  ∀ (s : State) (ch : Nat) (xs : List Word) (k : Nat), s.params.impl.num = binary32 → s.Inv → s.Ready → s.OwnsScope → ch < s.params.nch →
    1 ≤ k → k + 2 ≤ s.dl.cap.toNat → k ≤ xs.length →
    ∃ t, execAll (xs.map (Instr.dlWrite ch)) s = .next t ∧
      ∀ i ∈ [Instr.dlRdn ch (u2f k), .dlRdl ch (u2f k), .dlRdc ch (u2f k)],
        exec i t = .next (answered t 0#32 (xs.getD (xs.length - k) 0#32))

/-- 42_delay_line.md R201: in exact arithmetic the linear and the cubic read are continuous in the fraction, start at `s1`
and reach at fraction 1 the value `s2` that the next position has at fraction 0. -/
def Obligations.InterpolationIsContinuous : Prop :=
  ∀ (N : Num ℝ), Exact N → ∀ (s0 s1 s2 s3 : ℝ),
    Continuous (fun fr => linearSample N fr s1 s2) ∧ linearSample N 0 s1 s2 = s1 ∧ linearSample N 1 s1 s2 = s2 ∧
    Continuous (fun fr => cubicSample N fr s0 s1 s2 s3) ∧ cubicSample N 0 s0 s1 s2 s3 = s1 ∧
    cubicSample N 1 s0 s1 s2 s3 = s2

/-! Unit BQ. -/

/-- 43_biquad.md R223, 60_exceptions.md R330: `BQ.LOAD` stores the five quotients by `a0` and `A0 = 1` and leaves the channel
states; `a0` zero, infinite or NaN is `E_COEF`. -/
def Obligations.BqLoadNormalises : Prop :=
  ∀ (s : State) (f : Nat) (b0 b1 b2 a0 a1 a2 : Word), s.params.InRange → s.Ready → s.NotLockedOut →
    f < s.params.nbq → let N := s.params.impl.num
    (N.isnan a0 = false ∧ N.isfinite a0 = true ∧ N.feq a0 N.zero = false →
      exec (.bqLoad f b0 b1 b2 a0 a1 a2) s = .next (answered
        { s with bq := s.bq.set f { s.filter f with
            coeffs := ⟨N.fdiv b0 a0, N.fdiv b1 a0, N.fdiv b2 a0, 0x3F800000#32, N.fdiv a1 a0, N.fdiv a2 a0⟩ } } 0#32 0#32)) ∧
    (N.isnan a0 = true ∨ N.isfinite a0 = false ∨ N.feq a0 N.zero = true →
      exec (.bqLoad f b0 b1 b2 a0 a1 a2) s =
        .next (faulted s .coef (0x30000000#32 + BitVec.ofNat 32 (f * 2 ^ 16))))

/-- 43_biquad.md R223 (c): `fdiv(v, 1.0) = v` for every `v` that is no NaN, so normalised coefficients are stored unchanged. -/
def Obligations.DivisionByOneIsIdentity : Prop := ∀ (v : Word), isNaN v = false → fdiv v 0x3F800000#32 = v

/-- 43_biquad.md R224: `BQ.STEP` computes the transposed direct form II on the state of its filter and channel, in the
nesting of the rule, updates that state and answers `y`. -/
def Obligations.BqStepRunsRecurrence : Prop :=
  ∀ (s : State) (f ch : Nat) (x : Word), s.Ready → s.OwnsScope → f < s.params.nbq → ch < s.params.nch →
    let N := s.params.impl.num
    let c := (s.filter f).coeffs
    let h := (s.filter f).chan ch
    let y := N.fadd (N.fmul c.b0 x) h.s1
    let h' : History Word :=
      ⟨N.fadd (N.fsub (N.fmul c.b1 x) (N.fmul c.a1 y)) h.s2, N.fsub (N.fmul c.b2 x) (N.fmul c.a2 y), x, h.x1, y, h.y1⟩
    exec (.bqStep f ch x) s = .next (answered
      { s with bq := s.bq.set f { s.filter f with chans := (s.filter f).chans.set ch h' } } 0#32 y)

/-- 43_biquad.md R225: `BQ.CLEAR` zeroes the state of its filter on every channel and leaves the coefficients. -/
def Obligations.BqClearZeroesState : Prop :=
  ∀ (s : State) (f : Nat), s.Inv → s.Ready → s.NotLockedOut → f < s.params.nbq →
    exec (.bqClear f) s = .next (answered
      { s with bq := s.bq.set f ⟨(s.filter f).coeffs,
          List.replicate s.params.nch ⟨0#32, 0#32, 0#32, 0#32, 0#32, 0#32⟩⟩ } 0#32 0#32)

/-- 43_biquad.md R220, R227: in exact arithmetic a filter started from a cleared state realises the second-order section, and
its two state words are the stated combinations of the last two inputs and outputs. -/
def Obligations.BiquadRealisesSection : Prop :=
  ∀ (N : Num ℚ), Exact N → ∀ (c : Coeffs ℚ) (x : Nat → ℚ),
    (∀ n, outputAt N c x (n + 2) =
      c.b0 * x (n + 2) + c.b1 * x (n + 1) + c.b2 * x n - c.a1 * outputAt N c x (n + 1) - c.a2 * outputAt N c x n) ∧
    outputAt N c x 0 = c.b0 * x 0 ∧ outputAt N c x 1 = c.b0 * x 1 + c.b1 * x 0 - c.a1 * outputAt N c x 0 ∧
    (∀ n, let h := historyAt N c x n
      h.s1 = c.b1 * h.x1 + c.b2 * h.x2 - c.a1 * h.y1 - c.a2 * h.y2 ∧ h.s2 = c.b2 * h.x1 - c.a2 * h.y1)

/-! Unit ST. -/

/-- 44_stft.md R243, R244, R245: `ST.CONFIG` with a legal configuration stores it and re-initialises unit ST; nothing
else changes (that words at or above the new length keep what they held is the model's choice, log entry 3). -/
def Obligations.StConfigReinitialises : Prop :=
  ∀ (s : State) (l h : Nat) (win : Window) (mod : ModSel), s.Inv → s.Ready → s.NotLockedOut →
    2 ≤ l → l ≤ s.params.fftMaxLog2 → 1 ≤ h → h ≤ 3 → h ≤ l →
    ∃ t, exec (.stConfig l h win mod) s = .next t ∧
      Reinitialised s.params.impl (BitVec.ofNat 32 (mod.code * 256 + win.code * 64 + h * 16 + l)) s t ∧
      fftLog2Field t.st.cfg = l ∧ hopLog2Field t.st.cfg = h ∧ winField t.st.cfg = win ∧ modField t.st.cfg = mod ∧
      t = { s with st := t.st, ports := s.ports.send ⟨0#32, 0#32⟩ }

/-- 44_stft.md R246, R247: an `ST.PUSH` that does not complete a hop stores the sample, answers the output word, clears
it, and advances the cursors and the counter of its channel; `FRAME = 0`. -/
def Obligations.PushBetweenFrames : Prop :=
  ∀ (s : State) (ch : Nat) (x : Word), s.Inv → s.Ready → s.OwnsScope → ch < s.params.nch →
    (s.stftChan ch).cnt.toNat + 1 < s.st.hop.toNat →
    ∃ t, exec (.stPush ch x) s = .next t ∧
      t = { s with st := { s.st with chans := s.st.chans.set ch (shifted s ch x) },
                   ports := s.ports.send ⟨0#32, (s.stftChan ch).outr.read (s.stftChan ch).ord.toNat⟩ } ∧
      t.memRead .inr ch (s.stftChan ch).inw.toNat = x ∧ t.memRead .outr ch (s.stftChan ch).ord.toNat = 0#32 ∧
      (∀ space ch' a, ¬ (space = .inr ∧ ch' = ch ∧ a = (s.stftChan ch).inw.toNat) →
        ¬ (space = .outr ∧ ch' = ch ∧ a = (s.stftChan ch).ord.toNat) → t.memRead space ch' a = s.memRead space ch' a)

/-- 44_stft.md R247 to R250, R253: an `ST.PUSH` that completes a hop, with the identity modification, also runs a frame:
the windowed copy is transformed forth and back, the scaled real parts are added into the output ring, the output cursor
advances by the hop size; `FRAME = 1`, and the answer is the word read before the frame. -/
def Obligations.PushRunsIdentityFrame : Prop :=
  ∀ (s : State) (ch : Nat) (x : Word), s.Inv → s.Ready → s.OwnsScope → ch < s.params.nch →
    s.st.hop.toNat ≤ (s.stftChan ch).cnt.toNat + 1 → modField s.st.cfg = .identity →
    ∃ t, exec (.stPush ch x) s = .next t ∧
      FrameRan s t ch x (s.params.impl.fft.forward (fftLog2Field s.st.cfg) (analysed s (shifted s ch x))) ∧
      t.ports = s.ports.send ⟨0x200#32, (s.stftChan ch).outr.read (s.stftChan ch).ord.toNat⟩ ∧ t.free = s.free

/-- 44_stft.md R252: with `MODSEL = 1` the same push hands the spectrum to the agent; for whatever `N` bins the agent
answers, the frame goes on with them; if the agent never answers the command hangs (the model's stop, log entry 6). -/
def Obligations.PushRunsAgentFrame : Prop :=
  ∀ (s : State) (ch : Nat) (x : Word), s.Inv → s.Ready → s.OwnsScope → ch < s.params.nch →
    s.st.hop.toNat ≤ (s.stftChan ch).cnt.toNat + 1 → modField s.st.cfg = .external →
    let spectrum := s.params.impl.fft.forward (fftLog2Field s.st.cfg) (analysed s (shifted s ch x))
    (Config.modAnswers s.free.mods ch spectrum = true →
      ∃ t, exec (.stPush ch x) s = .next t ∧
        FrameRan s t ch x ((List.range s.st.n.toNat).map (Config.modBin s.free.mods ch spectrum)) ∧
        t.ports = s.ports.send ⟨0x200#32, (s.stftChan ch).outr.read (s.stftChan ch).ord.toNat⟩) ∧
    (Config.modAnswers s.free.mods ch spectrum = false → exec (.stPush ch x) s = .fault .modNeverAnswers)

/-- 44_stft.md R247 (c), R255: after a (re)configuration the first `H` pushes on a channel all answer the word zero, the
first `H − 1` of them without a frame. -/
def Obligations.FirstHopIsSilent : Prop :=
  ∀ (s : State) (ch l h : Nat) (win : Window) (mod : ModSel) (xs : List Word), s.Inv → s.Ready → s.OwnsScope →
    ch < s.params.nch → 2 ≤ l → l ≤ s.params.fftMaxLog2 → 1 ≤ h → h ≤ 3 → h ≤ l → xs.length < 2 ^ l / 2 ^ h →
    ∃ t, execAll (.stConfig l h win mod :: xs.map (Instr.stPush ch)) s = .next t ∧
      (t.ports.port s.ports.cur).sent = (s.ports.port s.ports.cur).sent ++ List.replicate (xs.length + 1) ⟨0#32, 0#32⟩ ∧
      (∀ x t', exec (.stPush ch x) t = .next t' → ∃ status,
        (t'.ports.port s.ports.cur).sent = (t.ports.port s.ports.cur).sent ++ [⟨status, 0#32⟩])

/-- 44_stft.md R257: a push reads and writes only its own channel of unit ST and reads the shared configuration: on two
states that agree there, of devices with the same implementation, it leaves the same channel and sends the same response; and pushes on different channels
commute, but for the order of their responses. Stated for the identity modification: the agent's answers are free. -/
def Obligations.ChannelsAreIndependent : Prop :=
  (∀ (s s' t t' : State) (ch : Nat) (x : Word), s.Ready → s'.Ready → s.OwnsScope → s'.OwnsScope →
    s.Inv → s'.Inv → ch < s.params.nch → ch < s'.params.nch → modField s.st.cfg = .identity →
    s.params.impl = s'.params.impl → { s.st with chans := [] } = { s'.st with chans := [] } → s.stftChan ch = s'.stftChan ch →
    exec (.stPush ch x) s = .next t → exec (.stPush ch x) s' = .next t' →
    t.stftChan ch = t'.stftChan ch ∧ (∃ r, t.ports = s.ports.send r ∧ t'.ports = s'.ports.send r) ∧
    (∀ c, c ≠ ch → t.stftChan c = s.stftChan c)) ∧
  (∀ (s : State) (c d : Nat) (x y : Word), s.Ready → s.OwnsScope → s.Inv → c < s.params.nch → d < s.params.nch → c ≠ d →
    modField s.st.cfg = .identity →
    ∃ t t', execAll [.stPush c x, .stPush d y] s = .next t ∧ execAll [.stPush d y, .stPush c x] s = .next t' ∧
      { t with ports := s.ports } = { t' with ports := s.ports } ∧
      ∃ r r', t.ports = (s.ports.send r).send r' ∧ t'.ports = (s.ports.send r').send r)

/-! Numerics. -/

/-- 45_numerics_fft_window.md R280 to R285: a device built by default computes in this numerics record: the four arithmetic
primitives return the correctly rounded word of the exact result on finite operands (a non-zero divisor); zero results have the
signs of R282, and so have products and quotients; infinities are results where R282 says so; a NaN operand and an invalid
operation give `0x7FC00000`, and `fneg` flips bit 31; the comparisons are quiet and compare values. -/
def Obligations.ArithmeticIsCorrectlyRounded : Prop :=
  (∀ (p : Params), p.build = .standard → IsDefaultNum p.impl.num) ∧
  (∀ (w : Word), HasFormat w) ∧
  (∀ (a b : Word), isFinite a = true → isFinite b = true →
    Rounded (fadd a b) (value a + value b) ∧ Rounded (fsub a b) (value a - value b) ∧
    Rounded (fmul a b) (value a * value b) ∧ (value b ≠ 0 → Rounded (fdiv a b) (value a / value b))) ∧
  (∀ (a b : Word), SpecialResults a b ∧ CanonicalNaN a b ∧ Compares a b)

/-- 45_numerics_fft_window.md R286, R287, R288: `u2f` rounds an integer to nearest and is exact up to 2^24 and for every
integer of at most 24 significant bits, `ffloor_u` is the floor, and `fmod` is the exact remainder, never rounded, with
sign + and below its divisor. -/
def Obligations.ConversionsAreExact : Prop :=
  (∀ n : Nat, n < 2 ^ 32 → Rounded (u2f n) n ∧ isFinite (u2f n) = true) ∧
  (∀ n : Nat, n ≤ 2 ^ 24 → value (u2f n) = n) ∧
  (∀ m k : Nat, m < 2 ^ 24 → m * 2 ^ k < 2 ^ 32 → value (u2f (m * 2 ^ k)) = m * 2 ^ k) ∧
  (∀ a : Word, isFinite a = true → 0 ≤ value a → value a < 2 ^ 31 → ffloorU a = ⌊value a⌋) ∧
  (∀ a b : Word, isFinite a = true → isFinite b = true → 0 ≤ value a → 0 < value b →
    isFinite (fmod a b) = true ∧ signBit (fmod a b) = false ∧
    value (fmod a b) = value a - value b * ⌊value a / value b⌋ ∧ value (fmod a b) < value b)

/-- 45_numerics_fft_window.md R291, R292: on a device built by default the rectangular and the Bartlett window words hold the real
values exactly. -/
def Obligations.BartlettWindowIsExact : Prop :=
  ∀ (p : Params) (l j : Nat), p.build = .standard → 2 ≤ l → l ≤ 15 → j < 2 ^ l →
    p.impl.wrom .rectangular l j = 0x3F800000#32 ∧ isFinite (p.impl.wrom .bartlett l j) = true ∧
    value (p.impl.wrom .bartlett l j) = 1 - |2 * (j : ℚ) / 2 ^ l - 1|

/-- 45_numerics_fft_window.md R296, R297, R300, R301, 44_stft.md R249: the transform pair of a device built by default is the
radix-2 pair, run in its `Num` and twiddle ROM; over exact numerics and exact twiddle factors that pair is the discrete Fourier
transform, and the inverse gives the sequence back; and a frame run over exact numerics and any pair whose inverse gives the
sequence back, with the identity modification, leaves in the real part of buffer element `j` the product of window word `j` and
element `j`. -/
def Obligations.Radix2IsFourierTransform : Prop :=
  (∀ (p : Params), p.build = .standard → p.impl.fft.forward = fftForward p.impl.num twiddleRom ∧
    p.impl.fft.inverse = fftInverse p.impl.num twiddleRom) ∧
  (∀ (N : Num ℝ) (tw : Twiddles ℝ) (l : Nat) (a : List (Cpx ℝ)), Exact N →
    (∀ k, tw.cosine l k = Real.cos (2 * Real.pi * k / 2 ^ l)) → (∀ k, tw.sine l k = Real.sin (2 * Real.pi * k / 2 ^ l)) →
    a.length = 2 ^ l →
    (∀ k < 2 ^ l, toComplex ((fftForward N tw l a).getD k ⟨0, 0⟩) =
      ∑ j ∈ Finset.range (2 ^ l),
        toComplex (a.getD j ⟨0, 0⟩) * Complex.exp (-2 * Real.pi * Complex.I * (j * k) / 2 ^ l)) ∧
    fftInverse N tw l (fftForward N tw l a) = a) ∧
  (∀ (I : Impl ℝ) (l inw : Nat) (wintab inr : Nat → ℝ), Exact I.num →
    (∀ a, a.length = 2 ^ l → I.fft.inverse l (I.fft.forward l a) = a) →
    ∃ fb, transformed I l some (analysisFrame I.num (2 ^ l) inw wintab inr) = some fb ∧
      ∀ j < 2 ^ l, (fb.getD j ⟨0, 0⟩).re = wintab j * inr ((inw + j) % 2 ^ l))

/-! Faults. -/

/-- 60_exceptions.md R323: while `FAULT = 1` every command but `SYS.RESET`, `SYS.NOP` and `SYS.RDREG`, and every illegal
word, is refused: it is never held, its words are consumed, it answers `0x0000007F`, data 0, and nothing else changes. -/
def Obligations.RefusedWhileFault : Prop :=
  ∀ (s : State) (p : Port), s.sys.fault = true →
    (s.delivered p ≠ .incomplete → s.enabled p = true) ∧
    (∀ i rest, s.choose = some p → s.delivered p = .command i rest → i ≠ .sysReset → i ≠ .sysNop →
      (∀ addr, i ≠ .sysRdreg addr) →
      step s = .next (answered (s.takeCommand p rest) 0x7F#32 0#32) ∧
        ((s.takeCommand p rest).ports.port p).pending = rest ∧ (s.takeCommand p rest).ports.cur = p) ∧
    (∀ w rest, s.choose = some p → s.delivered p = .illegal w rest →
      step s = .next (answered (s.takeCommand p rest) 0x7F#32 0#32) ∧ (s.ports.port p).pending = w :: rest ∧
        ((s.takeCommand p rest).ports.port p).pending = rest ∧ (s.takeCommand p rest).ports.cur = p) ∧
    (∀ rest, { s.takeCommand p rest with ports := s.ports, free := s.free } = s)

/-- 60_exceptions.md R322, R332: a step that meets an illegal word with `FAULT = 0` records `E_ILLEGAL` with that word and the
port it came on; the word takes no operand words. -/
def Obligations.IllegalWordFaults : Prop :=
  ∀ (s : State) (p : Port) (w : Word) (rest : List Word), s.choose = some p → s.delivered p = .illegal w rest →
    s.sys.fault = false →
    step s = .next (faulted (s.takeCommand p rest) .illegal w) ∧ (s.ports.port p).pending = w :: rest ∧
    (s.takeCommand p rest).ports.cur = p ∧ ((s.takeCommand p rest).ports.port p).pending = rest

/-- 60_exceptions.md R326: an instance field out of range for the device is `E_INDEX`, before any other check but the
refusal. -/
def Obligations.IndexOutOfRangeFaults : Prop :=
  ∀ (s : State) (i : Instr), s.sys.fault = false →
    OutOfRange s.params i →
    exec i s = .next (faulted s .index i.commandWord)

/-- 60_exceptions.md R324: before prepare every command but `SYS.NOP`, `SYS.RESET`, `SYS.PREPARE` and `SYS.RDREG` is
`E_NOT_PREPARED` (its instance fields being in range, R331). -/
def Obligations.NotPreparedFaults : Prop :=
  ∀ (s : State) (i : Instr), s.sys.fault = false → s.sys.prepared = false → ¬ OutOfRange s.params i →
    i ≠ .sysNop → i ≠ .sysReset → (∀ srate maxblk cap, i ≠ .sysPrepare srate maxblk cap) → (∀ addr, i ≠ .sysRdreg addr) →
    exec i s = .next (faulted s .notPrepared i.commandWord)

/-- 60_exceptions.md R325: the wrong relation between the issuing port and the owner of the scope is `E_SCOPE`: class P and
`SYS.END` without owning it, `SYS.BEGIN` and `SYS.PREPARE` while owning it. A class R command or `SYS.BEGIN` on a port
whose other port owns the scope does not fault: it is held. -/
def Obligations.ScopeViolationFaults : Prop :=
  ∀ (s : State) (i : Instr), s.Ready → ¬ OutOfRange s.params i →
    ((ClassP i ∨ i = .sysEnd) → ¬ s.OwnsScope → exec i s = .next (faulted s .scope i.commandWord)) ∧
    (((∃ n, i = .sysBegin n) ∨ ∃ srate maxblk cap, i = .sysPrepare srate maxblk cap) → s.OwnsScope →
      exec i s = .next (faulted s .scope i.commandWord)) ∧
    (∀ p rest, (ClassR i ∨ ∃ n, i = .sysBegin n) → s.delivered p = .command i rest →
      s.sys.lock = some p.other → s.enabled p = false)

/-- 60_exceptions.md R329, 44_stft.md R241: an illegal configuration and an illegal delay capacity are `E_CFG`. -/
def Obligations.BadConfigurationFaults : Prop :=
  (∀ (s : State) (l h : Nat) (win : Window) (mod : ModSel), s.Ready → s.NotLockedOut →
    (l < 2 ∨ s.params.fftMaxLog2 < l ∨ h < 1 ∨ 3 < h ∨ l < h) →
    exec (.stConfig l h win mod) s = .next (faulted s .cfg (Instr.stConfig l h win mod).commandWord)) ∧
  (∀ (s : State) (srate maxblk cap : Word), s.sys.fault = false → s.sys.lock = none →
    (cap = 0#32 ∨ s.params.dlcapMax < cap.toNat) →
    exec (.sysPrepare srate maxblk cap) s = .next (faulted s .cfg 0x02000000#32))

/-- 60_exceptions.md R335: a command that faults or is refused, that is one whose response has a non-zero `CODE`, changes
nothing but the four fault registers: no memory word, cursor, counter, coefficient or configuration register. -/
def Obligations.FaultsArePrecise : Prop :=
  (∀ (s t : State) (i : Instr) (r : Response), exec i s = .next t → t.ports = s.ports.send r →
    r.status.extractLsb' 0 8 ≠ 0#8 →
    t = { s with ports := t.ports,
                 sys := { s.sys with fault := t.sys.fault, errcode := t.sys.errcode, errcmd := t.sys.errcmd,
                                     errport := t.sys.errport } }) ∧
  (∀ (s : State) (w : Word), illegalCommand w s =
    { s with ports := (illegalCommand w s).ports,
             sys := { s.sys with fault := true, errcode := (illegalCommand w s).sys.errcode,
                                 errcmd := (illegalCommand w s).sys.errcmd,
                                 errport := (illegalCommand w s).sys.errport } })

/-- 60_exceptions.md R332, R336, 70_reset_and_hazards.md R381: while `FAULT = 1` a step changes nothing but what the ports
still have to deliver and the responses, and so keeps the first fault, unless it executes `SYS.RESET`; only that
command clears `FAULT`. -/
def Obligations.FrozenAfterFault : Prop :=
  ∀ (s t : State), s.sys.fault = true → step s = .next t →
    t = { s with ports := t.ports, free := t.free } ∨
    (t.sys.fault = false ∧ ∃ p rest, s.choose = some p ∧ s.delivered p = .command .sysReset rest)

/-! Whole-machine rules. -/

/-- 60_exceptions.md R334, 44_stft.md R252: `exec` of every command in every state gives a next state, whatever its
operands; the one exception is a push whose frame asks the agent, which may hang (log entry 6). For a command that the rule of
40_sys.md R144 holds on the port being served, that next state is the same state: 30_encoding.md R116 gives it no response until
it executes, and that `exec` says so is the model's choice (log entry 15). No step hands `exec` such a command: the command at the
head of the port a step serves is not held, in the state before it is taken and in the state `exec` is given. -/
def Obligations.OnlyTheAgentCanHang : Prop :=
  (∀ (s : State) (i : Instr), (∃ t, exec i s = .next t) ∨
    (exec i s = .fault .modNeverAnswers ∧ (∃ ch x, i = .stPush ch x) ∧ s.Ready ∧ s.OwnsScope ∧
      modField s.st.cfg = .external)) ∧
  (∀ (s : State) (i : Instr), Held s s.ports.cur i → exec i s = .next s) ∧
  (∀ (s : State) (p : Port) (i : Instr) (rest : List Word), s.choose = some p → s.delivered p = .command i rest →
    ¬ Held s p i ∧ step s = exec i (s.takeCommand p rest) ∧
      ¬ Held (s.takeCommand p rest) (s.takeCommand p rest).ports.cur i)

/-- 10_state.md R35 to R39, R41, R43, R45, R46, R48 to R51: who writes what. A command other than `SYS.RESET` that gives a next
state changes a piece of state only if it is one of the commands its rule names: `PREPARED`, the delay capacity, `SRATE` and
`MAXBLK` `SYS.PREPARE`; the fault registers the first fault; the scope owner `SYS.BEGIN` and `SYS.END`; `BLKLEN` `SYS.PREPARE` and
`SYS.BEGIN`; a smoother its own `SP.CONFIG`, `SP.SETTGT` and `SP.ADV` and `SYS.PREPARE`; a write cursor `DL.WRITE` and `DL.ADV` of its
channel and `SYS.PREPARE`, a delay word all of these but `DL.ADV`; a coefficient `BQ.LOAD` of its filter; a filter state `BQ.STEP` of its
filter and channel, `BQ.CLEAR` of its filter and `SYS.PREPARE`; `STCFG` `ST.CONFIG`; the derived registers and the window table that and
`SYS.PREPARE`; the cursors, the counter and the rings of a channel of unit ST these two and its own `ST.PUSH`; a parameter none. -/
def Obligations.OnlyOwnersWrite : Prop :=
  ∀ (s t : State) (i : Instr), exec i s = .next t → i ≠ .sysReset →
    let prepares := ∃ srate maxblk cap, i = .sysPrepare srate maxblk cap
    let configures := ∃ l h win mod, i = .stConfig l h win mod
    (¬ (t.sys.prepared = s.sys.prepared ∧ t.dl.cap = s.dl.cap ∧ t.sys.srate = s.sys.srate ∧ t.sys.maxblk = s.sys.maxblk) →
      prepares) ∧
    (¬ (t.sys.fault = s.sys.fault ∧ t.sys.errcode = s.sys.errcode ∧ t.sys.errcmd = s.sys.errcmd ∧ t.sys.errport = s.sys.errport) →
      s.sys.fault = false ∧ t.sys.fault = true) ∧
    (t.sys.lock ≠ s.sys.lock → (∃ n, i = .sysBegin n) ∨ i = .sysEnd) ∧
    (t.sys.blklen ≠ s.sys.blklen → prepares ∨ ∃ n, i = .sysBegin n) ∧
    (∀ k, t.smoother k ≠ s.smoother k → (∃ n, i = .spConfig k n) ∨ (∃ v, i = .spSettgt k v) ∨ i = .spAdv k ∨ prepares) ∧
    (∀ ch, (t.delayChan ch).widx ≠ (s.delayChan ch).widx → (∃ x, i = .dlWrite ch x) ∨ i = .dlAdv ch ∨ prepares) ∧
    (∀ ch a, t.memRead .dlmem ch a ≠ s.memRead .dlmem ch a → (∃ x, i = .dlWrite ch x) ∨ prepares) ∧
    (∀ f, (t.filter f).coeffs ≠ (s.filter f).coeffs → ∃ b0 b1 b2 a0 a1 a2, i = .bqLoad f b0 b1 b2 a0 a1 a2) ∧
    (∀ f ch, (t.filter f).chan ch ≠ (s.filter f).chan ch → (∃ x, i = .bqStep f ch x) ∨ i = .bqClear f ∨ prepares) ∧
    (t.st.cfg ≠ s.st.cfg → configures) ∧
    (¬ (t.st.n = s.st.n ∧ t.st.hop = s.st.hop ∧ t.st.scale = s.st.scale ∧ t.st.wintab = s.st.wintab) →
      prepares ∨ configures) ∧
    (∀ ch, t.stftChan ch ≠ s.stftChan ch → (∃ x, i = .stPush ch x) ∨ prepares ∨ configures) ∧
    t.params = s.params

/-- 20_memory.md R88, R91, 40_sys.md R144: inside a port's block scope no step that serves the other port changes a
coefficient, a filter state, the delay line, the configuration or any ring of unit ST, or the scope itself, unless it
executes `SYS.RESET`. -/
def Obligations.ScopeShutsOutOtherPort : Prop :=
  ∀ (s t : State) (p : Port), s.sys.lock = some p → s.choose = some p.other → step s = .next t →
    (∃ rest, s.delivered p.other = .command .sysReset rest) ∨
    (t.bq = s.bq ∧ t.dl = s.dl ∧ t.st = s.st ∧ t.sys.lock = s.sys.lock ∧ t.sys.prepared = s.sys.prepared ∧
      t.sys.blklen = s.sys.blklen ∧ t.params = s.params)

end Statements
end

