-- ==== Sys2Proof/Laws/Numerics.lean ====
section
/-! SUPPORT. The primitives of the default numerics by name, and the implementation of a device built by default. Each is proved for the function and not for its values, and is no definitional rewrite rule, so that rewriting with it never makes the kernel evaluate floating-point arithmetic. -/

namespace Sys2Proof.Machine

@[simp] theorem binary32_fadd : binary32.fadd = fadd := (rfl)
@[simp] theorem binary32_fsub : binary32.fsub = fsub := (rfl)
@[simp] theorem binary32_fmul : binary32.fmul = fmul := (rfl)
@[simp] theorem binary32_fdiv : binary32.fdiv = fdiv := (rfl)
@[simp] theorem binary32_fmod : binary32.fmod = fmod := (rfl)
@[simp] theorem binary32_fneg : binary32.fneg = fneg := (rfl)
@[simp] theorem binary32_flt : binary32.flt = flt := (rfl)
@[simp] theorem binary32_fle : binary32.fle = fle := (rfl)
@[simp] theorem binary32_feq : binary32.feq = feq := (rfl)
@[simp] theorem binary32_isnan : binary32.isnan = isNaN := (rfl)
@[simp] theorem binary32_isfinite : binary32.isfinite = isFinite := (rfl)
@[simp] theorem binary32_u2f : binary32.u2f = u2f := (rfl)
@[simp] theorem binary32_ffloorU : binary32.ffloorU = ffloorU := (rfl)
@[simp] theorem binary32_zero : binary32.zero = 0#32 := (rfl)
@[simp] theorem binary32_half : binary32.half = 0x3F000000#32 := (rfl)
@[simp] theorem binary32_negHalf : binary32.negHalf = 0xBF000000#32 := (rfl)
@[simp] theorem binary32_one : binary32.one = 0x3F800000#32 := (rfl)
@[simp] theorem binary32_threeHalves : binary32.threeHalves = 0x3FC00000#32 := (rfl)
@[simp] theorem binary32_two : binary32.two = 0x40000000#32 := (rfl)
@[simp] theorem binary32_fiveHalves : binary32.fiveHalves = 0x40200000#32 := (rfl)
theorem binary32_pow2neg (l : Nat) : binary32.pow2neg l = roundWord false (2 ^ 149) (2 ^ l) := (rfl)

@[simp] theorem reference_num : reference.num = binary32 := (rfl)
@[simp] theorem reference_fft : reference.fft = radix2 binary32 twiddleRom := (rfl)
@[simp] theorem reference_wrom : reference.wrom = windowRom := (rfl)
@[simp] theorem radix2_forward {α : Type} (N : Num α) (tw : Twiddles α) : (radix2 N tw).forward = fftForward N tw := (rfl)
@[simp] theorem radix2_inverse {α : Type} (N : Num α) (tw : Twiddles α) : (radix2 N tw).inverse = fftInverse N tw := (rfl)

end Sys2Proof.Machine

namespace Sys2Proof

/-- A device built by default computes with the defaults. -/
theorem Params.impl_of_standard {p : Params} (h : p.build = .standard) : p.impl = Machine.reference := by
  rw [Params.impl, h]

/-- Two devices of the same build compute alike. -/
theorem Params.impl_congr {p q : Params} (h : p.build = q.build) : p.impl = q.impl := by
  rw [Params.impl, Params.impl, h]

end Sys2Proof
end

