-- ==== Sys2Proof/Laws/Delay.lean ====
section
/-! SUPPORT. What the read position, the legality test and the three read modes compute, in the numerics of the device; and the three sample formulas in the default numerics. -/

namespace Sys2Proof.Machine

/-- The position of R194. -/
theorem State.delayPosition_eq (s : State) (ch : Nat) (d : Word) :
    s.delayPosition ch d = s.params.impl.num.fmod (s.params.impl.num.fadd (s.params.impl.num.fsub
      (s.params.impl.num.u2f (s.delayChan ch).widx.toNat) d) (s.params.impl.num.u2f s.dl.cap.toNat))
      (s.params.impl.num.u2f s.dl.cap.toNat) := (rfl)

/-- A read is a zero-delay read when the floor of its position is the cursor (R196). -/
theorem State.zeroDelayRead_iff (s : State) (ch : Nat) (d : Word) : s.zeroDelayRead ch d = true ↔
    s.params.impl.num.ffloorU (s.delayPosition ch d) = (s.delayChan ch).widx.toNat := by
  rw [State.zeroDelayRead, zeroDelay, indexOf, beq_iff_eq]

/-- A legal delay (R193). -/
theorem legalDelay_iff {α : Type} (N : Num α) (cap : Nat) (d : α) : legalDelay N cap d = true ↔
    2 ≤ cap ∧ N.isnan d = false ∧ N.fle N.zero d = true ∧ N.fle d (N.u2f (cap - 2)) = true := by
  rw [legalDelay]
  simp only [Bool.and_eq_true, decide_eq_true_eq, Bool.not_eq_true', and_assoc]

variable (N : Num Word) (s : State) (ch : Nat) (d : Word)

/-- The nearest read (R197). -/
theorem State.delayValue_nearest : s.delayValue (nearestMode N) ch d =
    nearestSample N (fractionOf s.params.impl.num (s.delayPosition ch d))
      ((s.delayChan ch).mem.read (s.params.impl.num.ffloorU (s.delayPosition ch d)))
      ((s.delayChan ch).mem.read ((s.params.impl.num.ffloorU (s.delayPosition ch d) + 1) % s.dl.cap.toNat)) := by
  rw [State.delayValue, nearestMode, indexOf, neighbour, neighbour]

/-- The linear read (R198). -/
theorem State.delayValue_linear : s.delayValue (linearMode N) ch d =
    linearSample N (fractionOf s.params.impl.num (s.delayPosition ch d))
      ((s.delayChan ch).mem.read (s.params.impl.num.ffloorU (s.delayPosition ch d)))
      ((s.delayChan ch).mem.read ((s.params.impl.num.ffloorU (s.delayPosition ch d) + 1) % s.dl.cap.toNat)) := by
  rw [State.delayValue, linearMode, indexOf, neighbour, neighbour]

/-- The cubic read (R199). -/
theorem State.delayValue_cubic : s.delayValue (cubicMode N) ch d =
    cubicSample N (fractionOf s.params.impl.num (s.delayPosition ch d))
      ((s.delayChan ch).mem.read ((s.params.impl.num.ffloorU (s.delayPosition ch d) + s.dl.cap.toNat - 1) % s.dl.cap.toNat))
      ((s.delayChan ch).mem.read (s.params.impl.num.ffloorU (s.delayPosition ch d)))
      ((s.delayChan ch).mem.read ((s.params.impl.num.ffloorU (s.delayPosition ch d) + 1) % s.dl.cap.toNat))
      ((s.delayChan ch).mem.read ((s.params.impl.num.ffloorU (s.delayPosition ch d) + 2) % s.dl.cap.toNat)) := by
  rw [State.delayValue, cubicMode, indexOf, neighbour, neighbour, neighbour, neighbour]

/-- The fraction in the default numerics. -/
theorem fractionOf_binary32 (r : Word) : fractionOf binary32 r = fsub r (u2f (ffloorU r)) := by
  rw [fractionOf, binary32_fsub, binary32_u2f, binary32_ffloorU]

/-- The nearest sample in the default numerics. -/
theorem nearestSample_binary32 (fr s1 s2 : Word) :
    nearestSample binary32 fr s1 s2 = if flt fr 0x3F000000#32 then s1 else s2 := by
  simp only [nearestSample, binary32_flt, binary32_half]

/-- The linear sample in the default numerics. -/
theorem linearSample_binary32 (fr a b : Word) :
    linearSample binary32 fr a b = if feq fr 0#32 then a else fadd a (fmul fr (fsub b a)) := by
  simp only [linearSample, binary32_feq, binary32_zero, binary32_fadd, binary32_fmul, binary32_fsub]

/-- The cubic sample in the default numerics. -/
theorem cubicSample_binary32 (fr s0 s1 s2 s3 : Word) :
    cubicSample binary32 fr s0 s1 s2 s3 = if feq fr 0#32 then s1 else catmullRom binary32 fr s0 s1 s2 s3 := by
  simp only [cubicSample, binary32_feq, binary32_zero]

end Sys2Proof.Machine
end

