-- ==== Sys2Proof/Laws/Memory.lean ====
section
/-! SUPPORT. What the memory operations do to a read, and that each keeps the canonical form. -/

namespace Sys2Proof.Machine

@[simp] theorem Mem.read_nil (a : Nat) : Mem.read [] a = 0#32 := rfl

@[simp] theorem Mem.read_cons (b : Nat) (v : Word) (m : Mem) (a : Nat) :
    Mem.read ((b, v) :: m) a = if a = b then v else Mem.read m a := rfl

/-- The canonical form as a proposition: addresses rise, no entry is the blank word. -/
theorem Mem.wf_iff (m : Mem) :
    m.wf = true ↔ (m.Pairwise fun e e' => e.1 < e'.1) ∧ ∀ e ∈ m, e.2 ≠ 0#32 := by
  simp [Mem.wf, blankWord]

@[simp] theorem Mem.wf_nil : Mem.wf [] = true := rfl

theorem Mem.wf_cons (b : Nat) (v : Word) (m : Mem) :
    Mem.wf ((b, v) :: m) = true ↔ (∀ e ∈ m, b < e.1) ∧ v ≠ 0#32 ∧ m.wf = true := by
  simp only [Mem.wf_iff, List.pairwise_cons, List.forall_mem_cons]
  tauto

/-- An address that is not listed reads as the blank word. -/
theorem Mem.read_of_not_mem (m : Mem) (a : Nat) (h : ∀ e ∈ m, e.1 ≠ a) : m.read a = 0#32 := by
  induction m with
  | nil => rfl
  | cons e m ih =>
    obtain ⟨b, v⟩ := e
    have hb : a ≠ b := fun hab => h (b, v) (by simp) hab.symm
    simp only [Mem.read_cons, hb, if_false]
    exact ih fun e he => h e (by simp [he])

theorem Mem.read_entry (b : Nat) (v : Word) (m : Mem) (a : Nat) (hm : ∀ e ∈ m, b < e.1) :
    (Mem.entry b v m).read a = if a = b then v else m.read a := by
  unfold Mem.entry blankWord
  split
  · rename_i hv
    split
    · rename_i hab
      rw [hv, hab]
      exact Mem.read_of_not_mem m b fun e he => Nat.ne_of_gt (hm e he)
    · rfl
  · rfl

theorem Mem.mem_entry {b : Nat} {v : Word} {m : Mem} {e : Nat × Word} (h : e ∈ Mem.entry b v m) :
    e = (b, v) ∨ e ∈ m := by
  unfold Mem.entry at h
  split at h
  · exact .inr h
  · simpa using h

theorem Mem.mem_write {m : Mem} {a : Nat} {v : Word} {e : Nat × Word} (h : e ∈ m.write a v) :
    e = (a, v) ∨ e ∈ m := by
  induction m with
  | nil => exact Mem.mem_entry h
  | cons f m ih =>
    obtain ⟨b, u⟩ := f
    unfold Mem.write at h
    split at h
    · exact Mem.mem_entry h
    · split at h
      · rcases Mem.mem_entry h with h | h <;> simp [h]
      · rcases List.mem_cons.1 h with h | h
        · simp [h]
        · rcases ih h with h | h <;> simp [h]

/-- A read after a write: the word written at its address, every other address as before (00_scope.md R8). -/
theorem Mem.read_write (m : Mem) (hm : m.wf = true) (b : Nat) (v : Word) (a : Nat) :
    (m.write b v).read a = if a = b then v else m.read a := by
  induction m with
  | nil => exact Mem.read_entry b v [] a (by simp)
  | cons f m ih =>
    obtain ⟨c, u⟩ := f
    obtain ⟨hlt, hu, hw⟩ := (Mem.wf_cons c u m).1 hm
    unfold Mem.write
    split
    · rename_i hbc
      refine Mem.read_entry b v _ a fun e he => ?_
      rcases List.mem_cons.1 he with rfl | he
      · exact hbc
      · exact Nat.lt_trans hbc (hlt e he)
    · split
      · rename_i hbc
        subst hbc
        rw [Mem.read_entry b v m a hlt]
        simp only [Mem.read_cons]
        split <;> rfl
      · rename_i hbc hbc'
        simp only [Mem.read_cons, ih hw]
        by_cases hac : a = c
        · subst hac; simp [Ne.symm hbc']
        · simp [hac]

theorem Mem.wf_entry (b : Nat) (v : Word) (m : Mem) (hm : m.wf = true) (hb : ∀ e ∈ m, b < e.1) :
    (Mem.entry b v m).wf = true := by
  unfold Mem.entry blankWord
  split
  · exact hm
  · rename_i hv
    exact (Mem.wf_cons b v m).2 ⟨hb, hv, hm⟩

/-- A write keeps the canonical form. -/
theorem Mem.wf_write (m : Mem) (hm : m.wf = true) (a : Nat) (v : Word) : (m.write a v).wf = true := by
  induction m with
  | nil => exact Mem.wf_entry a v [] rfl (by simp)
  | cons f m ih =>
    obtain ⟨b, u⟩ := f
    obtain ⟨hlt, hu, hw⟩ := (Mem.wf_cons b u m).1 hm
    unfold Mem.write
    split
    · rename_i hab
      refine Mem.wf_entry a v _ hm fun e he => ?_
      rcases List.mem_cons.1 he with rfl | he
      · exact hab
      · exact Nat.lt_trans hab (hlt e he)
    · split
      · rename_i hab
        subst hab
        exact Mem.wf_entry a v m hw hlt
      · rename_i h1 h2
        refine (Mem.wf_cons b u _).2 ⟨fun e he => ?_, hu, ih hw⟩
        rcases Mem.mem_write he with rfl | he
        · exact lt_of_le_of_ne (not_lt.1 h1) (Ne.symm h2)
        · exact hlt e he

/-- Clearing from address 0 up: zero below the bound, as before from it on. -/
theorem Mem.read_clear (n : Nat) (m : Mem) (a : Nat) : (m.clear n).read a = if a < n then 0#32 else m.read a := by
  unfold Mem.clear
  induction m with
  | nil => simp
  | cons f m ih =>
    obtain ⟨b, u⟩ := f
    by_cases hb : n ≤ b
    · simp only [List.filter_cons, hb, decide_true, if_true, Mem.read_cons, ih]
      by_cases hab : a = b
      · subst hab; simp [Nat.not_lt.2 hb]
      · simp [hab]
    · simp only [List.filter_cons, hb, decide_false, Mem.read_cons]
      by_cases hab : a = b
      · subst hab; simpa [Nat.not_le.1 hb] using ih
      · simpa [hab] using ih

/-- Clearing keeps the canonical form. -/
theorem Mem.wf_clear (n : Nat) (m : Mem) (hm : m.wf = true) : (m.clear n).wf = true := by
  rw [Mem.wf_iff] at hm ⊢
  exact ⟨hm.1.filter _, fun e he => hm.2 e (List.mem_of_mem_filter he)⟩

theorem Mem.read_append (m₁ m₂ : Mem) (a : Nat) :
    Mem.read (m₁ ++ m₂) a = if (∃ e ∈ m₁, e.1 = a) then m₁.read a else m₂.read a := by
  induction m₁ with
  | nil => simp
  | cons f m ih =>
    obtain ⟨b, u⟩ := f
    simp only [List.cons_append, Mem.read_cons, ih, List.exists_mem_cons_iff]
    by_cases hab : a = b
    · simp [hab]
    · simp [hab, Ne.symm hab]

theorem Mem.read_table (f : Nat → Word) (as : List Nat) (a : Nat) :
    Mem.read ((as.map fun a => (a, f a)).filter fun e => e.2 != blankWord) a = if a ∈ as then f a else 0#32 := by
  induction as with
  | nil => simp
  | cons b as ih =>
    by_cases hf : f b = 0#32
    · simp only [List.map_cons, List.filter_cons, hf, blankWord, bne_self_eq_false, List.mem_cons]
      simp only [blankWord] at ih
      rw [if_neg (by simp), ih]
      by_cases hab : a = b
      · subst hab; simp [hf]
      · simp [hab]
    · simp only [List.map_cons, List.filter_cons, blankWord, bne_iff_ne, ne_eq, hf, not_false_eq_true, if_true,
        Mem.read_cons, List.mem_cons]
      simp only [blankWord] at ih
      by_cases hab : a = b
      · subst hab; simp
      · simp only [hab, if_false, false_or]; exact ih

/-- Filling from address 0 up: the function's words below the bound, as before from it on. -/
theorem Mem.read_fill (n : Nat) (f : Nat → Word) (m : Mem) (a : Nat) :
    (m.fill n f).read a = if a < n then f a else m.read a := by
  unfold Mem.fill
  rw [Mem.read_append, Mem.read_table, Mem.read_clear]
  simp only [List.mem_range]
  by_cases han : a < n
  · simp only [han, if_true]
    split
    · rfl
    · rename_i hne
      by_contra hfa
      exact hne ⟨(a, f a), by simpa [blankWord, han] using fun h => hfa h.symm, rfl⟩
  · simp [han]

/-- Filling keeps the canonical form. -/
theorem Mem.wf_fill (n : Nat) (f : Nat → Word) (m : Mem) (hm : m.wf = true) : (m.fill n f).wf = true := by
  have hc := (Mem.wf_iff _).1 (Mem.wf_clear n m hm)
  rw [Mem.wf_iff]
  unfold Mem.fill
  refine ⟨List.pairwise_append.2 ⟨List.Pairwise.filter _ ?_, hc.1, ?_⟩, fun e he => ?_⟩
  · exact List.pairwise_map.2 (List.pairwise_lt_range)
  · intro e he e' he'
    obtain ⟨he, _⟩ := List.mem_filter.1 he
    obtain ⟨b, hb, rfl⟩ := List.mem_map.1 he
    have h2 := (List.mem_filter.1 he').2
    exact Nat.lt_of_lt_of_le (List.mem_range.1 hb) (by simpa using h2)
  · rcases List.mem_append.1 he with he | he
    · simpa [blankWord] using (List.mem_filter.1 he).2
    · exact hc.2 e he

/-- Equal memories are equal data: two memories in canonical form that read alike are the same list. -/
theorem Mem.eq_of_read_eq (m m' : Mem) (hm : m.wf = true) (hm' : m'.wf = true) (h : ∀ a, m.read a = m'.read a) :
    m = m' := by
  induction m generalizing m' with
  | nil =>
    cases m' with
    | nil => rfl
    | cons f m' =>
      obtain ⟨b, u⟩ := f
      have := h b
      simp only [Mem.read_nil, Mem.read_cons, if_true] at this
      exact absurd this.symm ((Mem.wf_cons b u m').1 hm').2.1
  | cons f m ih =>
    obtain ⟨b, u⟩ := f
    obtain ⟨hlt, hu, hw⟩ := (Mem.wf_cons b u m).1 hm
    cases m' with
    | nil =>
      have := h b
      simp only [Mem.read_nil, Mem.read_cons, if_true] at this
      exact absurd this hu
    | cons f' m' =>
      obtain ⟨c, w⟩ := f'
      obtain ⟨hlt', hu', hw'⟩ := (Mem.wf_cons c w m').1 hm'
      have hbc : b = c := by
        rcases Nat.lt_trichotomy b c with hbc | hbc | hbc
        · have := h b
          rw [Mem.read_cons, if_pos rfl, Mem.read_of_not_mem _ b] at this
          · exact absurd this hu
          · intro e he
            rcases List.mem_cons.1 he with rfl | he
            · exact Nat.ne_of_gt hbc
            · exact Nat.ne_of_gt (Nat.lt_trans hbc (hlt' e he))
        · exact hbc
        · have := h c
          rw [Mem.read_cons c, if_pos rfl, Mem.read_of_not_mem _ c] at this
          · exact absurd this.symm hu'
          · intro e he
            rcases List.mem_cons.1 he with rfl | he
            · exact Nat.ne_of_gt hbc
            · exact Nat.ne_of_gt (Nat.lt_trans hbc (hlt e he))
      subst hbc
      have huw : u = w := by simpa using h b
      subst huw
      congr 1
      refine ih m' hw hw' fun a => ?_
      have ha := h a
      by_cases hab : a = b
      · subst hab
        rw [Mem.read_of_not_mem m a fun e he => Nat.ne_of_gt (hlt e he),
          Mem.read_of_not_mem m' a fun e he => Nat.ne_of_gt (hlt' e he)]
      · simpa [hab] using ha

end Sys2Proof.Machine
end

