-- ==== Sys2Proof/Laws/State.lean ====
section
/-! SUPPORT. What each update of the state does to each field, one lemma per field per update, so that no proof unfolds an update. -/

namespace Sys2Proof.Machine

variable (s : State)

/-! `State.respond`. -/

@[simp] theorem State.respond_params (r : Response) : (s.respond r).params = s.params := rfl
@[simp] theorem State.respond_sys (r : Response) : (s.respond r).sys = s.sys := rfl
@[simp] theorem State.respond_sp (r : Response) : (s.respond r).sp = s.sp := rfl
@[simp] theorem State.respond_dl (r : Response) : (s.respond r).dl = s.dl := rfl
@[simp] theorem State.respond_bq (r : Response) : (s.respond r).bq = s.bq := rfl
@[simp] theorem State.respond_st (r : Response) : (s.respond r).st = s.st := rfl
@[simp] theorem State.respond_ports (r : Response) : (s.respond r).ports = s.ports.send r := rfl
@[simp] theorem State.respond_free (r : Response) : (s.respond r).free = s.free := rfl

/-! `State.raise`. -/

@[simp] theorem State.raise_params (e : ErrCode) (w : Word) : (s.raise e w).params = s.params := rfl
@[simp] theorem State.raise_sys (e : ErrCode) (w : Word) : (s.raise e w).sys = s.sys.enterFault e w s.ports.cur := rfl
@[simp] theorem State.raise_sp (e : ErrCode) (w : Word) : (s.raise e w).sp = s.sp := rfl
@[simp] theorem State.raise_dl (e : ErrCode) (w : Word) : (s.raise e w).dl = s.dl := rfl
@[simp] theorem State.raise_bq (e : ErrCode) (w : Word) : (s.raise e w).bq = s.bq := rfl
@[simp] theorem State.raise_st (e : ErrCode) (w : Word) : (s.raise e w).st = s.st := rfl
@[simp] theorem State.raise_ports (e : ErrCode) (w : Word) : (s.raise e w).ports = s.ports.send (Response.faulted e) := rfl
@[simp] theorem State.raise_free (e : ErrCode) (w : Word) : (s.raise e w).free = s.free := rfl

/-! `State.setSmoother`. -/

@[simp] theorem State.setSmoother_params (i : Nat) (v : Smoother) : (s.setSmoother i v).params = s.params := rfl
@[simp] theorem State.setSmoother_sys (i : Nat) (v : Smoother) : (s.setSmoother i v).sys = s.sys := rfl
@[simp] theorem State.setSmoother_sp (i : Nat) (v : Smoother) : (s.setSmoother i v).sp = s.sp.set i v := rfl
@[simp] theorem State.setSmoother_dl (i : Nat) (v : Smoother) : (s.setSmoother i v).dl = s.dl := rfl
@[simp] theorem State.setSmoother_bq (i : Nat) (v : Smoother) : (s.setSmoother i v).bq = s.bq := rfl
@[simp] theorem State.setSmoother_st (i : Nat) (v : Smoother) : (s.setSmoother i v).st = s.st := rfl
@[simp] theorem State.setSmoother_ports (i : Nat) (v : Smoother) : (s.setSmoother i v).ports = s.ports := rfl
@[simp] theorem State.setSmoother_free (i : Nat) (v : Smoother) : (s.setSmoother i v).free = s.free := rfl

/-! `State.setDelayChan`. -/

@[simp] theorem State.setDelayChan_params (ch : Nat) (v : DelayChannel) : (s.setDelayChan ch v).params = s.params := rfl
@[simp] theorem State.setDelayChan_sys (ch : Nat) (v : DelayChannel) : (s.setDelayChan ch v).sys = s.sys := rfl
@[simp] theorem State.setDelayChan_sp (ch : Nat) (v : DelayChannel) : (s.setDelayChan ch v).sp = s.sp := rfl
@[simp] theorem State.setDelayChan_dl (ch : Nat) (v : DelayChannel) : (s.setDelayChan ch v).dl = { s.dl with chans := s.dl.chans.set ch v } := rfl
@[simp] theorem State.setDelayChan_bq (ch : Nat) (v : DelayChannel) : (s.setDelayChan ch v).bq = s.bq := rfl
@[simp] theorem State.setDelayChan_st (ch : Nat) (v : DelayChannel) : (s.setDelayChan ch v).st = s.st := rfl
@[simp] theorem State.setDelayChan_ports (ch : Nat) (v : DelayChannel) : (s.setDelayChan ch v).ports = s.ports := rfl
@[simp] theorem State.setDelayChan_free (ch : Nat) (v : DelayChannel) : (s.setDelayChan ch v).free = s.free := rfl

/-! `State.setFilter`. -/

@[simp] theorem State.setFilter_params (f : Nat) (v : Filter) : (s.setFilter f v).params = s.params := rfl
@[simp] theorem State.setFilter_sys (f : Nat) (v : Filter) : (s.setFilter f v).sys = s.sys := rfl
@[simp] theorem State.setFilter_sp (f : Nat) (v : Filter) : (s.setFilter f v).sp = s.sp := rfl
@[simp] theorem State.setFilter_dl (f : Nat) (v : Filter) : (s.setFilter f v).dl = s.dl := rfl
@[simp] theorem State.setFilter_bq (f : Nat) (v : Filter) : (s.setFilter f v).bq = s.bq.set f v := rfl
@[simp] theorem State.setFilter_st (f : Nat) (v : Filter) : (s.setFilter f v).st = s.st := rfl
@[simp] theorem State.setFilter_ports (f : Nat) (v : Filter) : (s.setFilter f v).ports = s.ports := rfl
@[simp] theorem State.setFilter_free (f : Nat) (v : Filter) : (s.setFilter f v).free = s.free := rfl

/-! `State.setStftChan`. -/

@[simp] theorem State.setStftChan_params (ch : Nat) (v : StftChannel) : (s.setStftChan ch v).params = s.params := rfl
@[simp] theorem State.setStftChan_sys (ch : Nat) (v : StftChannel) : (s.setStftChan ch v).sys = s.sys := rfl
@[simp] theorem State.setStftChan_sp (ch : Nat) (v : StftChannel) : (s.setStftChan ch v).sp = s.sp := rfl
@[simp] theorem State.setStftChan_dl (ch : Nat) (v : StftChannel) : (s.setStftChan ch v).dl = s.dl := rfl
@[simp] theorem State.setStftChan_bq (ch : Nat) (v : StftChannel) : (s.setStftChan ch v).bq = s.bq := rfl
@[simp] theorem State.setStftChan_st (ch : Nat) (v : StftChannel) : (s.setStftChan ch v).st = { s.st with chans := s.st.chans.set ch v } := rfl
@[simp] theorem State.setStftChan_ports (ch : Nat) (v : StftChannel) : (s.setStftChan ch v).ports = s.ports := rfl
@[simp] theorem State.setStftChan_free (ch : Nat) (v : StftChannel) : (s.setStftChan ch v).free = s.free := rfl

/-! `State.countDraw`. -/

@[simp] theorem State.countDraw_params : s.countDraw.params = s.params := rfl
@[simp] theorem State.countDraw_sys : s.countDraw.sys = s.sys := rfl
@[simp] theorem State.countDraw_sp : s.countDraw.sp = s.sp := rfl
@[simp] theorem State.countDraw_dl : s.countDraw.dl = s.dl := rfl
@[simp] theorem State.countDraw_bq : s.countDraw.bq = s.bq := rfl
@[simp] theorem State.countDraw_st : s.countDraw.st = s.st := rfl
@[simp] theorem State.countDraw_ports : s.countDraw.ports = s.ports := rfl
@[simp] theorem State.countDraw_free : s.countDraw.free = { s.free with draws := s.free.draws + 1 } := rfl

/-! `State.takeCommand`. -/

@[simp] theorem State.takeCommand_params (p : Port) (rest : List Word) : (s.takeCommand p rest).params = s.params := rfl
@[simp] theorem State.takeCommand_sys (p : Port) (rest : List Word) : (s.takeCommand p rest).sys = s.sys := rfl
@[simp] theorem State.takeCommand_sp (p : Port) (rest : List Word) : (s.takeCommand p rest).sp = s.sp := rfl
@[simp] theorem State.takeCommand_dl (p : Port) (rest : List Word) : (s.takeCommand p rest).dl = s.dl := rfl
@[simp] theorem State.takeCommand_bq (p : Port) (rest : List Word) : (s.takeCommand p rest).bq = s.bq := rfl
@[simp] theorem State.takeCommand_st (p : Port) (rest : List Word) : (s.takeCommand p rest).st = s.st := rfl
@[simp] theorem State.takeCommand_ports (p : Port) (rest : List Word) : (s.takeCommand p rest).ports = s.ports.take p rest := rfl

/-! `State.hardwareReset`. -/

@[simp] theorem State.hardwareReset_params : s.hardwareReset.params = s.params := rfl
@[simp] theorem State.hardwareReset_sys : s.hardwareReset.sys = SysRegs.reset := rfl
@[simp] theorem State.hardwareReset_sp : s.hardwareReset.sp = List.replicate s.params.nsp Smoother.reset := rfl
@[simp] theorem State.hardwareReset_dl : s.hardwareReset.dl = DelayUnit.reset s.params.nch := rfl
@[simp] theorem State.hardwareReset_bq : s.hardwareReset.bq = List.replicate s.params.nbq (Filter.reset s.params.nch) := rfl
@[simp] theorem State.hardwareReset_st : s.hardwareReset.st = StftUnit.reset s.params := rfl
@[simp] theorem State.hardwareReset_ports : s.hardwareReset.ports = s.ports := rfl
@[simp] theorem State.hardwareReset_free : s.hardwareReset.free = s.free := rfl

/-! `State.countExchange`. -/

theorem State.countExchange_eq : s.countExchange = { s with free := s.countExchange.free } := by
  unfold State.countExchange
  split <;> rfl

theorem State.countExchange_of_identity (h : modField s.st.cfg = .identity) : s.countExchange = s := by
  simp only [State.countExchange, h]

theorem State.countExchange_of_external (h : modField s.st.cfg = .external) :
    s.countExchange = { s with free := { s.free with mods := s.free.mods + 1 } } := by
  simp only [State.countExchange, h]

@[simp] theorem State.countExchange_params : s.countExchange.params = s.params := by rw [State.countExchange_eq]
@[simp] theorem State.countExchange_sys : s.countExchange.sys = s.sys := by rw [State.countExchange_eq]
@[simp] theorem State.countExchange_sp : s.countExchange.sp = s.sp := by rw [State.countExchange_eq]
@[simp] theorem State.countExchange_dl : s.countExchange.dl = s.dl := by rw [State.countExchange_eq]
@[simp] theorem State.countExchange_bq : s.countExchange.bq = s.bq := by rw [State.countExchange_eq]
@[simp] theorem State.countExchange_st : s.countExchange.st = s.st := by rw [State.countExchange_eq]
@[simp] theorem State.countExchange_ports : s.countExchange.ports = s.ports := by rw [State.countExchange_eq]

/-! `State.prepare`. -/

variable (I : Impl Word) (srate maxblk cap : Word)

@[simp] theorem State.prepare_params : (s.prepare I srate maxblk cap).params = s.params := rfl
@[simp] theorem State.prepare_sys : (s.prepare I srate maxblk cap).sys =
    { s.sys with prepared := true, srate := srate, maxblk := maxblk, blklen := 0#32 } := rfl
@[simp] theorem State.prepare_sp : (s.prepare I srate maxblk cap).sp = s.sp.map Smoother.settle := rfl
@[simp] theorem State.prepare_dl : (s.prepare I srate maxblk cap).dl =
    ⟨cap, s.dl.chans.map (DelayChannel.prepare cap.toNat)⟩ := rfl
@[simp] theorem State.prepare_bq : (s.prepare I srate maxblk cap).bq = s.bq.map Filter.clear := rfl
@[simp] theorem State.prepare_st : (s.prepare I srate maxblk cap).st = s.st.reinit I := rfl
@[simp] theorem State.prepare_ports : (s.prepare I srate maxblk cap).ports = s.ports := rfl
@[simp] theorem State.prepare_free : (s.prepare I srate maxblk cap).free = s.free := rfl

end Sys2Proof.Machine
end

