-- ==== Sys2Proof/Laws/Operands.lean ====
section
/-! SUPPORT. Reading a file of instances after one instance was replaced, and after every instance was mapped. -/

namespace Sys2Proof.Machine

/-- The entry that was set, or the old one. -/
theorem getD_set {α : Type} (l : List α) (i k : Nat) (v d : α) (h : i < l.length) :
    (l.set i v).getD k d = if k = i then v else l.getD k d := by
  simp only [List.getD_eq_getElem?_getD, List.getElem?_set]
  by_cases hk : i = k
  · subst hk; simp [h]
  · rw [if_neg hk, if_neg (Ne.symm hk)]

/-- An index within range names an entry of the list. -/
theorem getD_mem {α : Type} (l : List α) (i : Nat) (d : α) (h : i < l.length) : l.getD i d ∈ l := by
  rw [List.getD_eq_getElem _ _ h]; exact List.getElem_mem h

theorem getD_map {α β : Type} (f : α → β) (l : List α) (i : Nat) (d : α) (d' : β) (h : i < l.length) :
    (l.map f).getD i d' = f (l.getD i d) := by
  simp [List.getD_eq_getElem?_getD, List.getElem?_eq_getElem h]

theorem getD_of_length_le {α : Type} (l : List α) (i : Nat) (d : α) (h : l.length ≤ i) : l.getD i d = d := by
  simp [List.getD_eq_getElem?_getD, List.getElem?_eq_none h]

/-- Setting an entry to what it holds changes nothing. -/
theorem set_getD {α : Type} (l : List α) (i : Nat) (d : α) (h : i < l.length) : l.set i (l.getD i d) = l := by
  rw [List.getD_eq_getElem _ _ h]; exact List.set_getElem_self h

/-- Every entry of a list with one entry replaced is the new one or was there. -/
theorem forall_mem_set {α : Type} {P : α → Prop} {l : List α} {i : Nat} {v : α} (hl : ∀ x ∈ l, P x) (hv : P v) :
    ∀ x ∈ l.set i v, P x := by
  intro x hx
  rcases List.mem_or_eq_of_mem_set hx with h | h
  · exact hl x h
  · exact h ▸ hv

theorem State.smoother_set (s : State) (i k : Nat) (v : Smoother) (h : i < s.sp.length) :
    (s.setSmoother i v).smoother k = if k = i then v else s.smoother k := getD_set _ _ _ _ _ h

theorem State.delayChan_set (s : State) (ch c : Nat) (v : DelayChannel) (h : ch < s.dl.chans.length) :
    (s.setDelayChan ch v).delayChan c = if c = ch then v else s.delayChan c := getD_set _ _ _ _ _ h

theorem State.filter_set (s : State) (f k : Nat) (v : Filter) (h : f < s.bq.length) :
    (s.setFilter f v).filter k = if k = f then v else s.filter k := getD_set _ _ _ _ _ h

theorem State.stftChan_set (s : State) (ch c : Nat) (v : StftChannel) (h : ch < s.st.chans.length) :
    (s.setStftChan ch v).stftChan c = if c = ch then v else s.stftChan c := getD_set _ _ _ _ _ h

end Sys2Proof.Machine
end

