-- ==== Sys2Proof/Laws/Ops.lean ====
section
/-! SUPPORT. One lemma for each shared operation that says all it can do: the ports, responses, taking a fault, the common checks, and the choice of the port to serve. -/

namespace Sys2Proof.Machine

/-! Ports. -/

@[simp] theorem Port.other_ne (p : Port) : p.other ≠ p := by cases p <;> decide
@[simp] theorem Port.ne_other (p : Port) : p ≠ p.other := by cases p <;> decide
@[simp] theorem Port.other_other (p : Port) : p.other.other = p := by cases p <;> rfl
theorem Port.eq_or_eq_other (p q : Port) : p = q ∨ p = q.other := by cases p <;> cases q <;> decide

@[simp] theorem Ports.send_cur (q : Ports) (r : Response) : (q.send r).cur = q.cur := by
  unfold Ports.send; split <;> rfl

/-- Sending appends one response on the current port and leaves the words of both ports. -/
theorem Ports.send_port (q : Ports) (r : Response) (p : Port) :
    (q.send r).port p = if p = q.cur then ⟨(q.port p).pending, (q.port p).sent ++ [r]⟩ else q.port p := by
  cases h : q.cur <;> cases p <;> simp [Ports.send, Ports.port, h]

theorem Ports.send_inj (q : Ports) (r r' : Response) : q.send r = q.send r' ↔ r = r' := by
  refine ⟨fun h => ?_, fun h => by rw [h]⟩
  have := congrArg (fun x : Ports => (x.port q.cur).sent) h
  simpa [Ports.send_port] using this

@[simp] theorem Ports.take_cur (q : Ports) (p : Port) (rest : List Word) : (q.take p rest).cur = p := by
  cases p <;> rfl

/-- Taking a command leaves `rest` on the port and the other port alone. -/
theorem Ports.take_port (q : Ports) (p : Port) (rest : List Word) (p' : Port) :
    (q.take p rest).port p' = if p' = p then ⟨rest, (q.port p).sent⟩ else q.port p' := by
  cases p <;> cases p' <;> rfl

/-! Responses. -/

@[simp] theorem Response.executed_plain (d : Word) : Response.executed d {} = ⟨0#32, d⟩ := rfl
@[simp] theorem Response.executed_zd (d : Word) : Response.executed d { zd := true } = ⟨0x100#32, d⟩ := rfl
@[simp] theorem Response.executed_frame (d : Word) : Response.executed d { frame := true } = ⟨0x200#32, d⟩ := rfl
@[simp] theorem Response.executed_ramp (d : Word) : Response.executed d { ramp := true } = ⟨0x400#32, d⟩ := rfl
theorem Response.faulted_eq (e : ErrCode) : Response.faulted e = ⟨BitVec.ofNat 32 e.code, 0#32⟩ := by
  cases e <;> rfl

/-- The `CODE` of a command that executed is zero. -/
theorem Response.executed_code (d : Word) (f : Flags) : (Response.executed d f).status.extractLsb' 0 8 = 0#8 := by
  obtain ⟨a, b, c⟩ := f
  show BitVec.extractLsb' 0 8 (statusWord 0 ⟨a, b, c⟩) = 0#8
  revert a b c
  decide

/-- The flag `RAMP` of a smoother, in the two cases. -/
theorem Response.executed_rampFlag (d : Word) (sm : Smoother) :
    Response.executed d (rampFlag sm) = ⟨if sm.rem = 0#32 then 0#32 else 0x400#32, d⟩ := by
  by_cases h : sm.rem = 0#32
  · simp [rampFlag, h]
  · simp [rampFlag, h, bne_iff_ne.mpr h]

/-! Taking a fault. -/

theorem SysRegs.enterFault_of_fault (r : SysRegs) (e : ErrCode) (w : Word) (p : Port) (h : r.fault = true) :
    r.enterFault e w p = r := by simp [SysRegs.enterFault, h]

theorem SysRegs.enterFault_of_no_fault (r : SysRegs) (e : ErrCode) (w : Word) (p : Port) (h : r.fault = false) :
    r.enterFault e w p = { r with fault := true, errcode := some e, errcmd := w, errport := p } := by
  simp [SysRegs.enterFault, h]

@[simp] theorem SysRegs.enterFault_prepared (r : SysRegs) (e : ErrCode) (w : Word) (p : Port) :
    (r.enterFault e w p).prepared = r.prepared := by unfold SysRegs.enterFault; split <;> rfl

@[simp] theorem SysRegs.enterFault_lock (r : SysRegs) (e : ErrCode) (w : Word) (p : Port) :
    (r.enterFault e w p).lock = r.lock := by unfold SysRegs.enterFault; split <;> rfl

@[simp] theorem SysRegs.enterFault_srate (r : SysRegs) (e : ErrCode) (w : Word) (p : Port) :
    (r.enterFault e w p).srate = r.srate := by unfold SysRegs.enterFault; split <;> rfl

@[simp] theorem SysRegs.enterFault_maxblk (r : SysRegs) (e : ErrCode) (w : Word) (p : Port) :
    (r.enterFault e w p).maxblk = r.maxblk := by unfold SysRegs.enterFault; split <;> rfl

@[simp] theorem SysRegs.enterFault_blklen (r : SysRegs) (e : ErrCode) (w : Word) (p : Port) :
    (r.enterFault e w p).blklen = r.blklen := by unfold SysRegs.enterFault; split <;> rfl

@[simp] theorem SysRegs.enterFault_fault (r : SysRegs) (e : ErrCode) (w : Word) (p : Port) :
    (r.enterFault e w p).fault = true := by
  unfold SysRegs.enterFault
  split <;> simp_all

/-! The common checks. -/

/-- Every command ends in one of four ways: performed, refused, held or faulted. -/
theorem runCommand_cases (i : Instr) (s : State) (f : State → Host.Outcome State Fault Refusal) :
    (examine i s.ports.cur s = .go ∧ runCommand i s f = f s) ∨
    (examine i s.ports.cur s = .refused ∧ runCommand i s f = .next (s.respond Response.refused)) ∨
    (examine i s.ports.cur s = .held ∧ runCommand i s f = .next s) ∨
    (∃ e, examine i s.ports.cur s = .fault e ∧ runCommand i s f = failWith e i s) := by
  unfold runCommand
  cases h : examine i s.ports.cur s <;> simp

theorem runCommand_go {i : Instr} {s : State} (f : State → Host.Outcome State Fault Refusal)
    (h : examine i s.ports.cur s = .go) : runCommand i s f = f s := by simp [runCommand, h]

theorem runCommand_held {i : Instr} {s : State} (f : State → Host.Outcome State Fault Refusal)
    (h : examine i s.ports.cur s = .held) : runCommand i s f = .next s := by simp [runCommand, h]

theorem runCommand_fault {i : Instr} {s : State} {e : ErrCode} (f : State → Host.Outcome State Fault Refusal)
    (h : examine i s.ports.cur s = .fault e) : runCommand i s f = failWith e i s := by simp [runCommand, h]

theorem runCommand_refused {i : Instr} {s : State} (f : State → Host.Outcome State Fault Refusal)
    (h : examine i s.ports.cur s = .refused) : runCommand i s f = .next (s.respond Response.refused) := by
  simp [runCommand, h]

/-- On a ready block with its indices in range, a command gets as far as the scope check. -/
theorem examine_of_ready {i : Instr} {p : Port} {s : State} (hr : s.Ready) (hi : indexOk s.params i = true)
    (hx : cmdClass i ≠ .reset) : examine i p s = scopeCheck i s.sys.lock p := by
  simp [examine, hx, hr.1, hr.2, hi]

/-- A class F command runs on a ready block. -/
theorem examine_free {i : Instr} {p : Port} {s : State} (hr : s.Ready) (hi : indexOk s.params i = true)
    (hc : cmdClass i = .free) : examine i p s = .go := by
  rw [examine_of_ready hr hi (by simp [hc])]; simp [scopeCheck, hc]

/-- A class P command runs inside the scope of its own port. -/
theorem examine_processing {i : Instr} {p : Port} {s : State} (hr : s.Ready) (hi : indexOk s.params i = true)
    (hc : cmdClass i = .processing) (hl : s.sys.lock = some p) : examine i p s = .go := by
  rw [examine_of_ready hr hi (by simp [hc])]; simp [scopeCheck, hc, ownScope, hl]

/-- A refused or freely executing command, while `FAULT = 1`. -/
theorem examine_of_fault {i : Instr} {p : Port} {s : State} (hf : s.sys.fault = true) :
    examine i p s = if cmdClass i = .reset ∨ survivesFault i = true then .go else .refused := by
  unfold examine
  by_cases hc : cmdClass i = .reset <;> simp [hc, hf]

/-- The checks ask for the scope only of a command whose verdict they leave open, and hold only a class R command or
`SYS.BEGIN` (40_sys.md R144). -/
theorem examine_eq_held {i : Instr} {p : Port} {s : State} (h : examine i p s = .held) :
    s.sys.fault = false ∧ indexOk s.params i = true ∧ (s.sys.prepared = true ∨ needsPrepare i = false) ∧
      scopeCheck i s.sys.lock p = .held := by
  unfold examine at h
  split at h
  · cases h
  · split at h
    · split at h <;> cases h
    · split at h
      · cases h
      · split at h
        · cases h
        · rename_i h1 h2 h3 h4
          refine ⟨by simpa using h2, by simpa using h3, ?_, h⟩
          revert h4
          cases s.sys.prepared <;> simp

/-! The choice of a port. -/

/-- The chosen port has an enabled command. -/
theorem State.enabled_of_choose {s : State} {p : Port} (h : s.choose = some p) : s.enabled p = true := by
  unfold State.choose at h
  cases ha : s.enabled .audio <;> cases hc : s.enabled .control <;> simp [ha, hc] at h
  · exact h ▸ hc
  · exact h ▸ ha
  · cases p
    · exact ha
    · exact hc

theorem State.choose_of_enabled {s : State} {p : Port} (h : s.enabled p = true) (h' : s.enabled p.other = false) :
    s.choose = some p := by
  cases p <;> simp [State.choose, Port.other] at * <;> simp [h, h']

theorem State.choose_eq_none {s : State} (h : s.choose = none) (p : Port) : s.enabled p = false := by
  unfold State.choose at h
  cases ha : s.enabled .audio <;> cases hc : s.enabled .control <;> simp [ha, hc] at h
  cases p <;> assumption

theorem State.takeCommand_eq (s : State) (p : Port) (rest : List Word) :
    s.takeCommand p rest = { s with ports := s.ports.take p rest, free := (s.takeCommand p rest).free } := rfl

end Sys2Proof.Machine
end

