-- ==== Sys2Proof/Laws/PerInstr.lean ====
section
/-! SUPPORT. Facts of the syntax that hold of every command, one lemma per constructor. -/

namespace Sys2Proof.Laws

/-- The opcode of a command: its row of the opcode map (30_encoding.md R112). -/
def opcodeOf : Instr → Opcode
  | .sysNop => .sysNop
  | .sysReset => .sysReset
  | .sysPrepare _ _ _ => .sysPrepare
  | .sysBegin _ => .sysBegin
  | .sysEnd => .sysEnd
  | .sysRdreg _ => .sysRdreg
  | .sysRdmem _ _ _ => .sysRdmem
  | .spConfig _ _ => .spConfig
  | .spSettgt _ _ => .spSettgt
  | .spAdv _ => .spAdv
  | .spSnap _ => .spSnap
  | .dlWrite _ _ => .dlWrite
  | .dlAdv _ => .dlAdv
  | .dlRdn _ _ => .dlRdn
  | .dlRdl _ _ => .dlRdl
  | .dlRdc _ _ => .dlRdc
  | .bqLoad _ _ _ _ _ _ _ => .bqLoad
  | .bqStep _ _ _ => .bqStep
  | .bqClear _ => .bqClear
  | .stConfig _ _ _ _ => .stConfig
  | .stPush _ _ => .stPush

/-- The command word of a well-formed command selects the row of its own opcode, and the row asks for as many operand
words as the command has (30_encoding.md R112, R113). -/
def HeadDecodes.Statement (i : Instr) : Prop :=
  i.wellFormed = true →
    (findRow i.commandWord).map (fun r => (r.op, r.operands)) = some (opcodeOf i, i.operandWords.length)

/-- Every space has one of the four codes. -/
theorem space_cases (sp : Space) : sp ∈ [Space.dlmem, .inr, .outr, .wintab] := by cases sp <;> decide

/-- Every window has one of the four codes. -/
theorem window_cases (w : Window) : w ∈ [Window.rectangular, .bartlett, .hann, .hamming] := by cases w <;> decide

/-- Every modification selector has one of the two codes. -/
theorem modSel_cases (m : ModSel) : m ∈ [ModSel.identity, .external] := by cases m <;> decide

/-- The top byte of a command word decides its row: `UNIT` and `FUNC` (30_encoding.md R110, R111). -/
theorem findRow_at (n : Nat) (w : Word) (r : OpcodeRow) (hr : opcodeTable[n]? = some r) (hw : w &&& r.mask = r.pattern)
    (before : ∀ q ∈ opcodeTable.take n, q.pattern &&& 0xFF000000#32 ≠ r.pattern &&& 0xFF000000#32) :
    findRow w = some r := by
  have top : ∀ q ∈ opcodeTable, q.mask &&& 0xFF000000#32 = 0xFF000000#32 := by decide
  have fromTop : ∀ q ∈ opcodeTable, w &&& q.mask = q.pattern → q.pattern &&& 0xFF000000#32 = w &&& 0xFF000000#32 := by
    intro q hq h; rw [← h, BitVec.and_assoc, top q hq]
  have hn : n < opcodeTable.length := (List.getElem?_eq_some_iff.1 hr).1
  have split : opcodeTable = opcodeTable.take n ++ r :: opcodeTable.drop (n + 1) := by
    rw [← (List.getElem?_eq_some_iff.1 hr).2, List.getElem_cons_drop, List.take_append_drop]
  have none : (opcodeTable.take n).find? (fun r => (w &&& r.mask) == r.pattern) = none := by
    rw [List.find?_eq_none]
    intro q hq h
    exact before q hq ((fromTop q (List.mem_of_mem_take hq) (beq_iff_eq.1 h)).trans
      (fromTop r (List.mem_of_getElem? hr) hw).symm)
  rw [findRow, split, List.find?_append, none, List.find?_cons_of_pos (by simpa using hw)]
  rfl

/-- A mask that leaves `IDX` free sees nothing of it. -/
theorem packCommand_idx (u f : BitVec 4) (i : Nat) :
    packCommand u f i 0 0 &&& 0xFF00FFFF#32 = packCommand u f 0 0 0 := by
  apply BitVec.eq_of_getLsbD_eq
  intro k hk
  simp only [packCommand, BitVec.getLsbD_and, BitVec.getLsbD_append]
  interval_cases k <;> simp

/-- A mask that leaves `CH` free sees nothing of it. -/
theorem packCommand_ch (u f : BitVec 4) (ch : Nat) :
    packCommand u f 0 ch 0 &&& 0xFFFF0FFF#32 = packCommand u f 0 0 0 := by
  apply BitVec.eq_of_getLsbD_eq
  intro k hk
  simp only [packCommand, BitVec.getLsbD_and, BitVec.getLsbD_append]
  interval_cases k <;> simp

/-- A mask that leaves `IDX` and `CH` free sees nothing of them. -/
theorem packCommand_idx_ch (u f : BitVec 4) (i ch : Nat) :
    packCommand u f i ch 0 &&& 0xFF000FFF#32 = packCommand u f 0 0 0 := by
  apply BitVec.eq_of_getLsbD_eq
  intro k hk
  simp only [packCommand, BitVec.getLsbD_and, BitVec.getLsbD_append]
  interval_cases k <;> simp

theorem HeadDecodes.sysNop : HeadDecodes.Statement (.sysNop) := fun _ =>
  congrArg _ (findRow_at 0 _ ⟨.sysNop, "SYS.NOP", 0x00000000#32, 0xFFFFFFFF#32, 0⟩
    rfl (by simp only [Instr.commandWord]; decide) (by decide))

theorem HeadDecodes.sysReset : HeadDecodes.Statement (.sysReset) := fun _ =>
  congrArg _ (findRow_at 1 _ ⟨.sysReset, "SYS.RESET", 0x01000000#32, 0xFFFFFFFF#32, 0⟩
    rfl (by simp only [Instr.commandWord]; decide) (by decide))

theorem HeadDecodes.sysPrepare (srate maxblk cap : Word) : HeadDecodes.Statement (.sysPrepare srate maxblk cap) := fun _ =>
  congrArg _ (findRow_at 2 _ ⟨.sysPrepare, "SYS.PREPARE", 0x02000000#32, 0xFFFFFFFF#32, 3⟩
    rfl (by simp only [Instr.commandWord]; decide) (by decide))

theorem HeadDecodes.sysBegin (n : Word) : HeadDecodes.Statement (.sysBegin n) := fun _ =>
  congrArg _ (findRow_at 3 _ ⟨.sysBegin, "SYS.BEGIN", 0x03000000#32, 0xFFFFFFFF#32, 1⟩
    rfl (by simp only [Instr.commandWord]; decide) (by decide))

theorem HeadDecodes.sysEnd : HeadDecodes.Statement (.sysEnd) := fun _ =>
  congrArg _ (findRow_at 4 _ ⟨.sysEnd, "SYS.END", 0x04000000#32, 0xFFFFFFFF#32, 0⟩
    rfl (by simp only [Instr.commandWord]; decide) (by decide))

theorem HeadDecodes.sysRdreg (addr : Word) : HeadDecodes.Statement (.sysRdreg addr) := fun _ =>
  congrArg _ (findRow_at 5 _ ⟨.sysRdreg, "SYS.RDREG", 0x05000000#32, 0xFFFFFFFF#32, 1⟩
    rfl (by simp only [Instr.commandWord]; decide) (by decide))

theorem HeadDecodes.sysRdmem (ch : Nat) (space : Space) (addr : Word) :
    HeadDecodes.Statement (.sysRdmem ch space addr) := fun h =>
  congrArg _ (findRow_at 6 _ ⟨.sysRdmem, "SYS.RDMEM", 0x06000000#32, 0xFFFF0FFC#32, 1⟩ rfl
    ((by decide +kernel : ∀ c : Fin 16, ∀ sp ∈ [Space.dlmem, .inr, .outr, .wintab],
      packCommand 0 6 0 c sp.code &&& 0xFFFF0FFC#32 = 0x06000000#32)
      ⟨ch, of_decide_eq_true h⟩ space (space_cases space)) (by decide))

theorem HeadDecodes.spConfig (i : Nat) (n : Word) : HeadDecodes.Statement (.spConfig i n) := fun _ =>
  congrArg _ (findRow_at 7 _ ⟨.spConfig, "SP.CONFIG", 0x10000000#32, 0xFF00FFFF#32, 1⟩
    rfl (packCommand_idx 1 0 i) (by decide))

theorem HeadDecodes.spSettgt (i : Nat) (v : Word) : HeadDecodes.Statement (.spSettgt i v) := fun _ =>
  congrArg _ (findRow_at 8 _ ⟨.spSettgt, "SP.SETTGT", 0x11000000#32, 0xFF00FFFF#32, 1⟩
    rfl (packCommand_idx 1 1 i) (by decide))

theorem HeadDecodes.spAdv (i : Nat) : HeadDecodes.Statement (.spAdv i) := fun _ =>
  congrArg _ (findRow_at 9 _ ⟨.spAdv, "SP.ADV", 0x12000000#32, 0xFF00FFFF#32, 0⟩
    rfl (packCommand_idx 1 2 i) (by decide))

theorem HeadDecodes.spSnap (i : Nat) : HeadDecodes.Statement (.spSnap i) := fun _ =>
  congrArg _ (findRow_at 10 _ ⟨.spSnap, "SP.SNAP", 0x13000000#32, 0xFF00FFFF#32, 0⟩
    rfl (packCommand_idx 1 3 i) (by decide))

theorem HeadDecodes.dlWrite (ch : Nat) (x : Word) : HeadDecodes.Statement (.dlWrite ch x) := fun _ =>
  congrArg _ (findRow_at 11 _ ⟨.dlWrite, "DL.WRITE", 0x20000000#32, 0xFFFF0FFF#32, 1⟩
    rfl (packCommand_ch 2 0 ch) (by decide))

theorem HeadDecodes.dlAdv (ch : Nat) : HeadDecodes.Statement (.dlAdv ch) := fun _ =>
  congrArg _ (findRow_at 12 _ ⟨.dlAdv, "DL.ADV", 0x21000000#32, 0xFFFF0FFF#32, 0⟩
    rfl (packCommand_ch 2 1 ch) (by decide))

theorem HeadDecodes.dlRdn (ch : Nat) (d : Word) : HeadDecodes.Statement (.dlRdn ch d) := fun _ =>
  congrArg _ (findRow_at 13 _ ⟨.dlRdn, "DL.RDN", 0x24000000#32, 0xFFFF0FFF#32, 1⟩
    rfl (packCommand_ch 2 4 ch) (by decide))

theorem HeadDecodes.dlRdl (ch : Nat) (d : Word) : HeadDecodes.Statement (.dlRdl ch d) := fun _ =>
  congrArg _ (findRow_at 14 _ ⟨.dlRdl, "DL.RDL", 0x25000000#32, 0xFFFF0FFF#32, 1⟩
    rfl (packCommand_ch 2 5 ch) (by decide))

theorem HeadDecodes.dlRdc (ch : Nat) (d : Word) : HeadDecodes.Statement (.dlRdc ch d) := fun _ =>
  congrArg _ (findRow_at 15 _ ⟨.dlRdc, "DL.RDC", 0x26000000#32, 0xFFFF0FFF#32, 1⟩
    rfl (packCommand_ch 2 6 ch) (by decide))

theorem HeadDecodes.bqLoad (f : Nat) (b0 b1 b2 a0 a1 a2 : Word) : HeadDecodes.Statement (.bqLoad f b0 b1 b2 a0 a1 a2) := fun _ =>
  congrArg _ (findRow_at 16 _ ⟨.bqLoad, "BQ.LOAD", 0x30000000#32, 0xFF00FFFF#32, 6⟩
    rfl (packCommand_idx 3 0 f) (by decide))

theorem HeadDecodes.bqStep (f ch : Nat) (x : Word) : HeadDecodes.Statement (.bqStep f ch x) := fun _ =>
  congrArg _ (findRow_at 17 _ ⟨.bqStep, "BQ.STEP", 0x31000000#32, 0xFF000FFF#32, 1⟩
    rfl (packCommand_idx_ch 3 1 f ch) (by decide))

theorem HeadDecodes.bqClear (f : Nat) : HeadDecodes.Statement (.bqClear f) := fun _ =>
  congrArg _ (findRow_at 18 _ ⟨.bqClear, "BQ.CLEAR", 0x32000000#32, 0xFF00FFFF#32, 0⟩
    rfl (packCommand_idx 3 2 f) (by decide))

theorem HeadDecodes.stConfig (fftLog2 hopLog2 : Nat) (win : Window) (mod : ModSel) :
    HeadDecodes.Statement (.stConfig fftLog2 hopLog2 win mod) := fun h =>
  have h' := Bool.and_eq_true_iff.1 h
  congrArg _ (findRow_at 19 _ ⟨.stConfig, "ST.CONFIG", 0x40000000#32, 0xFFFFFE00#32, 0⟩ rfl
    ((by decide +kernel : ∀ (l : Fin 16) (k : Fin 4), ∀ w ∈ [Window.rectangular, .bartlett, .hann, .hamming],
      ∀ m ∈ [ModSel.identity, .external], packCommand 4 0 0 0 (configImm l k w m) &&& 0xFFFFFE00#32 = 0x40000000#32)
      ⟨fftLog2, of_decide_eq_true h'.1⟩ ⟨hopLog2, of_decide_eq_true h'.2⟩ win (window_cases win) mod (modSel_cases mod))
    (by decide))

theorem HeadDecodes.stPush (ch : Nat) (x : Word) : HeadDecodes.Statement (.stPush ch x) := fun _ =>
  congrArg _ (findRow_at 20 _ ⟨.stPush, "ST.PUSH", 0x41000000#32, 0xFFFF0FFF#32, 1⟩
    rfl (packCommand_ch 4 1 ch) (by decide))

end Sys2Proof.Laws
end

