-- ==== Sys2Proof/Laws/Stft.lean ====
section
/-! SUPPORT. What `st_reinit` and the two halves of a push leave in unit ST. -/

namespace Sys2Proof.Machine

/-! Fields of a configuration word. -/

theorem fftLog2Field_lt (w : Word) : fftLog2Field w < 16 := (w.extractLsb' 0 4).isLt
theorem hopLog2Field_lt (w : Word) : hopLog2Field w < 4 := (w.extractLsb' 4 2).isLt

theorem pow_fftLog2Field_lt (w : Word) : 2 ^ fftLog2Field w < 2 ^ 32 :=
  Nat.pow_lt_pow_right (by decide) (Nat.lt_trans (fftLog2Field_lt w) (by decide))

/-! `st_reinit`. -/

variable (I : Impl Word) (st : StftUnit)

@[simp] theorem StftUnit.reinit_cfg : (st.reinit I).cfg = st.cfg := rfl
@[simp] theorem StftUnit.reinit_n : (st.reinit I).n = BitVec.ofNat 32 (2 ^ fftLog2Field st.cfg) := rfl
@[simp] theorem StftUnit.reinit_hop :
    (st.reinit I).hop = BitVec.ofNat 32 (2 ^ fftLog2Field st.cfg / 2 ^ hopLog2Field st.cfg) := rfl
@[simp] theorem StftUnit.reinit_wintab : (st.reinit I).wintab =
    st.wintab.fill (2 ^ fftLog2Field st.cfg) fun j => I.wrom (winField st.cfg) (fftLog2Field st.cfg) j := rfl
@[simp] theorem StftUnit.reinit_chans : (st.reinit I).chans = st.chans.map
    (StftChannel.restart (2 ^ fftLog2Field st.cfg) (2 ^ fftLog2Field st.cfg / 2 ^ hopLog2Field st.cfg)) := rfl
theorem StftUnit.reinit_scale : (st.reinit I).scale =
    scaleFactor I.num (hopLog2Field st.cfg) (2 ^ fftLog2Field st.cfg)
      ((st.reinit I).wintab.words (2 ^ fftLog2Field st.cfg)) := rfl

theorem StftUnit.reinit_n_toNat : (st.reinit I).n.toNat = 2 ^ fftLog2Field st.cfg := by
  rw [StftUnit.reinit_n, BitVec.toNat_ofNat, Nat.mod_eq_of_lt (pow_fftLog2Field_lt _)]

theorem StftUnit.reinit_hop_toNat :
    (st.reinit I).hop.toNat = 2 ^ fftLog2Field st.cfg / 2 ^ hopLog2Field st.cfg := by
  rw [StftUnit.reinit_hop, BitVec.toNat_ofNat,
    Nat.mod_eq_of_lt (Nat.lt_of_le_of_lt (Nat.div_le_self _ _) (pow_fftLog2Field_lt _))]

/-- The scale factor as the sum over the table words in ascending order (R244). -/
theorem scaleFactor_words (N : Num Word) (h n : Nat) (m : Mem) : scaleFactor N h n (m.words n) =
    N.fmul (N.fdiv (N.fdiv N.one (N.u2f (2 ^ h))) ((List.range n).foldl (fun acc j => N.fadd acc (m.read j)) N.zero))
      (N.u2f n) := by
  simp only [scaleFactor, Mem.words, List.foldl_map]

/-! The frame buffer. -/

variable (c : StftChannel) (exchange ch : Nat)

theorem StftChannel.frameBuffer_of_identity (h : modField st.cfg = .identity) :
    c.frameBuffer I st exchange ch = some (I.fft.inverse (fftLog2Field st.cfg) (I.fft.forward (fftLog2Field st.cfg)
      (analysisFrame I.num st.n.toNat c.inw.toNat st.wintab.read c.inr.read))) := by
  rw [StftChannel.frameBuffer, transformed, h, modified, Option.map_some]

theorem StftChannel.frameBuffer_of_external (h : modField st.cfg = .external) :
    c.frameBuffer I st exchange ch =
      let spectrum := I.fft.forward (fftLog2Field st.cfg)
        (analysisFrame I.num st.n.toNat c.inw.toNat st.wintab.read c.inr.read)
      if Config.modAnswers exchange ch spectrum then
        some (I.fft.inverse (fftLog2Field st.cfg) ((List.range st.n.toNat).map (Config.modBin exchange ch spectrum)))
      else none := by
  rw [StftChannel.frameBuffer, transformed, h, modified]
  split <;> simp_all

/-! Overlap-add. -/

/-- Overlap-add keeps the canonical form. -/
theorem wf_overlapAdd (N : Num Word) (n owr : Nat) (scale : Word) (fb : List (Cpx Word)) (m : Mem) (h : m.wf = true) :
    (overlapAdd N Mem.read Mem.write n owr scale fb m).wf = true := by
  unfold overlapAdd
  induction List.range n generalizing m with
  | nil => exact h
  | cons j js ih => exact ih _ (Mem.wf_write _ h _ _)

/-- The distinct slots of a ring. -/
theorem ring_slot_inj {n owr j k : Nat} (hj : j < n) (hk : k < n) (h : (owr + j) % n = (owr + k) % n) : j = k := by
  have hd : owr + j ≡ owr + k [MOD n] := h
  exact Nat.ModEq.eq_of_lt_of_lt (Nat.ModEq.add_left_cancel' owr hd) hj hk

/-- A fold of additions at distinct addresses adds once at each of them. -/
theorem read_foldl_add (addr : Nat → Nat) (f : Nat → Word → Word) (js : List Nat) (m : Mem) (hm : m.wf = true)
    (hd : js.Pairwise fun i j => addr i ≠ addr j) (a : Nat) :
    (∀ j ∈ js, a = addr j →
      (js.foldl (fun m j => m.write (addr j) (f j (m.read (addr j)))) m).read a = f j (m.read a)) ∧
    ((∀ j ∈ js, a ≠ addr j) → (js.foldl (fun m j => m.write (addr j) (f j (m.read (addr j)))) m).read a = m.read a) := by
  induction js generalizing m with
  | nil => simp
  | cons i js ih =>
    rw [List.pairwise_cons] at hd
    obtain ⟨h1, h2⟩ := ih (m.write (addr i) (f i (m.read (addr i)))) (Mem.wf_write _ hm _ _) hd.2
    rw [List.foldl_cons]
    refine ⟨fun j hj ha => ?_, fun ha => ?_⟩
    · rcases List.mem_cons.1 hj with rfl | hj
      · rw [h2 fun k hk hak => hd.1 k hk (by rw [← ha, hak]), Mem.read_write _ hm, if_pos ha, ha]
      · rw [h1 j hj ha, Mem.read_write _ hm, if_neg fun h => hd.1 j hj (by rw [← h, ha])]
    · rw [h2 fun j hj => ha j (List.mem_cons_of_mem _ hj), Mem.read_write _ hm, if_neg (ha i (List.mem_cons_self ..))]

/-- Overlap-add adds the scaled element `j` at slot `(OWR + j) mod N` (R250) and touches nothing at or above `N`. -/
theorem read_overlapAdd (N : Num Word) (n owr : Nat) (scale : Word) (fb : List (Cpx Word)) (m : Mem) (hm : m.wf = true)
    (hn : 0 < n) :
    (∀ j < n, (overlapAdd N Mem.read Mem.write n owr scale fb m).read ((owr + j) % n) =
      N.fadd (m.read ((owr + j) % n)) (N.fmul (fb.getD j ⟨N.zero, N.zero⟩).re scale)) ∧
    (∀ a, n ≤ a → (overlapAdd N Mem.read Mem.write n owr scale fb m).read a = m.read a) := by
  have hd : (List.range n).Pairwise fun i j => (owr + i) % n ≠ (owr + j) % n := by
    refine (List.nodup_range (n := n)).imp_of_mem fun {i j} hi hj hij h => hij ?_
    exact ring_slot_inj (List.mem_range.1 hi) (List.mem_range.1 hj) h
  refine ⟨fun j hj => ?_, fun a ha => ?_⟩
  · exact (read_foldl_add (fun j => (owr + j) % n)
      (fun j old => N.fadd old (N.fmul (fb.getD j ⟨N.zero, N.zero⟩).re scale)) _ m hm hd _).1 j (List.mem_range.2 hj) rfl
  · exact (read_foldl_add (fun j => (owr + j) % n)
      (fun j old => N.fadd old (N.fmul (fb.getD j ⟨N.zero, N.zero⟩).re scale)) _ m hm hd _).2
      fun j _ h => absurd (Nat.mod_lt (owr + j) hn) (by omega)

end Sys2Proof.Machine
end

