-- ==== Sys2Proof/Tests/Slice0.lean ====
section
/-! SUPPORT. The model's own tests, each a named theorem: what WellFormed refuses, one command word of each row written out bit by bit from the encoding of 30_encoding.md, one or two steps of each command with the results 95_test_vectors.md gives, and, for each statement with hypotheses, a state and operands that meet them. -/

namespace Sys2Proof.Tests

open Sys2Proof Sys2Proof.Machine Sys2Proof.Statements

-- One test after the other: tests the kernel evaluates would otherwise wait for each other, each on a thread of its own.
set_option Elab.async false

/-! What WellFormed refuses: one ill-formed command for each check. -/

theorem test_idx_must_fit : (Instr.spAdv 256).wellFormed = false := by decide
theorem test_ch_must_fit : (Instr.dlAdv 16).wellFormed = false := by decide
theorem test_fftLog2_must_fit : (Instr.stConfig 16 1 .hann .identity).wellFormed = false := by decide
theorem test_hopLog2_must_fit : (Instr.stConfig 9 4 .hann .identity).wellFormed = false := by decide
theorem test_bqStep_idx_must_fit : (Instr.bqStep 256 0 0#32).wellFormed = false := by decide
theorem test_bqStep_ch_must_fit : (Instr.bqStep 0 16 0#32).wellFormed = false := by decide

/-! Decoding. The bits are those of 30_encoding.md R111, R112 and R114: UNIT, FUNC, IDX, CH, IMM. -/

theorem test_decode_sysNop : decode [0b0000_0000_00000000_0000_000000000000#32] = .command .sysNop [] := by decide +kernel
theorem test_decode_sysReset : decode [0b0000_0001_00000000_0000_000000000000#32] = .command .sysReset [] := by decide +kernel
theorem test_decode_sysPrepare : decode [0b0000_0010_00000000_0000_000000000000#32, 1#32, 2#32, 3#32, 4#32] =
    .command (.sysPrepare 1#32 2#32 3#32) [4#32] := by decide +kernel
theorem test_decode_sysBegin : decode [0b0000_0011_00000000_0000_000000000000#32, 9#32] = .command (.sysBegin 9#32) [] := by decide +kernel
theorem test_decode_sysEnd : decode [0b0000_0100_00000000_0000_000000000000#32, 9#32] = .command .sysEnd [9#32] := by decide +kernel
theorem test_decode_sysRdreg : decode [0b0000_0101_00000000_0000_000000000000#32, 9#32] = .command (.sysRdreg 9#32) [] := by decide +kernel
theorem test_decode_sysRdmem : decode [0b0000_0110_00000000_1011_000000000010#32, 9#32] = .command (.sysRdmem 11 .outr 9#32) [] := by decide +kernel
theorem test_decode_spConfig : decode [0b0001_0000_10000001_0000_000000000000#32, 9#32] = .command (.spConfig 129 9#32) [] := by decide +kernel
theorem test_decode_spSettgt : decode [0b0001_0001_10000001_0000_000000000000#32, 9#32] = .command (.spSettgt 129 9#32) [] := by decide +kernel
theorem test_decode_spAdv : decode [0b0001_0010_11111110_0000_000000000000#32] = .command (.spAdv 254) [] := by decide +kernel
theorem test_decode_spSnap : decode [0b0001_0011_01111111_0000_000000000000#32] = .command (.spSnap 127) [] := by decide +kernel
theorem test_decode_dlWrite : decode [0b0010_0000_00000000_1101_000000000000#32, 9#32] = .command (.dlWrite 13 9#32) [] := by decide +kernel
theorem test_decode_dlAdv : decode [0b0010_0001_00000000_1101_000000000000#32] = .command (.dlAdv 13) [] := by decide +kernel
theorem test_decode_dlRdn : decode [0b0010_0100_00000000_0111_000000000000#32, 9#32] = .command (.dlRdn 7 9#32) [] := by decide +kernel
theorem test_decode_dlRdl : decode [0b0010_0101_00000000_1110_000000000000#32, 9#32] = .command (.dlRdl 14 9#32) [] := by decide +kernel
theorem test_decode_dlRdc : decode [0b0010_0110_00000000_0001_000000000000#32, 9#32] = .command (.dlRdc 1 9#32) [] := by decide +kernel
theorem test_decode_bqLoad : decode [0b0011_0000_10101010_0000_000000000000#32, 1#32, 2#32, 3#32, 4#32, 5#32, 6#32, 7#32] =
    .command (.bqLoad 170 1#32 2#32 3#32 4#32 5#32 6#32) [7#32] := by decide +kernel
theorem test_decode_bqStep : decode [0b0011_0001_10000001_0110_000000000000#32, 9#32] = .command (.bqStep 129 6 9#32) [] := by decide +kernel
theorem test_decode_bqClear : decode [0b0011_0010_00000111_0000_000000000000#32] = .command (.bqClear 7) [] := by decide +kernel
theorem test_decode_stConfig : decode [0b0100_0000_00000000_0000_000_1_01_10_1101#32] =
    .command (.stConfig 13 2 .bartlett .external) [] := by decide +kernel
theorem test_decode_stPush : decode [0b0100_0001_00000000_1111_000000000000#32, 9#32] = .command (.stPush 15 9#32) [] := by decide +kernel

/-- Words that 95_test_vectors.md section 2.1 calls illegal. -/
theorem test_illegal_words :
    [0x00000001#32, 0x05000001#32, 0x05001000#32, 0x06000004#32, 0x07000000#32, 0x13000100#32, 0x20010000#32, 0x22000000#32,
      0x32001000#32, 0x40000200#32, 0x41000001#32, 0x50000000#32, 0xFFFFFFFF#32].all
      (fun w => decide (decode [w] = .illegal w [])) = true := by decide +kernel
theorem test_operands_cut_off : decode [0x02000000#32, 1#32, 2#32] = .incomplete := by decide +kernel

/-! A small device and its states. -/

/-- A device with two of everything, eight delay words and transforms of up to eight points. -/
def small : Params := { nch := 2, nsp := 2, nbq := 2, dlcapMax := 8, fftMaxLog2 := 3, build := .standard }

/-- It right after reset. -/
def blank : State := State.resetOn small Ports.idle FreeCounts.zero

/-- It after `SYS.PREPARE 48000.0, 16, 8`; `STCFG` is Hann with N = 8, H = 2. -/
def prepared : State := blank.prepare small.impl 0x473B8000#32 16#32 8#32

/-- It with the block scope of port A open. -/
def inScope : State := { prepared with sys := { prepared.sys with lock := some .audio, blklen := 1#32 } }

/-- It with a fault recorded. -/
def failed : State := prepared.raise .cfg 0x02000000#32

/-- The state with other words pending on the two ports. -/
def pending (s : State) (a c : List Word) : State :=
  { s with ports := { s.ports with portA := { s.ports.portA with pending := a }, portC := { s.ports.portC with pending := c } } }

/-- The next state of an outcome. -/
def after : Host.Outcome State Fault Refusal → Option State
  | .next t => some t
  | .fault _ => none
  | .refused _ => none

/-- The last response on the port being served. -/
def lastResponse (o : Host.Outcome State Fault Refusal) : Option Response :=
  (after o).bind fun t => (t.ports.port t.ports.cur).sent.getLast?

/-- What an outcome left, of a part of the state. -/
def left {α : Type} (o : Host.Outcome State Fault Refusal) (f : State → α) : Option α := (after o).map f

theorem next_of_after {o : Host.Outcome State Fault Refusal} (h : (after o).isSome = true) : ∃ t, o = .next t := by
  cases o with
  | next t => exact ⟨t, rfl⟩
  | fault _ => exact absurd h (by simp [after])
  | refused _ => exact absurd h (by simp [after])

/-! One step of each command. -/

/-- 95_test_vectors.md 2.1. -/
theorem test_sysNop : lastResponse (exec .sysNop blank) = some ⟨0#32, 0#32⟩ := by decide +kernel
/-- 95_test_vectors.md 2.3: `STCFG` reads `0xA9` on the default device after reset. -/
theorem test_sysReset : left (exec .sysReset { State.reset with st := { State.reset.st with cfg := 0x133#32 } })
    (fun t => t.st.cfg) = some 0xA9#32 := by decide +kernel
/-- 95_test_vectors.md 4.1 S8: prepare settles a smoother and keeps its ramp length; 5.2: `STSCALE` for N = 8, Hann, hop 4. -/
theorem test_sysPrepare : left
    (exec (.sysPrepare 0x473B8000#32 16#32 8#32) { blank with sp := [⟨0x3E800000#32, 0x3F800000#32, 0x3E800000#32, 3#32, 4#32⟩, ⟨0, 0, 0, 0, 0⟩] })
    (fun t => (t.smoother 0, t.st.scale)) =
      some (⟨0x3F800000#32, 0x3F800000#32, 0#32, 0#32, 4#32⟩, 0x3F000000#32) := by decide +kernel
/-- 95_test_vectors.md 2.2: `SYS.PREPARE` with capacity 0 is `E_CFG`. -/
theorem test_sysPrepare_capacity : lastResponse (exec (.sysPrepare 0#32 0#32 0#32) blank) = some ⟨6#32, 0#32⟩ := by decide +kernel
/-- 95_test_vectors.md 2.2: `SYS.BEGIN 16` after a prepare with `MAXBLK = 16`; `STATUS` reads 5. -/
theorem test_sysBegin : left (exec (.sysBegin 16#32) prepared) (fun t => statusReg t.sys) = some 5#32 := by decide +kernel
/-- 95_test_vectors.md 2.2: `SYS.BEGIN 17` is `E_BLOCK`; `STATUS` reads 3. -/
theorem test_sysBegin_block : left (exec (.sysBegin 17#32) prepared) (fun t => (statusReg t.sys, t.sys.errcmd)) =
    some (3#32, 0x03000000#32) := by decide +kernel
/-- 95_test_vectors.md 2.2: `SYS.END` of port C while port A owns the scope is `E_SCOPE`; `STATUS` reads `0x17`. -/
theorem test_sysEnd_scope : left (exec .sysEnd { inScope with ports := { inScope.ports with cur := .control } })
    (fun t => (statusReg t.sys, t.sys.errcmd)) = some (0x17#32, 0x04000000#32) := by decide +kernel
theorem test_sysEnd : left (exec .sysEnd inScope) (fun t => t.sys.lock) = some none := by decide +kernel
/-- 95_test_vectors.md 2.3: `CAPS0` of the default device. -/
theorem test_sysRdreg : lastResponse (exec (.sysRdreg 0xC#32) State.reset) = some ⟨0#32, 0x00801002#32⟩ := by decide +kernel
/-- 95_test_vectors.md 2.3: register `0x0012` (`WIDX` of channel 2) is unmapped. -/
theorem test_sysRdreg_unmapped : lastResponse (exec (.sysRdreg 0x12#32) State.reset) = some ⟨9#32, 0#32⟩ := by decide +kernel
/-- 95_test_vectors.md 5.1: word 3 of the Hann table with N = 8. -/
theorem test_sysRdmem : lastResponse (exec (.sysRdmem 0 .wintab 3#32) prepared) = some ⟨0#32, 0x3F5A827A#32⟩ := by decide +kernel
/-- 95_test_vectors.md 2.3: `WINTAB` has channel 0 only. -/
theorem test_sysRdmem_channel : lastResponse (exec (.sysRdmem 1 .wintab 0#32) prepared) = some ⟨9#32, 0#32⟩ := by decide +kernel

/-- The prepared device with one smoother replaced. -/
def withSmoother (sm : Smoother) : State := prepared.setSmoother 0 sm

/-- 95_test_vectors.md 4.1 S7: a reconfiguration ends the ramp at its target. -/
theorem test_spConfig : left (exec (.spConfig 0 8#32) (withSmoother ⟨0x3E800000#32, 0x3F800000#32, 0x3E800000#32, 3#32, 4#32⟩))
    (fun t => t.smoother 0) = some ⟨0x3F800000#32, 0x3F800000#32, 0#32, 0#32, 8#32⟩ := by decide +kernel
/-- 95_test_vectors.md 4.1 S2: `STEP = 0x3EAAAAAB`, status `0x400`. -/
theorem test_spSettgt :
    left (exec (.spSettgt 0 0x3F800000#32) (withSmoother ⟨0#32, 0#32, 0#32, 0#32, 3#32⟩))
      (fun t => (t.smoother 0, t.ports.portA.sent)) =
      some (⟨0#32, 0x3F800000#32, 0x3EAAAAAB#32, 3#32, 3#32⟩, [⟨0x400#32, 0#32⟩]) := by decide +kernel
/-- 95_test_vectors.md 4.1 S3: the third of the ten sums. -/
theorem test_spAdv :
    lastResponse (exec (.spAdv 0) (withSmoother ⟨0x3E4CCCCD#32, 0x3F800000#32, 0x3DCCCCCD#32, 8#32, 10#32⟩)) =
      some ⟨0x400#32, 0x3E99999A#32⟩ := by decide +kernel
/-- 95_test_vectors.md 4.1 S3: the last step copies the target and clears `RAMP`. -/
theorem test_spAdv_last :
    lastResponse (exec (.spAdv 0) (withSmoother ⟨0x3F666668#32, 0x3F800000#32, 0x3DCCCCCD#32, 1#32, 10#32⟩)) =
      some ⟨0#32, 0x3F800000#32⟩ := by decide +kernel
/-- 45_numerics_fft_window.md R280, R301: a device built otherwise steps with its own `Num`. -/
theorem test_spAdv_otherBuild :
    left (exec (.spAdv 0) { withSmoother ⟨1#32, 5#32, 2#32, 8#32, 10#32⟩ with params := { small with build := .other 7 } })
      (fun t => (t.smoother 0).cur) = some ((Config.impl 7).num.fadd 1#32 2#32) := rfl
/-- 95_test_vectors.md 4.1 S5. -/
theorem test_spSnap : lastResponse (exec (.spSnap 0) (withSmoother ⟨0x40200000#32, 0x40200000#32, 0#32, 0#32, 0#32⟩)) =
    some ⟨0#32, 0x40200000#32⟩ := by decide +kernel

/-- The scope of port A, with channel 0 of the delay line given. -/
def withLine (w : Word) (ws : List Word) : State :=
  inScope.setDelayChan 0 ⟨w, Mem.fill 8 (fun a => ws.getD a 0#32) []⟩

/-- Set A of 95_test_vectors.md 3.1: 1.0 to 5.0, `w = 5`. -/
def setA : State := withLine 5#32 [0x3F800000#32, 0x40000000#32, 0x40400000#32, 0x40800000#32, 0x40A00000#32]

/-- Set B of 95_test_vectors.md 3.2: the squares 0 to 25, `w = 6`. -/
def setB : State := withLine 6#32 [0#32, 0x3F800000#32, 0x40800000#32, 0x41100000#32, 0x41800000#32, 0x41C80000#32]

/-- 95_test_vectors.md 3.3: a write at `w = 7` wraps the cursor. -/
theorem test_dlWrite : left (exec (.dlWrite 0 0x3F800000#32) (withLine 7#32 []))
    (fun t => ((t.delayChan 0).widx, t.memRead .dlmem 0 7)) = some (0#32, 0x3F800000#32) := by decide +kernel
/-- 95_test_vectors.md 3.3: `DL.ADV ch=1` moves only its own cursor. -/
theorem test_dlAdv : left (exec (.dlAdv 1) setA) (fun t => t.dl.chans.map DelayChannel.widx) = some [5#32, 1#32] := by decide +kernel
/-- 95_test_vectors.md 3.1, d = 2.5: the tie goes to the newer sample. -/
theorem test_dlRdn : lastResponse (exec (.dlRdn 0 0x40200000#32) setA) = some ⟨0#32, 0x40800000#32⟩ := by decide +kernel
/-- 95_test_vectors.md 3.2, d = 0.7, the row that rounds. -/
theorem test_dlRdl : lastResponse (exec (.dlRdl 0 0x3F333333#32) setB) = some ⟨0#32, 0x418BFFFE#32⟩ := by decide +kernel
/-- 95_test_vectors.md 3.3: a delay just above `DLCAP − 2` is `E_DL_RANGE`. -/
theorem test_dlRdl_range : lastResponse (exec (.dlRdl 0 0x40C00001#32) setA) = some ⟨7#32, 0#32⟩ := by decide +kernel
/-- 95_test_vectors.md 3.2, d = 0.7, the row that rounds. -/
theorem test_dlRdc : lastResponse (exec (.dlRdc 0 0x3F333333#32) setB) = some ⟨0#32, 0x4199B124#32⟩ := by decide +kernel
/-- 95_test_vectors.md 3.5: `w = 5`, d = 2^−21 is a zero-delay read; `w = 5` stays. -/
theorem test_dlRdc_zero : left (exec (.dlRdc 0 0x35000000#32) setA)
    (fun t => (t.dl, t.ports.portA.sent.map Response.status)) = some (setA.dl, [0x100#32]) := by decide +kernel

/-- 95_test_vectors.md 4.2 B4: the load normalises. -/
theorem test_bqLoad :
    left (exec (.bqLoad 0 0x3F4CCCCD#32 0x3FCCCCCD#32 0x3F4CCCCD#32 0x40800000#32 0xC0000000#32 0x3F800000#32) prepared)
      (fun t => (t.filter 0).coeffs) =
      some ⟨0x3E4CCCCD#32, 0x3ECCCCCD#32, 0x3E4CCCCD#32, 0x3F800000#32, 0xBF000000#32, 0x3E800000#32⟩ := by decide +kernel
/-- 95_test_vectors.md 4.2 B9: `a0 = −0.0` is `E_COEF`. -/
theorem test_bqLoad_zero : lastResponse (exec (.bqLoad 0 0x3F800000#32 0#32 0#32 0x80000000#32 0#32 0#32) prepared) =
    some ⟨8#32, 0#32⟩ := by decide +kernel
/-- 95_test_vectors.md 4.2 B3: the first step. -/
theorem test_bqStep :
    left (exec (.bqStep 0 0 0x3F800000#32) (inScope.setFilter 0
      { Filter.reset 2 with coeffs := ⟨0x3E4CCCCD#32, 0x3ECCCCCD#32, 0x3E4CCCCD#32, 0x3F800000#32, 0xBF000000#32, 0x3E800000#32⟩ }))
      (fun t => (((t.filter 0).chan 0).y1, ((t.filter 0).chan 0).s1, ((t.filter 0).chan 0).s2, (t.filter 0).chan 1)) =
      some (0x3E4CCCCD#32, 0x3F000000#32, 0x3E19999A#32, History.reset) := by decide +kernel
/-- 95_test_vectors.md 4.2 B8: the filter is clean again. -/
theorem test_bqClear :
    left (exec (.bqClear 0) (prepared.setFilter 0 ⟨Coeffs.reset, List.replicate 2 ⟨0x7FC00000#32, 1#32, 1#32, 1#32, 1#32, 1#32⟩⟩))
      (fun t => (t.filter 0).chans) = some [History.reset, History.reset] := by decide +kernel

/-- 95_test_vectors.md 5.2: `FFTLOG2 = 2`, Hamming, hop divisor 2. -/
theorem test_stConfig : left (exec (.stConfig 2 1 .hamming .identity) prepared)
    (fun t => (t.st.cfg, t.st.n, t.st.hop, t.st.scale)) = some (0xD2#32, 4#32, 2#32, 0x3F6D097B#32) := by decide +kernel
/-- 95_test_vectors.md 2.2: `HOPLOG2 = 0` is `E_CFG`. -/
theorem test_stConfig_hop : left (exec (.stConfig 9 0 .hann .identity) prepared) (fun t => (t.sys.errcode, t.sys.errcmd)) =
    some (some .cfg, 0x40000089#32) := by decide +kernel

/-- The scope of port A with N = 4, H = 2 and the Hann window, and a channel whose next push completes its second hop:
95_test_vectors.md 5.4, row `0x40000092`, after the inputs 1.0, 2.0, 3.0. -/
def beforeFrame : State :=
  { inScope with st := { (({ inScope.st with cfg := 0x92#32 } : StftUnit).reinit small.impl) with
      chans := [⟨3#32, 3#32, 0#32, 1#32, [(0, 0x3F800000#32), (1, 0x40000000#32), (2, 0x40400000#32)],
        [(0, 0x3F800000#32), (1, 0x3F800000#32)]⟩, StftChannel.reset] } }

/-- 95_test_vectors.md 5.4: the push of 4.0 runs a frame. -/
theorem test_stPush_frame : left (exec (.stPush 0 0x40800000#32) beforeFrame)
    (fun t => (t.ports.portA.sent, (t.stftChan 0).owr, (t.stftChan 0).outr.words 4)) =
      some ([⟨0x200#32, 0#32⟩], 2#32, [0x3F800000#32, 0x40000000#32, 0x40400000#32, 0x40000000#32]) := by decide +kernel
theorem test_stPush : left (exec (.stPush 0 0x3F800000#32) inScope)
    (fun t => (t.ports.portA.sent, (t.stftChan 0).cnt, t.memRead .inr 0 0)) =
      some ([⟨0#32, 0#32⟩], 1#32, 0x3F800000#32) := by decide +kernel

/-- 44_stft.md R247 (c): the results of pushing 1.0 to 8.0 with N = 8, H = 2 and the Hann window. -/
theorem test_latency :
    pushAll reference [0x3F800000#32, 0x40000000#32, 0x40400000#32, 0x40800000#32, 0x40A00000#32, 0x40C00000#32,
      0x40E00000#32, 0x41000000#32] (configured reference 3 2 .hann) =
      [0#32, 0#32, 0#32, 0x313504F3#32, 0#32, 0x32000000#32, 0#32, 0x3374AFB1#32] := by decide +kernel

/-! The step. -/

/-- 95_test_vectors.md 2.2: an illegal word on port C; `STATUS` reads `0x12`. -/
theorem test_step_illegal : left (step (pending blank [] [0x07000000#32, 0#32]))
    (fun t => (statusReg t.sys, t.sys.errcmd, t.ports.portC)) =
      some (0x12#32, 0x07000000#32, ⟨[0#32], [⟨1#32, 0#32⟩]⟩) := by decide +kernel
/-- 60_exceptions.md R323: a refused command consumes its operand words. -/
theorem test_step_refused : left (step (pending failed [0x03000000#32, 1#32, 0#32] [])) (fun t => t.ports.portA) =
    some ⟨[0#32], [⟨6#32, 0#32⟩, ⟨0x7F#32, 0#32⟩]⟩ := by decide +kernel
/-- 95_test_vectors.md 2.2: `C: ST.CONFIG` is held while port A owns the scope, and nothing else can run. -/
theorem test_step_held : left (step (pending inScope [] [0x40000089#32])) id = some (pending inScope [] [0x40000089#32]) := by
  decide +kernel

/-! Witnesses: for each statement with hypotheses, a state and operands that meet all of them, at the boundaries of its
clauses. The free values of the agent and of the interleaving (log entries 1, 6) are opaque, so a clause that names
one is met by whichever value it has. -/

theorem small_legal : small.Legal := ⟨by decide, fun h => absurd rfl h⟩
theorem blank_inv : blank.Inv := by constructor; exact small_legal; all_goals decide +kernel
theorem prepared_inv : prepared.Inv := by constructor; exact small_legal; all_goals decide +kernel
theorem inScope_inv : inScope.Inv := by constructor; exact small_legal; all_goals decide +kernel
theorem beforeFrame_inv : beforeFrame.Inv := by constructor; exact small_legal; all_goals decide +kernel
theorem prepared_ready : prepared.Ready ∧ prepared.NotLockedOut ∧ prepared.sys.lock = none := by decide +kernel
theorem inScope_ready : inScope.Ready ∧ inScope.OwnsScope ∧ inScope.NotLockedOut := by decide +kernel
theorem beforeFrame_ready : beforeFrame.Ready ∧ beforeFrame.OwnsScope := by decide +kernel

theorem witness_DecodeOfEncode :
    (Instr.bqStep 255 15 0#32).wellFormed = true ∧ (Instr.stConfig 15 3 .hamming .external).wellFormed = true ∧
      (Instr.sysRdmem 15 .wintab 0#32).wellFormed = true := by decide
theorem witness_EncodeOfDecode :
    decode [0x3107F000#32, 5#32, 6#32] = .command (.bqStep 7 15 5#32) [6#32] := by decide +kernel
theorem witness_OpcodeRowsAreDisjoint :
    let r : OpcodeRow := ⟨.bqStep, "BQ.STEP", 0x31000000#32, 0xFF000FFF#32, 1⟩
    r ∈ opcodeTable ∧ 0x31FFF000#32 &&& r.mask = r.pattern := by decide +kernel
/-- Both clauses: port C alone is enabled, and so is the one chosen. -/
theorem witness_StepRunsDecodedCommand :
    let s := pending prepared [] [0x12010000#32, 7#32]
    s.choose = some .control ∧ s.delivered .control = .command (.spAdv 1) [7#32] ∧
      s.enabled .control = true ∧ s.enabled Port.control.other = false := by decide +kernel
/-- A held and an enabled command at the head of the same port. -/
theorem witness_HeldExactlyByRule :
    (pending inScope [] [0x03000000#32, 1#32]).delivered .control = .command (.sysBegin 1#32) [] ∧
      (pending inScope [] [0x03000000#32, 1#32]).enabled .control = false ∧
      (pending prepared [] [0x03000000#32, 1#32]).delivered .control = .command (.sysBegin 1#32) [] ∧
      (pending prepared [] [0x03000000#32, 1#32]).enabled .control = true := by decide +kernel
theorem witness_OneResponsePerCommand :
    (pending blank [0#32] []).choose = some .audio ∧ ∃ t, step (pending blank [0#32] []) = .next t :=
  ⟨by decide +kernel, next_of_after (by decide +kernel)⟩
theorem witness_StuckOnlyBehindOpenScope : (pending inScope [] [0x32000000#32]).Stuck := by decide +kernel
theorem witness_StepKeepsInvariant :
    (pending inScope [0x41000000#32, 0x3F800000#32] []).Inv ∧
      ∃ t, step (pending inScope [0x41000000#32, 0x3F800000#32] []) = .next t :=
  ⟨by constructor; exact small_legal; all_goals decide +kernel, next_of_after (by decide +kernel)⟩
/-- The smallest device and the largest. -/
theorem witness_InvariantAtReset :
    (⟨1, 1, 1, 2, 2, .standard⟩ : Params).Legal ∧ (⟨16, 256, 256, 2 ^ 23, 15, .standard⟩ : Params).Legal :=
  ⟨⟨by decide, fun h => absurd rfl h⟩, ⟨by decide, fun h => absurd rfl h⟩⟩
/-- The smallest and the largest capacity. -/
theorem witness_PrepareSizesAndClears :
    blank.Inv ∧ (blank.sys.fault = false ∧ blank.sys.lock = none ∧ 1 ≤ (1#32).toNat ∧ (1#32).toNat ≤ blank.params.dlcapMax ∧
      (8#32).toNat = blank.params.dlcapMax) := ⟨blank_inv, by decide +kernel⟩
/-- The largest legal block length, and the smallest illegal one. -/
theorem witness_BeginOpensScope :
    prepared.Ready ∧ prepared.sys.lock = none ∧ (16#32).toNat ≤ prepared.sys.maxblk.toNat ∧
      prepared.sys.maxblk.toNat < (17#32).toNat := by decide +kernel
theorem witness_EndFreesScope : inScope.Ready ∧ inScope.OwnsScope := by decide +kernel
/-- The last system register, and the first unmapped address, without and with a fault recorded. -/
theorem witness_RdregReadsRegister :
    readReg failed 0xD = some (caps1 small) ∧ readReg prepared 0xE = none ∧ prepared.sys.fault = false ∧
      readReg failed 0xE = none ∧ failed.sys.fault = true := by decide +kernel
theorem witness_RegisterMapHoldsState : prepared.Inv ∧ 1 < prepared.params.nch ∧ 1 < prepared.params.nsp ∧
    1 < prepared.params.nbq := ⟨prepared_inv, by decide +kernel⟩
/-- The last register of the map of this device. -/
theorem witness_RegisterMapHasNoOthers :
    prepared.params.InRange ∧ (readReg prepared (0x4000 + 128 * 1 + 8 * 1 + 5)).isSome = true := by decide +kernel
/-- The largest device and the smallest; a command that answers a next state. -/
theorem witness_StatusAndCapsFields :
    (State.resetOn ⟨16, 256, 256, 2 ^ 23, 15, .standard⟩ Ports.idle FreeCounts.zero).params.InRange ∧
      (State.resetOn ⟨1, 1, 1, 2, 2, .other 0⟩ Ports.idle FreeCounts.zero).params.InRange ∧ (∃ t, exec .sysNop blank = .next t) :=
  ⟨by decide, by decide, next_of_after (by decide +kernel)⟩
/-- The last mapped and the first unmapped address of two spaces, and the window table of channel 1. -/
theorem witness_RdmemReadsMemory :
    prepared.params.InRange ∧ prepared.Ready ∧ 1 < prepared.params.nch ∧ 0 < prepared.params.nch ∧
      (7 < prepared.dl.cap.toNat ∧ ¬ 8 < prepared.dl.cap.toNat) ∧
      (7 < prepared.st.n.toNat ∧ ¬ 8 < prepared.st.n.toNat) ∧ ¬ (Space.wintab = .wintab → 1 = 0) := by decide +kernel
theorem witness_SpConfigSetsRampLength : prepared.Ready ∧ 1 < prepared.params.nsp := by decide +kernel
/-- A smoother without a ramp length, and one with the shortest. -/
theorem witness_SpSettgtSchedulesRamp :
    (withSmoother ⟨0#32, 0#32, 0#32, 0#32, 1#32⟩).Ready ∧ 0 < small.nsp ∧ 1 < small.nsp ∧
      ((withSmoother ⟨0#32, 0#32, 0#32, 0#32, 1#32⟩).smoother 0).rampLen ≠ 0#32 ∧
      ((withSmoother ⟨0#32, 0#32, 0#32, 0#32, 1#32⟩).smoother 1).rampLen = 0#32 := by decide +kernel
/-- No, one and two steps left. -/
theorem witness_SpAdvStepsRamp :
    ((withSmoother ⟨0#32, 0#32, 0#32, 0#32, 4#32⟩).Ready ∧ (withSmoother ⟨0#32, 0#32, 0#32, 0#32, 4#32⟩).sp.length = (withSmoother ⟨0#32, 0#32, 0#32, 0#32, 4#32⟩).params.nsp ∧
      ((withSmoother ⟨0#32, 0#32, 0#32, 0#32, 4#32⟩).smoother 0).rem = 0#32) ∧
    ((withSmoother ⟨0#32, 0#32, 0#32, 1#32, 4#32⟩).Ready ∧ (withSmoother ⟨0#32, 0#32, 0#32, 1#32, 4#32⟩).sp.length = (withSmoother ⟨0#32, 0#32, 0#32, 1#32, 4#32⟩).params.nsp ∧
      ((withSmoother ⟨0#32, 0#32, 0#32, 1#32, 4#32⟩).smoother 0).rem = 1#32) ∧
    ((withSmoother ⟨0#32, 0#32, 0#32, 2#32, 4#32⟩).Ready ∧ (withSmoother ⟨0#32, 0#32, 0#32, 2#32, 4#32⟩).sp.length = (withSmoother ⟨0#32, 0#32, 0#32, 2#32, 4#32⟩).params.nsp ∧
      ((withSmoother ⟨0#32, 0#32, 0#32, 2#32, 4#32⟩).smoother 0).rem = 2#32) ∧
    (0 < small.nsp ∧ 2 ≤ (2#32).toNat) := by decide +kernel
theorem witness_SpSnapReadsCurrent : prepared.Ready ∧ 1 < prepared.params.nsp := by decide +kernel

/-- A smoother with a ramp of two steps. -/
def ramped : State := withSmoother ⟨0#32, 0#32, 0#32, 0#32, 2#32⟩

/-- The state after the ramp is scheduled. -/
def scheduled : State := (after (issueAll [(.control, .spSettgt 0 0x3F800000#32)] ramped)).getD blank

/-- All the steps of the ramp, with a command between them, and fewer than all. -/
theorem witness_RampConvergesExactly :
    (ramped.Ready ∧ 0 < ramped.params.nsp ∧ ramped.sp.length = ramped.params.nsp) ∧
    (after (issueAll [(.control, .spSettgt 0 0x3F800000#32)] ramped)) = some scheduled ∧
    (∀ is ∈ [[(Port.audio, Instr.spAdv 0), (.control, .sysBegin 1#32), (.control, .spAdv 0)], [(.audio, .spAdv 0)]],
      (∀ c ∈ is, setsSmoother 0 c.2 = false) ∧
      ((after (issueAll is scheduled)).map fun t => t.sys.fault) = some false) ∧
    ([Instr.spAdv 0, .sysBegin 1#32, .spAdv 0].count (.spAdv 0) = (ramped.smoother 0).rampLen.toNat ∧
      [Instr.spAdv 0].count (.spAdv 0) < (ramped.smoother 0).rampLen.toNat) := by decide +kernel

theorem witness_DlWriteStoresAtCursor :
    inScope.Inv ∧ inScope.Ready ∧ inScope.OwnsScope ∧ 1 < inScope.params.nch := ⟨inScope_inv, by decide +kernel⟩
theorem witness_DlAdvMovesCursor :
    inScope.Inv ∧ inScope.Ready ∧ inScope.OwnsScope ∧ 1 < inScope.params.nch := ⟨inScope_inv, by decide +kernel⟩
/-- The legal delays 0 (a zero-delay read), 2.5 and the largest, 6.0. -/
theorem witness_DelayReadsInterpolate :
    (setA.Ready ∧ setA.OwnsScope ∧ 0 < setA.params.nch ∧ 2 ≤ setA.dl.cap.toNat) ∧
    (legalDelay setA.params.impl.num setA.dl.cap.toNat 0#32 = true ∧
      legalDelay setA.params.impl.num setA.dl.cap.toNat 0x40200000#32 = true ∧
      legalDelay setA.params.impl.num setA.dl.cap.toNat 0x40C00000#32 = true) ∧
    (setA.zeroDelayRead 0 0#32 = true ∧ setA.zeroDelayRead 0 0x40200000#32 = false ∧
      setA.zeroDelayRead 0 0x40C00000#32 = false) := by decide +kernel
/-- A line of one word; a NaN; the negative number nearest to zero; the number just above `DLCAP − 2`. -/
theorem witness_IllegalDelayFaults :
    (setA.params.InRange ∧ setA.Ready ∧ setA.OwnsScope ∧ 0 < setA.params.nch) ∧
    (({ setA with dl := { setA.dl with cap := 1#32 } } : State).Ready ∧ (1#32).toNat < 2) ∧ setA.params.impl.num.isnan 0x7FC00000#32 = true ∧
    setA.params.impl.num.fle setA.params.impl.num.zero 0x80000001#32 = false ∧
    setA.params.impl.num.fle 0x40C00001#32 (setA.params.impl.num.u2f (setA.dl.cap.toNat - 2)) = false := by decide +kernel
/-- The shortest line with delay −0.0, and the longest with the largest delay at the last cursor. -/
theorem witness_ReadPositionInBuffer :
    ((2 : Nat) ≤ 2 ∧ 1 < 2 ∧ isNaN 0x80000000#32 = false ∧ fle 0#32 0x80000000#32 = true ∧ fle 0x80000000#32 (u2f (2 - 2)) = true) ∧
    (2 ^ 23 - 1 < 2 ^ 23 ∧ isNaN (u2f (2 ^ 23 - 2)) = false ∧ fle 0#32 (u2f (2 ^ 23 - 2)) = true ∧
      fle (u2f (2 ^ 23 - 2)) (u2f (2 ^ 23 - 2)) = true) := by decide +kernel
/-- The small device computes with the default numerics. -/
theorem small_num : small.impl.num = binary32 := by rw [Params.impl_of_standard rfl, reference_num]

/-- The integer delays 0, 1 and `DLCAP − 2`. -/
theorem witness_IntegerDelayIsBitExact :
    inScope.params.impl.num = binary32 ∧ inScope.Inv ∧ (inScope.Ready ∧ inScope.OwnsScope ∧ 1 < inScope.params.nch ∧ 0 + 2 ≤ inScope.dl.cap.toNat ∧
      1 + 2 ≤ inScope.dl.cap.toNat ∧ 6 + 2 = inScope.dl.cap.toNat) := ⟨small_num, inScope_inv, by decide +kernel⟩
/-- The delays 1 and `DLCAP − 2` after ten writes, two more than the line holds. -/
theorem witness_DelayReturnsPastSample :
    inScope.params.impl.num = binary32 ∧ inScope.Inv ∧ (inScope.Ready ∧ inScope.OwnsScope ∧ 1 < inScope.params.nch ∧ 1 ≤ 1 ∧ 6 + 2 ≤ inScope.dl.cap.toNat ∧
      6 ≤ (List.replicate 10 0x3F800000#32).length) := ⟨small_num, inScope_inv, by decide +kernel⟩

/-- Exact arithmetic over a field with a decidable order. -/
def exactNum (α : Type) [Field α] [LinearOrder α] [FloorSemiring α] : Num α :=
  { fadd := (· + ·), fsub := (· - ·), fmul := (· * ·), fdiv := (· / ·), fmod := fun a b => a - b * (⌊a / b⌋₊ : α),
    fneg := fun a => -a, flt := fun a b => decide (a < b), fle := fun a b => decide (a ≤ b), feq := fun a b => decide (a = b),
    isnan := fun _ => false, isfinite := fun _ => true, u2f := fun n => n, ffloorU := fun a => ⌊a⌋₊,
    zero := 0, half := 1 / 2, negHalf := -1 / 2, one := 1, threeHalves := 3 / 2, two := 2, fiveHalves := 5 / 2,
    pow2neg := fun l => 1 / 2 ^ l }

theorem exactNum_exact (α : Type) [Field α] [LinearOrder α] [FloorSemiring α] : Exact (exactNum α) := by
  constructor <;> simp [exactNum]

theorem witness_InterpolationIsContinuous : ∃ N : Num ℝ, Exact N := ⟨_, exactNum_exact ℝ⟩
/-- A legal `a0` (the smallest subnormal), and two illegal ones. -/
theorem witness_BqLoadNormalises :
    (prepared.params.InRange ∧ prepared.Ready ∧ prepared.NotLockedOut ∧ 1 < prepared.params.nbq) ∧
    (legalA0 prepared.params.impl.num 0x00000001#32 = true ∧ prepared.params.impl.num.isnan 0x7FC00000#32 = true ∧
      prepared.params.impl.num.isfinite 0x7F800000#32 = false ∧
      prepared.params.impl.num.feq 0x80000000#32 prepared.params.impl.num.zero = true) := by decide +kernel
theorem witness_DivisionByOneIsIdentity :
    isNaN 0x80000001#32 = false ∧ isNaN 0xFF800000#32 = false ∧ isNaN 0x7F7FFFFF#32 = false := by decide +kernel
theorem witness_BqStepRunsRecurrence :
    inScope.Ready ∧ inScope.OwnsScope ∧ 1 < inScope.params.nbq ∧ 1 < inScope.params.nch := by decide +kernel
theorem witness_BqClearZeroesState :
    prepared.Inv ∧ prepared.Ready ∧ prepared.NotLockedOut ∧ 1 < prepared.params.nbq := ⟨prepared_inv, by decide +kernel⟩
theorem witness_BiquadRealisesSection : ∃ N : Num ℚ, Exact N := ⟨_, exactNum_exact ℚ⟩
/-- The smallest configuration, `N = 4` and `H = 1`, and the largest `N` of this device. -/
theorem witness_StConfigReinitialises :
    prepared.Inv ∧ (prepared.Ready ∧ prepared.NotLockedOut ∧ 2 ≤ prepared.params.fftMaxLog2 ∧ 3 = prepared.params.fftMaxLog2) :=
  ⟨prepared_inv, by decide +kernel⟩
theorem witness_PushBetweenFrames :
    inScope.Inv ∧ (inScope.Ready ∧ inScope.OwnsScope ∧ 1 < inScope.params.nch ∧
      (inScope.stftChan 1).cnt.toNat + 1 < inScope.st.hop.toNat) := ⟨inScope_inv, by decide +kernel⟩
theorem witness_PushRunsIdentityFrame :
    beforeFrame.Inv ∧ (beforeFrame.Ready ∧ beforeFrame.OwnsScope ∧ 0 < beforeFrame.params.nch ∧
      beforeFrame.st.hop.toNat = (beforeFrame.stftChan 0).cnt.toNat + 1 ∧ modField beforeFrame.st.cfg = .identity) :=
  ⟨beforeFrame_inv, by decide +kernel⟩

/-- `beforeFrame` with the agent selected. -/
def beforeExchange : State := { beforeFrame with st := { beforeFrame.st with cfg := 0x192#32 } }

/-- One of the two clauses is met: whether the agent answers is a free value (log entry 6). -/
theorem witness_PushRunsAgentFrame :
    beforeExchange.Inv ∧ (beforeExchange.Ready ∧ beforeExchange.OwnsScope ∧ 0 < beforeExchange.params.nch ∧
      beforeExchange.st.hop.toNat = (beforeExchange.stftChan 0).cnt.toNat + 1 ∧ modField beforeExchange.st.cfg = .external) ∧
    (∀ spectrum, Config.modAnswers beforeExchange.free.mods 0 spectrum = true ∨
      Config.modAnswers beforeExchange.free.mods 0 spectrum = false) :=
  ⟨by constructor; exact small_legal; all_goals decide +kernel, by decide +kernel, fun _ => Bool.eq_false_or_eq_true _⟩
/-- `N = 8`, `H = 4`: the longest run without a frame, three pushes; the fourth push answers a next state. -/
theorem witness_FirstHopIsSilent :
    inScope.Inv ∧ (inScope.Ready ∧ inScope.OwnsScope ∧ 1 < inScope.params.nch ∧ 3 ≤ inScope.params.fftMaxLog2 ∧
      [1#32, 2#32, 3#32].length < 2 ^ 3 / 2 ^ 1) ∧
    (after (execAll [.stConfig 3 1 .hann .identity, .stPush 1 1#32, .stPush 1 2#32, .stPush 1 3#32, .stPush 1 4#32]
      inScope)).isSome = true := ⟨inScope_inv, by decide +kernel, by decide +kernel⟩

/-- A state that agrees with `inScope` on channel 0 of unit ST and differs elsewhere. -/
def elsewhere : State :=
  ({ inScope with sp := [] } : State).setStftChan 1 ⟨1#32, 1#32, 2#32, 1#32, [], []⟩

/-- For the first clause a state that differs in another channel and another unit; the second takes channels 0 and 1. -/
theorem witness_ChannelsAreIndependent :
    inScope.params.impl = elsewhere.params.impl ∧ inScope.Inv ∧ ({ elsewhere with sp := inScope.sp } : State).Inv ∧
    (({ elsewhere with sp := inScope.sp } : State).Ready ∧ ({ elsewhere with sp := inScope.sp } : State).OwnsScope ∧
      modField inScope.st.cfg = .identity ∧ { inScope.st with chans := [] } = { elsewhere.st with chans := [] } ∧
      inScope.stftChan 0 = elsewhere.stftChan 0 ∧ inScope.stftChan 1 ≠ elsewhere.stftChan 1) ∧
    (inScope.Ready ∧ inScope.OwnsScope ∧ 0 < inScope.params.nch ∧ 1 < inScope.params.nch ∧ 0 ≠ 1) ∧
    (∃ t, exec (.stPush 0 1#32) inScope = .next t) ∧
    (∃ t, exec (.stPush 0 1#32) { elsewhere with sp := inScope.sp } = .next t) :=
  ⟨rfl, inScope_inv, by constructor; exact small_legal; all_goals decide +kernel, by decide +kernel, by decide +kernel, next_of_after (by decide +kernel),
    next_of_after (by decide +kernel)⟩
/-- The largest finite word and the smallest subnormal; for the special results an infinity, a zero, a NaN and a sum that is zero. -/
theorem witness_ArithmeticIsCorrectlyRounded :
    (small.build = .standard ∧ isFinite 0x7F7FFFFF#32 = true ∧ isFinite 0x80000001#32 = true ∧ isInf 0xFF800000#32 = true ∧
      isInf 0x7F800000#32 = true ∧ 0xFF800000#32 ≠ 0x7F800000#32 ∧ isNaN 0x7F800001#32 = true ∧ isNaN 0xFF800000#32 = false ∧
      isNaN (fmul 0x80000001#32 0x80000000#32) = false ∧ isNaN (fdiv 0x80000001#32 0x80000000#32) = false) ∧
    IsZero 0x80000000#32 ∧ ¬ IsZero 0x80000001#32 ∧ value 0x80000001#32 ≠ 0 ∧ value 0x80000001#32 + value 0x00000001#32 = 0 := by
  have h : scaledValue 0x80000001#32 = -1 := by decide +kernel
  have h' : scaledValue 0x00000001#32 = 1 := by decide +kernel
  refine ⟨by decide +kernel, .inr rfl, by simp [IsZero], ?_, ?_⟩ <;> norm_num [value, h, h']
/-- 5.0 and 3.0; the greatest integers of the first two clauses. -/
theorem witness_ConversionsAreExact :
    (2 ^ 32 - 1 < 2 ^ 32 ∧ 2 ^ 24 ≤ 2 ^ 24 ∧ 2 ^ 24 - 1 < 2 ^ 24 ∧ (2 ^ 24 - 1) * 2 ^ 8 < 2 ^ 32) ∧
    (isFinite 0x40A00000#32 = true ∧ isFinite 0x40400000#32 = true) ∧
    0 ≤ value 0x40A00000#32 ∧ value 0x40A00000#32 < 2 ^ 31 ∧ 0 < value 0x40400000#32 := by
  have h : scaledValue 0x40A00000#32 = 5 * 2 ^ 149 := by decide +kernel
  have h' : scaledValue 0x40400000#32 = 3 * 2 ^ 149 := by decide +kernel
  refine ⟨by decide, by decide +kernel, ?_, ?_, ?_⟩ <;> norm_num [value, h, h']
theorem witness_BartlettWindowIsExact : small.build = .standard ∧ 2 ≤ 15 ∧ 15 ≤ 15 ∧ 2 ^ 15 - 1 < 2 ^ 15 := by decide

/-- The twiddle factors as real numbers. -/
noncomputable def exactTwiddles : Twiddles ℝ :=
  { cosine := fun l k => Real.cos (2 * Real.pi * k / 2 ^ l), sine := fun l k => Real.sin (2 * Real.pi * k / 2 ^ l) }

/-- The three clauses; the pair that hands its argument back meets the last. -/
theorem witness_Radix2IsFourierTransform :
    small.build = .standard ∧
    (∃ (N : Num ℝ) (tw : Twiddles ℝ) (a : List (Cpx ℝ)), Exact N ∧
      (∀ k, tw.cosine 1 k = Real.cos (2 * Real.pi * k / 2 ^ 1)) ∧ (∀ k, tw.sine 1 k = Real.sin (2 * Real.pi * k / 2 ^ 1)) ∧
      a.length = 2 ^ 1) ∧
    (∃ I : Impl ℝ, Exact I.num ∧ ∀ a, a.length = 2 ^ 2 → I.fft.inverse 2 (I.fft.forward 2 a) = a) :=
  ⟨rfl, ⟨_, exactTwiddles, [⟨1, 0⟩, ⟨0, 1⟩], exactNum_exact ℝ, fun _ => rfl, fun _ => rfl, rfl⟩,
    ⟨⟨exactNum ℝ, ⟨fun _ a => a, fun _ a => a⟩, fun _ _ _ => 1⟩, exactNum_exact ℝ, fun _ _ => rfl⟩⟩

/-- A refused command, and an illegal word. -/
theorem witness_RefusedWhileFault :
    (failed.sys.fault = true ∧ (pending failed [] [0x04000000#32]).delivered .control ≠ .incomplete ∧
      (pending failed [] [0x04000000#32]).choose = some .control ∧
      (pending failed [] [0x04000000#32]).delivered .control = .command .sysEnd [] ∧ Instr.sysEnd ≠ .sysReset ∧
      Instr.sysEnd ≠ .sysNop ∧ (pending failed [] [0x07000000#32]).choose = some .control ∧
      (pending failed [] [0x07000000#32]).delivered .control = .illegal 0x07000000#32 []) ∧
    (∀ addr, Instr.sysEnd ≠ .sysRdreg addr) := ⟨by decide +kernel, fun _ h => Instr.noConfusion h⟩
theorem witness_IllegalWordFaults :
    (pending blank [] [0x07000000#32, 0#32]).choose = some .control ∧
      (pending blank [] [0x07000000#32, 0#32]).delivered .control = .illegal 0x07000000#32 [0#32] ∧
      (pending blank [] [0x07000000#32, 0#32]).sys.fault = false := by decide +kernel
/-- The first index out of range of each kind, before prepare. -/
theorem witness_IndexOutOfRangeFaults :
    blank.sys.fault = false ∧ blank.params.nch ≤ 2 ∧ blank.params.nsp ≤ 2 ∧ blank.params.nbq ≤ 2 := by decide
theorem witness_NotPreparedFaults :
    blank.sys.fault = false ∧ blank.sys.prepared = false ∧ ¬ OutOfRange blank.params (.spAdv 1) ∧ Instr.spAdv 1 ≠ .sysNop ∧
      Instr.spAdv 1 ≠ .sysReset ∧ (∀ srate maxblk cap, Instr.spAdv 1 ≠ .sysPrepare srate maxblk cap) ∧
      (∀ addr, Instr.spAdv 1 ≠ .sysRdreg addr) :=
  ⟨by decide, by decide, by simp [OutOfRange, blank, State.resetOn, small], by decide, by decide, fun _ _ _ h => Instr.noConfusion h, fun _ h => Instr.noConfusion h⟩
/-- Processing outside any scope, a nested scope, and a scope the other port waits for. -/
theorem witness_ScopeViolationFaults :
    (ClassP (.dlAdv 1) ∧ ClassR (.bqClear 0) ∧ ¬ OutOfRange prepared.params (.dlAdv 1) ∧
      ¬ OutOfRange inScope.params (.sysBegin 1#32)) ∧
    (prepared.Ready ∧ ¬ prepared.OwnsScope) ∧ (inScope.Ready ∧ inScope.OwnsScope) ∧
    ((pending inScope [] [0x03000000#32, 1#32]).Ready ∧
      (pending inScope [] [0x03000000#32, 1#32]).delivered .control = .command (.sysBegin 1#32) [] ∧
      (pending inScope [] [0x03000000#32, 1#32]).sys.lock = some Port.control.other) :=
  ⟨⟨trivial, trivial, show ¬ (2 : Nat) ≤ 1 by decide, not_false⟩, by decide +kernel⟩
/-- Each bound of a configuration and of a capacity, broken by one. -/
theorem witness_BadConfigurationFaults :
    (prepared.Ready ∧ prepared.NotLockedOut) ∧ (1 < 2 ∧ prepared.params.fftMaxLog2 < 4 ∧ 0 < 1 ∧ 2 < 3) ∧
    (blank.sys.fault = false ∧ blank.sys.lock = none ∧ blank.params.dlcapMax < (9#32).toNat) := by decide +kernel
theorem witness_FaultsArePrecise :
    ∃ t r, exec (.spAdv 2) prepared = .next t ∧ t.ports = prepared.ports.send r ∧ r.status.extractLsb' 0 8 ≠ 0#8 := by
  obtain ⟨t, h⟩ := next_of_after (o := exec (.spAdv 2) prepared) (by decide +kernel)
  refine ⟨t, ⟨2#32, 0#32⟩, h, ?_, by decide⟩
  have : ((after (exec (.spAdv 2) prepared)).map State.ports) = some (prepared.ports.send ⟨2#32, 0#32⟩) := by decide +kernel
  rw [h] at this
  exact Option.some.inj this
/-- A step that executes `SYS.RESET`, and one that refuses a command. -/
theorem witness_FrozenAfterFault :
    (pending failed [0x01000000#32] []).sys.fault = true ∧ (pending failed [0x32000000#32] []).sys.fault = true ∧
      (∃ t, step (pending failed [0x01000000#32] []) = .next t) ∧ (∃ t, step (pending failed [0x32000000#32] []) = .next t) :=
  ⟨by decide +kernel, by decide +kernel, next_of_after (by decide +kernel), next_of_after (by decide +kernel)⟩
/-- A command held on port C and, on port A, a command a step serves. -/
theorem witness_OnlyTheAgentCanHang :
    Held { inScope with ports := { inScope.ports with cur := .control } } .control (.bqClear 0) ∧
    (pending inScope [0x04000000#32] [0x32000000#32]).choose = some .audio ∧
      (pending inScope [0x04000000#32] [0x32000000#32]).delivered .audio = .command .sysEnd [] ∧
      (pending inScope [0x04000000#32] [0x32000000#32]).delivered .control = .command (.bqClear 0) [] :=
  ⟨⟨nofun, by decide +kernel, show ¬ (2 : Nat) ≤ 0 by decide, .inl (by decide +kernel), .inl trivial, by decide +kernel⟩,
    by decide +kernel⟩
/-- A command that answers and changes the owner of the scope. -/
theorem witness_OnlyOwnersWrite :
    ∃ t, exec (.sysBegin 1#32) prepared = .next t ∧ Instr.sysBegin 1#32 ≠ .sysReset ∧ t.sys.lock ≠ prepared.sys.lock := by
  obtain ⟨t, h⟩ := next_of_after (o := exec (.sysBegin 1#32) prepared) (by decide +kernel)
  refine ⟨t, h, by decide, ?_⟩
  have : ((after (exec (.sysBegin 1#32) prepared)).map fun t => t.sys.lock) = some (some .audio) := by decide +kernel
  rw [h] at this
  exact fun he => absurd (he.symm.trans (Option.some.inj this)) (by decide +kernel)
theorem witness_ScopeShutsOutOtherPort :
    (pending inScope [] [0x11000000#32, 0#32]).sys.lock = some .audio ∧
      (pending inScope [] [0x11000000#32, 0#32]).choose = some Port.audio.other ∧
      ∃ t, step (pending inScope [] [0x11000000#32, 0#32]) = .next t :=
  ⟨by decide +kernel, by decide +kernel, next_of_after (by decide +kernel)⟩

end Sys2Proof.Tests
end

section
/-! PROOFS. What a command that gives a next state can leave, said once for all commands. -/

namespace Sys2Proof.Machine

/-- What a command leaves of the block when the common checks let it through and it raises no fault; its response is
not yet sent. -/
inductive Performed (s : State) : Instr → State → Prop
  | reads (i : Instr) (free : FreeCounts) : Performed s i { s with free := free }
  | reset : Performed s .sysReset s.hardwareReset
  | prepare (srate maxblk cap : Word) : legalCapacity s.params cap = true →
      Performed s (.sysPrepare srate maxblk cap) (s.prepare s.params.impl srate maxblk cap)
  | openScope (n : Word) : n.toNat ≤ s.sys.maxblk.toNat →
      Performed s (.sysBegin n) { s with sys := { s.sys with lock := some s.ports.cur, blklen := n } }
  | closeScope : Performed s .sysEnd { s with sys := { s.sys with lock := none } }
  | configureSmoother (k : Nat) (n : Word) :
      Performed s (.spConfig k n) (s.setSmoother k ((s.smoother k).configure n))
  | targetSmoother (k : Nat) (v : Word) :
      Performed s (.spSettgt k v) (s.setSmoother k ((s.smoother k).setTarget s.params.impl.num v))
  | advanceSmoother (k : Nat) :
      Performed s (.spAdv k) (s.setSmoother k ((s.smoother k).advance s.params.impl.num))
  | writeDelay (ch : Nat) (x : Word) :
      Performed s (.dlWrite ch x) (s.setDelayChan ch ((s.delayChan ch).push s.dl.cap.toNat x))
  | advanceDelay (ch : Nat) : Performed s (.dlAdv ch) (s.setDelayChan ch ((s.delayChan ch).bump s.dl.cap.toNat))
  | loadFilter (f : Nat) (b0 b1 b2 a0 a1 a2 : Word) :
      Performed s (.bqLoad f b0 b1 b2 a0 a1 a2)
        (s.setFilter f { s.filter f with coeffs := normalise s.params.impl.num 0x3F800000#32 b0 b1 b2 a0 a1 a2 })
  | stepFilter (f ch : Nat) (x : Word) (h : History Word) :
      Performed s (.bqStep f ch x) (s.setFilter f { s.filter f with chans := (s.filter f).chans.set ch h })
  | clearFilter (f : Nat) : Performed s (.bqClear f) (s.setFilter f (s.filter f).clear)
  | configure (l h : Nat) (win : Window) (mod : ModSel) : legalConfig s.params l h = true →
      Performed s (.stConfig l h win mod)
        { s with st := ({ s.st with cfg := configWord l h win mod } : StftUnit).reinit s.params.impl }
  | push (ch : Nat) (x : Word) : ((s.stftChan ch).shift s.st.n.toNat x).cnt.toNat < s.st.hop.toNat →
      Performed s (.stPush ch x) (s.setStftChan ch ((s.stftChan ch).shift s.st.n.toNat x))
  | frame (ch : Nat) (x : Word) (fb : List (Cpx Word)) (free : FreeCounts) :
      Performed s (.stPush ch x) { s.setStftChan ch
        (((s.stftChan ch).shift s.st.n.toNat x).resynthesise s.params.impl.num s.st fb) with free := free }

/-- An outcome that, where it is a next state, is a fault of command `i` or the answer to what `i` performs. -/
def Completes (i : Instr) (s : State) (o : Host.Outcome State Fault Refusal) : Prop :=
  ∀ t, o = .next t → (∃ e, t = s.raise e i.commandWord) ∨ ∃ u r, Performed s i u ∧ t = u.respond r

variable {i : Instr} {s t u : State}

theorem completes_answer (h : Performed s i u) (data : Word) (f : Flags) : Completes i s (answer u data f) := by
  intro t ht
  exact .inr ⟨u, _, h, (Host.Outcome.next.inj ht).symm⟩

theorem completes_failWith (e : ErrCode) (i : Instr) (s : State) : Completes i s (failWith e i s) := by
  intro t ht
  exact .inl ⟨e, (Host.Outcome.next.inj ht).symm⟩

theorem completes_delayRead (mode : Interpolation) (ch : Nat) (d : Word) : Completes i s (delayRead i mode ch d s) := by
  unfold delayRead
  split
  · split
    · exact completes_answer (.reads i _) _ _
    · exact completes_answer (.reads i s.free) _ _
  · exact completes_failWith _ _ _

theorem completes_pushSample (ch : Nat) (x : Word) :
    Completes (.stPush ch x) s (pushSample s.params.impl ch x s) := by
  unfold pushSample
  dsimp only
  split
  · split
    · rw [State.countExchange_eq]
      exact completes_answer (.frame ch x _ _) _ _
    · intro t ht
      cases ht
  · rename_i hop
    refine completes_answer (.push ch x ?_) _ _
    simpa [hopReached] using hop

/-- A command that gives a next state is held, is refused, faults, or passes the common checks and is performed. -/
theorem runCommand_next {f : State → Host.Outcome State Fault Refusal} (h : runCommand i s f = .next t)
    (hf : Completes i s (f s)) :
    t = s ∨ t = s.respond Response.refused ∨ (∃ e, t = s.raise e i.commandWord) ∨
      ∃ u r, examine i s.ports.cur s = .go ∧ Performed s i u ∧ t = u.respond r := by
  obtain ⟨hgo, hrun⟩ | ⟨-, hrun⟩ | ⟨-, hrun⟩ | ⟨e, -, hrun⟩ := runCommand_cases i s f <;> rw [hrun] at h
  · obtain hfault | ⟨u, r, hu, ht⟩ := hf t h
    · exact .inr (.inr (.inl hfault))
    · exact .inr (.inr (.inr ⟨u, r, hgo, hu, ht⟩))
  · exact .inr (.inl (Host.Outcome.next.inj h).symm)
  · exact .inl (Host.Outcome.next.inj h).symm
  · exact .inr (.inr (.inl ⟨e, (Host.Outcome.next.inj h).symm⟩))

/-- All that `exec` can leave where it gives a next state. -/
theorem exec_next (h : exec i s = .next t) :
    t = s ∨ t = s.respond Response.refused ∨ (∃ e, t = s.raise e i.commandWord) ∨
      ∃ u r, examine i s.ports.cur s = .go ∧ Performed s i u ∧ t = u.respond r := by
  cases i with
  | sysNop =>
    dsimp only [exec, execSysNop] at h
    exact runCommand_next h (completes_answer (.reads _ s.free) _ _)
  | sysReset =>
    dsimp only [exec, execSysReset] at h
    exact runCommand_next h (completes_answer .reset _ _)
  | sysPrepare srate maxblk cap =>
    dsimp only [exec, execSysPrepare] at h
    refine runCommand_next h ?_
    split
    · exact completes_answer (.prepare _ _ _ ‹_›) _ _
    · exact completes_failWith _ _ _
  | sysBegin n =>
    dsimp only [exec, execSysBegin] at h
    refine runCommand_next h ?_
    split
    · exact completes_failWith _ _ _
    · exact completes_answer (.openScope n (Nat.le_of_not_lt ‹_›)) _ _
  | sysEnd =>
    dsimp only [exec, execSysEnd] at h
    exact runCommand_next h (completes_answer .closeScope _ _)
  | sysRdreg addr =>
    dsimp only [exec, execSysRdreg] at h
    refine runCommand_next h ?_
    split
    · exact completes_answer (.reads _ s.free) _ _
    · exact completes_failWith _ _ _
  | sysRdmem ch space addr =>
    dsimp only [exec, execSysRdmem] at h
    refine runCommand_next h ?_
    split
    · exact completes_answer (.reads _ s.free) _ _
    · exact completes_failWith _ _ _
  | spConfig k n =>
    dsimp only [exec, execSpConfig] at h
    exact runCommand_next h (completes_answer (.configureSmoother k n) _ _)
  | spSettgt k v =>
    dsimp only [exec, execSpSettgt] at h
    exact runCommand_next h (completes_answer (.targetSmoother k v) _ _)
  | spAdv k =>
    dsimp only [exec, execSpAdv] at h
    exact runCommand_next h (completes_answer (.advanceSmoother k) _ _)
  | spSnap k =>
    dsimp only [exec, execSpSnap] at h
    exact runCommand_next h (completes_answer (.reads _ s.free) _ _)
  | dlWrite ch x =>
    dsimp only [exec, execDlWrite] at h
    exact runCommand_next h (completes_answer (.writeDelay ch x) _ _)
  | dlAdv ch =>
    dsimp only [exec, execDlAdv] at h
    exact runCommand_next h (completes_answer (.advanceDelay ch) _ _)
  | dlRdn ch d =>
    dsimp only [exec, execDlRdn] at h
    exact runCommand_next h (completes_delayRead _ _ _)
  | dlRdl ch d =>
    dsimp only [exec, execDlRdl] at h
    exact runCommand_next h (completes_delayRead _ _ _)
  | dlRdc ch d =>
    dsimp only [exec, execDlRdc] at h
    exact runCommand_next h (completes_delayRead _ _ _)
  | bqLoad f b0 b1 b2 a0 a1 a2 =>
    dsimp only [exec, execBqLoad] at h
    refine runCommand_next h ?_
    split
    · exact completes_answer (.loadFilter f b0 b1 b2 a0 a1 a2) _ _
    · exact completes_failWith _ _ _
  | bqStep f ch x =>
    dsimp only [exec, execBqStep] at h
    exact runCommand_next h (completes_answer (.stepFilter f ch x _) _ _)
  | bqClear f =>
    dsimp only [exec, execBqClear] at h
    exact runCommand_next h (completes_answer (.clearFilter f) _ _)
  | stConfig l k win mod =>
    dsimp only [exec, execStConfig] at h
    refine runCommand_next h ?_
    split
    · exact completes_answer (.configure l k win mod ‹_›) _ _
    · exact completes_failWith _ _ _
  | stPush ch x =>
    dsimp only [exec, execStPush] at h
    exact runCommand_next h (completes_pushSample ch x)

/-- The same in two cases: the command faults, or it performs, where a held or refused one performs nothing. -/
theorem exec_raise_or_performed (h : exec i s = .next t) :
    (∃ e, t = s.raise e i.commandWord) ∨ ∃ u ports, Performed s i u ∧ t = { u with ports := ports } := by
  obtain rfl | rfl | hfault | ⟨u, r, -, hu, rfl⟩ := exec_next h
  · exact .inr ⟨_, _, .reads i t.free, rfl⟩
  · exact .inr ⟨_, _, .reads i s.free, rfl⟩
  · exact .inl hfault
  · exact .inr ⟨u, _, hu, rfl⟩

end Sys2Proof.Machine
end

section
/-! PROOFS. What the operations of each unit keep of the invariant. -/

namespace Sys2Proof.Machine

/-! Memories inside their physical size. -/

section Memory

variable {size : Nat} {m : Mem}

theorem Mem.ok_nil : Mem.Ok size [] := ⟨rfl, nofun⟩

theorem Mem.ok_write (h : m.Ok size) {a : Nat} (ha : a < size) (v : Word) : (m.write a v).Ok size := by
  refine ⟨Mem.wf_write m h.1 a v, fun e he => ?_⟩
  obtain rfl | he := Mem.mem_write he
  · exact ha
  · exact h.2 e he

theorem Mem.ok_clear (h : m.Ok size) (n : Nat) : (m.clear n).Ok size :=
  ⟨Mem.wf_clear n m h.1, fun e he => h.2 e (List.mem_of_mem_filter he)⟩

theorem Mem.ok_fill (h : m.Ok size) {n : Nat} (hn : n ≤ size) (f : Nat → Word) : (m.fill n f).Ok size := by
  refine ⟨Mem.wf_fill n f m h.1, fun e he => ?_⟩
  obtain he | he := List.mem_append.1 he
  · obtain ⟨a, ha, rfl⟩ := List.mem_map.1 (List.mem_of_mem_filter he)
    exact (List.mem_range.1 ha).trans_le hn
  · exact (Mem.ok_clear h n).2 e he

/-- Overlap-add writes inside the ring only. -/
theorem Mem.ok_overlapAdd (h : m.Ok size) (N : Num Word) {n : Nat} (hn : 0 < n) (hsize : n ≤ size) (owr : Nat)
    (scale : Word) (fb : List (Cpx Word)) : Mem.Ok size (overlapAdd N Mem.read Mem.write n owr scale fb m) := by
  unfold overlapAdd
  induction List.range n generalizing m with
  | nil => exact h
  | cons j js ih => exact ih (Mem.ok_write h ((Nat.mod_lt _ hn).trans_le hsize) _)

end Memory

/-- A remainder by a word fits a word. -/
theorem toNat_ofNat_mod (x : Nat) {w : Word} (h : 0 < w.toNat) : (BitVec.ofNat 32 (x % w.toNat)).toNat = x % w.toNat := by
  rw [BitVec.toNat_ofNat, Nat.mod_eq_of_lt ((Nat.mod_lt x h).trans w.isLt)]

theorem toNat_ofNat_mod_lt (x : Nat) {w : Word} (h : 0 < w.toNat) : (BitVec.ofNat 32 (x % w.toNat)).toNat < w.toNat := by
  rw [toNat_ofNat_mod x h]
  exact Nat.mod_lt x h

/-! Unit SYS. -/

theorem SysRegs.ok_reset : SysRegs.reset.Ok := by decide

theorem SysRegs.ok_enterFault {r : SysRegs} (h : r.Ok) (e : ErrCode) (w : Word) (p : Port) : (r.enterFault e w p).Ok := by
  cases hf : r.fault with
  | true => rwa [SysRegs.enterFault_of_fault r e w p hf]
  | false =>
    obtain ⟨-, -, hlock, hblk⟩ := h
    rw [SysRegs.enterFault_of_no_fault r e w p hf]
    exact ⟨rfl, nofun, hlock, hblk⟩

/-! Unit SP (10_state.md R42). -/

theorem Smoother.ok_reset : Smoother.reset.Ok := by decide

theorem Smoother.ok_settle (sm : Smoother) : sm.settle.Ok := ⟨Nat.zero_le _, fun _ => rfl⟩

theorem Smoother.ok_configure (n : Word) (sm : Smoother) : (sm.configure n).Ok := ⟨Nat.zero_le _, fun _ => rfl⟩

theorem Smoother.ok_setTarget (N : Num Word) (v : Word) (sm : Smoother) : (sm.setTarget N v).Ok := by
  unfold Smoother.setTarget
  split
  next => exact ⟨Nat.zero_le _, fun _ => rfl⟩
  next hramp => exact ⟨le_rfl, fun hrem => absurd hrem hramp⟩

theorem Smoother.ok_advance {sm : Smoother} (h : sm.Ok) (N : Num Word) : (sm.advance N).Ok := by
  have ⟨hle, _⟩ := h
  unfold Smoother.advance
  split
  next => exact h
  next hne =>
    split
    next => exact ⟨Nat.zero_le _, fun _ => rfl⟩
    next hne1 =>
      refine ⟨?_, fun hlast => ?_⟩
      · show (sm.rem - 1#32).toNat ≤ sm.rampLen.toNat
        bv_omega
      · have : sm.rem - 1#32 = 0#32 := hlast
        bv_omega

/-! Unit DL (10_state.md R44). -/

section Delay

variable {p : Params} {prepared : Bool} {cap : Word} {c : DelayChannel}

theorem DelayChannel.ok_reset (p : Params) (cap : Nat) : DelayChannel.reset.Ok p false cap := ⟨Mem.ok_nil, nofun⟩

theorem DelayChannel.ok_prepare (h : c.mem.Ok p.dlcapMax) {n : Nat} (hn : 0 < n) : (c.prepare n).Ok p prepared n :=
  ⟨Mem.ok_clear h n, fun _ => hn⟩

theorem DelayChannel.ok_bump (h : c.mem.Ok p.dlcapMax) (hcap : 0 < cap.toNat) : (c.bump cap.toNat).Ok p prepared cap.toNat :=
  ⟨h, fun _ => toNat_ofNat_mod_lt _ hcap⟩

theorem DelayChannel.ok_push (h : c.Ok p true cap.toNat) (hcap : cap.toNat ≤ p.dlcapMax) (x : Word) :
    (c.push cap.toNat x).Ok p prepared cap.toNat := by
  obtain ⟨hmem, hw⟩ := h
  have hlt : c.widx.toNat < cap.toNat := hw rfl
  exact DelayChannel.ok_bump (Mem.ok_write hmem (hlt.trans_le hcap) x) (Nat.zero_lt_of_lt hlt)

theorem DelayUnit.ok_reset (p : Params) : (DelayUnit.reset p.nch).Ok p false := by
  refine ⟨List.length_replicate, nofun, fun c hc => ?_⟩
  rw [List.eq_of_mem_replicate hc]
  exact DelayChannel.ok_reset p _

end Delay

/-! Unit BQ (10_state.md R46, R47). -/

section Biquad

variable {p : Params} {q : Filter}

theorem Filter.ok_reset (p : Params) : (Filter.reset p.nch).Ok p := ⟨rfl, List.length_replicate⟩

theorem Filter.ok_normalise (h : q.Ok p) (N : Num Word) (b0 b1 b2 a0 a1 a2 : Word) :
    Filter.Ok p { q with coeffs := normalise N 0x3F800000#32 b0 b1 b2 a0 a1 a2 } := ⟨rfl, h.2⟩

theorem Filter.ok_setHistory (h : q.Ok p) (ch : Nat) (v : History Word) :
    Filter.Ok p { q with chans := q.chans.set ch v } := ⟨h.1, List.length_set.trans h.2⟩

theorem Filter.ok_clear (h : q.Ok p) : q.clear.Ok p := ⟨h.1, (List.length_map _).trans h.2⟩

end Biquad

/-! Unit ST (10_state.md R48 to R52). -/

theorem legalConfig_iff (p : Params) (l h : Nat) :
    legalConfig p l h = true ↔ 2 ≤ l ∧ l ≤ p.fftMaxLog2 ∧ 1 ≤ h ∧ h ≤ 3 ∧ h ≤ l := by
  simp only [legalConfig, Bool.and_eq_true, decide_eq_true_eq, and_assoc]
  rfl

theorem windowCode_lt (win : Window) : win.code < 4 := by cases win <;> decide

theorem modCode_lt (mod : ModSel) : mod.code < 2 := by cases mod <;> decide

theorem windowOf_code (win : Window) : windowOf (BitVec.ofNat 2 win.code) = win := by cases win <;> rfl

theorem configWord_toNat {l h : Nat} (hl : l < 16) (hh : h < 4) (win : Window) (mod : ModSel) :
    (configWord l h win mod).toNat = mod.code * 256 + win.code * 64 + h * 16 + l := by
  have hw := windowCode_lt win
  have hm := modCode_lt mod
  rw [configWord, configImm, BitVec.toNat_ofNat, Nat.mod_eq_of_lt (by omega)]

/-- The configuration word gives back the fields it was packed from. -/
theorem configWord_fields {l h : Nat} (hl : l < 16) (hh : h < 4) (win : Window) (mod : ModSel) :
    (configWord l h win mod).toNat < 512 ∧ fftLog2Field (configWord l h win mod) = l ∧
      hopLog2Field (configWord l h win mod) = h := by
  have hw := windowCode_lt win
  have hm := modCode_lt mod
  simp only [fftLog2Field, hopLog2Field, BitVec.extractLsb'_toNat, Nat.shiftRight_eq_div_pow, configWord_toNat hl hh]
  omega

theorem winField_configWord {l h : Nat} (hl : l < 16) (hh : h < 4) (win : Window) (mod : ModSel) :
    winField (configWord l h win mod) = win := by
  have hcode : (configWord l h win mod).extractLsb' 6 2 = BitVec.ofNat 2 win.code := by
    apply BitVec.eq_of_toNat_eq
    rw [BitVec.extractLsb'_toNat, Nat.shiftRight_eq_div_pow, configWord_toNat hl hh, BitVec.toNat_ofNat]
    omega
  rw [winField, hcode, windowOf_code]

theorem modField_configWord {l h : Nat} (hl : l < 16) (hh : h < 4) (win : Window) (mod : ModSel) :
    modField (configWord l h win mod) = mod := by
  have hcode : (configWord l h win mod).extractLsb' 8 1 = BitVec.ofNat 1 mod.code := by
    have hw := windowCode_lt win
    apply BitVec.eq_of_toNat_eq
    rw [BitVec.extractLsb'_toNat, Nat.shiftRight_eq_div_pow, configWord_toNat hl hh, BitVec.toNat_ofNat]
    omega
  rw [modField, hcode]
  cases mod <;> rfl

theorem configOk_configWord {p : Params} (hp : p.InRange) {l h : Nat} (hc : legalConfig p l h = true) (win : Window)
    (mod : ModSel) : configOk p (configWord l h win mod) := by
  obtain ⟨-, -, -, -, -, hmax⟩ := hp
  obtain ⟨-, hl, -, hh, -⟩ := (legalConfig_iff p l h).1 hc
  obtain ⟨hlt, hfft, hhop⟩ := configWord_fields (l := l) (h := h) (by omega) (by omega) win mod
  exact ⟨hlt, by rw [hfft, hhop, hc]⟩

section Stft

variable {p : Params} {st : StftUnit} {c : StftChannel}

/-- `st_reinit` leaves a ring no larger than its memory and a whole number of hops in it. -/
theorem StftUnit.derived_reinit (I : Impl Word) (hc : configOk p st.cfg) : (st.reinit I).Derived I := by
  obtain ⟨-, -, -, -, hle⟩ := (legalConfig_iff _ _ _).1 hc.2
  refine ⟨st.reinit_n_toNat I, ?_, fun j hj => ?_, ?_⟩
  · rw [StftUnit.reinit_hop_toNat, StftUnit.reinit_n_toNat]
    exact Nat.div_mul_cancel (Nat.pow_dvd_pow 2 hle)
  · rw [StftUnit.reinit_n_toNat] at hj
    rw [StftUnit.reinit_wintab, Mem.read_fill, if_pos hj, StftUnit.reinit_cfg]
  · rw [StftUnit.reinit_n_toNat]
    exact st.reinit_scale I

theorem StftChannel.ok_restart (hin : c.inr.Ok (2 ^ p.fftMaxLog2)) (hout : c.outr.Ok (2 ^ p.fftMaxLog2)) {l h : Nat}
    (hl : l < 16) (hh : 1 ≤ h) (hle : h ≤ l) :
    (c.restart (2 ^ l) (2 ^ l / 2 ^ h)).inr.Ok (2 ^ p.fftMaxLog2) ∧
      (c.restart (2 ^ l) (2 ^ l / 2 ^ h)).outr.Ok (2 ^ p.fftMaxLog2) ∧
      (c.restart (2 ^ l) (2 ^ l / 2 ^ h)).CursorsOk (2 ^ l) (2 ^ l / 2 ^ h) := by
  have hn : 0 < 2 ^ l := Nat.two_pow_pos l
  have hhop : 0 < 2 ^ l / 2 ^ h := Nat.div_pos (Nat.pow_le_pow_right (by decide) hle) (Nat.two_pow_pos h)
  have hlt : 2 ^ l / 2 ^ h < 2 ^ l := Nat.div_lt_self hn (Nat.one_lt_two_pow (by omega))
  have hword : 2 ^ l < 2 ^ 32 := Nat.pow_lt_pow_right (by decide) (by omega)
  have howr : (BitVec.ofNat 32 (2 ^ l / 2 ^ h)).toNat = 2 ^ l / 2 ^ h := by
    rw [BitVec.toNat_ofNat, Nat.mod_eq_of_lt (hlt.trans hword)]
  refine ⟨Mem.ok_clear hin _, Mem.ok_clear hout _, hn, hn, ?_, hhop, ?_, rfl⟩
  · exact howr.trans_lt hlt
  · exact howr.symm ▸ dvd_rfl

/-- `st_reinit` keeps the invariant of unit ST, whatever the derived registers and the cursors held before. -/
theorem StftUnit.ok_reinit {prepared : Bool} (hc : configOk p st.cfg) (hw : st.wintab.Ok (2 ^ p.fftMaxLog2))
    (hlen : st.chans.length = p.nch)
    (hmem : ∀ c ∈ st.chans, c.inr.Ok (2 ^ p.fftMaxLog2) ∧ c.outr.Ok (2 ^ p.fftMaxLog2)) :
    (st.reinit p.impl).Ok p prepared := by
  obtain ⟨-, hmax, hh, -, hle⟩ := (legalConfig_iff _ _ _).1 hc.2
  refine ⟨hc, Mem.ok_fill hw (Nat.pow_le_pow_right (by decide) hmax) _, fun _ => derived_reinit _ hc,
    (List.length_map _).trans hlen, fun c' hc' => ?_⟩
  rw [StftUnit.reinit_chans] at hc'
  obtain ⟨c, hmemc, rfl⟩ := List.mem_map.1 hc'
  obtain ⟨hin, hout⟩ := hmem c hmemc
  obtain ⟨hin', hout', hcur⟩ := StftChannel.ok_restart hin hout (fftLog2Field_lt st.cfg) hh hle
  refine ⟨hin', hout', fun _ => ?_⟩
  rwa [StftUnit.reinit_n_toNat, StftUnit.reinit_hop_toNat]

theorem StftUnit.ok_reset (hp : p.InRange) : (StftUnit.reset p).Ok p false := by
  have ⟨_, _, _, _, hmin, _⟩ := hp
  refine ⟨?_, Mem.ok_nil, nofun, List.length_replicate, fun c hc => ?_⟩
  · refine configOk_configWord (l := min 9 p.fftMaxLog2) (h := 2) hp ?_ .hann .identity
    exact (legalConfig_iff _ _ _).2 (by omega)
  · rw [List.eq_of_mem_replicate hc]
    exact ⟨Mem.ok_nil, Mem.ok_nil, nofun⟩

/-- The sizes of a prepared unit: a ring fits its memory and is a whole number of hops. -/
theorem StftUnit.Ok.sizes (h : st.Ok p true) :
    0 < st.n.toNat ∧ st.n.toNat ≤ 2 ^ p.fftMaxLog2 ∧ 0 < st.hop.toNat ∧ st.hop.toNat ∣ st.n.toNat := by
  obtain ⟨⟨-, hcfg⟩, -, hder, -, -⟩ := h
  obtain ⟨hn, hhop, -, -⟩ := hder rfl
  obtain ⟨-, hmax, -, -, -⟩ := (legalConfig_iff _ _ _).1 hcfg
  have hpos : 0 < st.n.toNat := hn ▸ Nat.two_pow_pos _
  refine ⟨hpos, hn ▸ Nat.pow_le_pow_right (by decide) hmax,
    Nat.pos_of_mul_pos_right (hhop.symm ▸ hpos), ⟨_, hhop.symm⟩⟩

/-- The two ring accesses of a push keep the rings inside their memory and move both cursors alike. -/
theorem StftChannel.ok_shift (h : st.Ok p true) (hc : c.Ok p true st) (x : Word) :
    (c.shift st.n.toNat x).inr.Ok (2 ^ p.fftMaxLog2) ∧ (c.shift st.n.toNat x).outr.Ok (2 ^ p.fftMaxLog2) ∧
      (c.shift st.n.toNat x).inw.toNat < st.n.toNat ∧ (c.shift st.n.toNat x).inw = (c.shift st.n.toNat x).ord ∧
      (c.shift st.n.toNat x).owr = c.owr := by
  obtain ⟨hn, hsize, -, -⟩ := h.sizes
  obtain ⟨hin, hout, hcur⟩ := hc
  obtain ⟨hinw, hord, -, -, -, heq⟩ := hcur rfl
  refine ⟨Mem.ok_write hin (hinw.trans_le hsize) x, Mem.ok_write hout (hord.trans_le hsize) _,
    toNat_ofNat_mod_lt _ hn, ?_, rfl⟩
  show BitVec.ofNat 32 ((c.inw.toNat + 1) % st.n.toNat) = BitVec.ofNat 32 ((c.ord.toNat + 1) % st.n.toNat)
  rw [heq]

/-- A push that completes no hop keeps the invariant of its channel. -/
theorem StftChannel.ok_push (h : st.Ok p true) (hc : c.Ok p true st) (x : Word)
    (hcnt : (c.shift st.n.toNat x).cnt.toNat < st.hop.toNat) : (c.shift st.n.toNat x).Ok p true st := by
  obtain ⟨hin, hout, hinw, heq, howr⟩ := StftChannel.ok_shift h hc x
  obtain ⟨-, -, hcur⟩ := hc
  obtain ⟨-, -, howlt, -, hdvd, -⟩ := hcur rfl
  exact ⟨hin, hout, fun _ => ⟨hinw, heq ▸ hinw, howr ▸ howlt, hcnt, howr ▸ hdvd, heq⟩⟩

/-- A push that runs a frame keeps the invariant of its channel: `OWR` moves from hop to hop. -/
theorem StftChannel.ok_frame (h : st.Ok p true) (hc : c.Ok p true st) (x : Word) (N : Num Word) (fb : List (Cpx Word)) :
    ((c.shift st.n.toNat x).resynthesise N st fb).Ok p true st := by
  obtain ⟨hn, hsize, hhop, hdvd⟩ := h.sizes
  obtain ⟨hin, hout, hinw, heq, howr⟩ := StftChannel.ok_shift h hc x
  obtain ⟨-, -, hcur⟩ := hc
  obtain ⟨-, -, -, -, hdvdowr, -⟩ := hcur rfl
  refine ⟨hin, Mem.ok_overlapAdd hout N hn hsize _ _ _, fun _ => ?_⟩
  refine ⟨hinw, heq ▸ hinw, toNat_ofNat_mod_lt _ hn, hhop, ?_, heq⟩
  show st.hop.toNat ∣ (BitVec.ofNat 32 (((c.shift st.n.toNat x).owr.toNat + st.hop.toNat) % st.n.toNat)).toNat
  rw [toNat_ofNat_mod _ hn, howr, Nat.dvd_mod_iff hdvd]
  exact dvd_add hdvdowr dvd_rfl

end Stft

end Sys2Proof.Machine
end

section
/-! PROOFS. The invariant of the machine: it holds at reset, and every step keeps it. -/

namespace Sys2Proof.Machine

variable {s t u : State} {i : Instr}

/-- A command that needs `PREPARED = 1` is not `SYS.RESET` and does not run while `FAULT = 1`. -/
theorem of_needsPrepare (h : needsPrepare i = true) : cmdClass i ≠ .reset ∧ survivesFault i = false := by
  cases i with
  | sysNop | sysReset | sysPrepare | sysRdreg => cases h
  | _ => exact ⟨nofun, rfl⟩

/-- A command that needs `PREPARED = 1` passes the common checks only on a prepared block without fault, with its
`IDX` and `CH` in range. -/
theorem ready_of_examine_go {p : Port} (h : examine i p s = .go) (hp : needsPrepare i = true) :
    s.Ready ∧ indexOk s.params i = true := by
  obtain ⟨hreset, hdead⟩ := of_needsPrepare hp
  rw [examine, if_neg hreset] at h
  cases hf : s.sys.fault with
  | true => simp [hf, hdead] at h
  | false =>
    cases hi : indexOk s.params i with
    | false => simp [hf, hi] at h
    | true =>
      cases hq : s.sys.prepared with
      | false => simp [hf, hi, hq, hp] at h
      | true => exact ⟨⟨hq, hf⟩, rfl⟩

/-! What the invariant says of one smoother, channel or filter. -/

theorem State.Inv.smoother_ok (h : s.Inv) (k : Nat) : (s.smoother k).Ok := by
  obtain hk | hk := Nat.lt_or_ge k s.sp.length
  · exact h.sp _ (getD_mem _ _ _ hk)
  · rw [State.smoother, getD_of_length_le _ _ _ hk]
    exact Smoother.ok_reset

theorem State.Inv.delayChan_ok (h : s.Inv) {ch : Nat} (hch : ch < s.params.nch) :
    (s.delayChan ch).Ok s.params s.sys.prepared s.dl.cap.toNat := by
  obtain ⟨hlen, -, hchans⟩ := h.dl
  exact hchans _ (getD_mem _ _ _ (hlen.symm ▸ hch))

theorem State.Inv.filter_ok (h : s.Inv) {f : Nat} (hf : f < s.params.nbq) : (s.filter f).Ok s.params :=
  h.bq _ (getD_mem _ _ _ (h.bqLength.symm ▸ hf))

theorem State.Inv.stftChan_ok (h : s.Inv) {ch : Nat} (hch : ch < s.params.nch) :
    (s.stftChan ch).Ok s.params s.sys.prepared s.st := by
  obtain ⟨-, -, -, hlen, hchans⟩ := h.st
  exact hchans _ (getD_mem _ _ _ (hlen.symm ▸ hch))

/-! Each update of the state keeps the invariant. -/

/-- The invariant does not see the ports, the responses or the counters of free values. -/
theorem State.Inv.with_ports_free (h : s.Inv) (ports : Ports) (free : FreeCounts) :
    State.Inv { s with ports := ports, free := free } :=
  ⟨h.legal, h.sys, h.spLength, h.sp, h.dl, h.bqLength, h.bq, h.st⟩

theorem State.Inv.respond (h : s.Inv) (r : Response) : (s.respond r).Inv := h.with_ports_free _ _

theorem State.Inv.takeCommand (h : s.Inv) (p : Port) (rest : List Word) : (s.takeCommand p rest).Inv :=
  h.with_ports_free _ _

/-- The system registers may change while `PREPARED` stays. -/
theorem State.Inv.with_sys (h : s.Inv) {r : SysRegs} (hr : r.Ok) (hp : r.prepared = s.sys.prepared) :
    State.Inv { s with sys := r } :=
  ⟨h.legal, hr, h.spLength, h.sp, hp.symm ▸ h.dl, h.bqLength, h.bq, hp.symm ▸ h.st⟩

theorem State.Inv.raise (h : s.Inv) (e : ErrCode) (w : Word) : (s.raise e w).Inv :=
  (h.with_sys (SysRegs.ok_enterFault h.sys e w s.ports.cur) (SysRegs.enterFault_prepared ..)).with_ports_free _ _

theorem State.Inv.setSmoother (h : s.Inv) (k : Nat) {v : Smoother} (hv : v.Ok) : (s.setSmoother k v).Inv :=
  ⟨h.legal, h.sys, List.length_set.trans h.spLength, forall_mem_set h.sp hv, h.dl, h.bqLength, h.bq, h.st⟩

theorem State.Inv.setDelayChan (h : s.Inv) (ch : Nat) {v : DelayChannel}
    (hv : v.Ok s.params s.sys.prepared s.dl.cap.toNat) : (s.setDelayChan ch v).Inv := by
  obtain ⟨hlen, hcap, hchans⟩ := h.dl
  exact ⟨h.legal, h.sys, h.spLength, h.sp, ⟨List.length_set.trans hlen, hcap, forall_mem_set hchans hv⟩, h.bqLength,
    h.bq, h.st⟩

theorem State.Inv.setFilter (h : s.Inv) (f : Nat) {v : Filter} (hv : v.Ok s.params) : (s.setFilter f v).Inv :=
  ⟨h.legal, h.sys, h.spLength, h.sp, h.dl, List.length_set.trans h.bqLength, forall_mem_set h.bq hv, h.st⟩

theorem State.Inv.with_st (h : s.Inv) {st : StftUnit} (hst : st.Ok s.params s.sys.prepared) : State.Inv { s with st := st } :=
  ⟨h.legal, h.sys, h.spLength, h.sp, h.dl, h.bqLength, h.bq, hst⟩

theorem State.Inv.setStftChan (h : s.Inv) (ch : Nat) {v : StftChannel} (hv : v.Ok s.params s.sys.prepared s.st) :
    (s.setStftChan ch v).Inv := by
  obtain ⟨hcfg, hwin, hder, hlen, hchans⟩ := h.st
  exact h.with_st ⟨hcfg, hwin, hder, List.length_set.trans hlen, forall_mem_set hchans hv⟩

/-- The invariant holds in the reset state of every legal device. -/
theorem State.inv_resetOn {p : Params} (hp : p.Legal) (ports : Ports) (free : FreeCounts) :
    (State.resetOn p ports free).Inv where
  legal := hp
  sys := SysRegs.ok_reset
  spLength := List.length_replicate
  sp sm hsm := by
    rw [List.eq_of_mem_replicate hsm]
    exact Smoother.ok_reset
  dl := DelayUnit.ok_reset p
  bqLength := List.length_replicate
  bq q hq := by
    rw [List.eq_of_mem_replicate hq]
    exact Filter.ok_reset p
  st := StftUnit.ok_reset hp.1

theorem State.Inv.hardwareReset (h : s.Inv) : s.hardwareReset.Inv := State.inv_resetOn h.legal _ _

theorem State.Inv.ok_reinit (h : s.Inv) {cfg : Word} (hc : configOk s.params cfg) (prepared : Bool) :
    (({ s.st with cfg := cfg } : StftUnit).reinit s.params.impl).Ok s.params prepared := by
  obtain ⟨-, hwin, -, hlen, hchans⟩ := h.st
  refine StftUnit.ok_reinit hc hwin hlen fun c hc => ?_
  obtain ⟨hin, hout, -⟩ := hchans c hc
  exact ⟨hin, hout⟩

theorem State.Inv.prepare (h : s.Inv) (srate maxblk : Word) {cap : Word} (hcap : legalCapacity s.params cap = true) :
    (s.prepare s.params.impl srate maxblk cap).Inv := by
  have ⟨hfault, herr, _, _⟩ := h.sys
  have ⟨hlen, _, hchans⟩ := h.dl
  have ⟨hcfg, _⟩ := h.st
  have ⟨hpos, hmax⟩ : 0 < cap.toNat ∧ cap.toNat ≤ s.params.dlcapMax := by
    simp only [legalCapacity, Bool.and_eq_true, decide_eq_true_eq] at hcap
    exact ⟨by bv_omega, hcap.2⟩
  refine ⟨h.legal, ⟨hfault, herr, nofun, Nat.zero_le _⟩, (List.length_map _).trans h.spLength, ?_,
    ⟨(List.length_map _).trans hlen, fun _ => ⟨hpos, hmax⟩, ?_⟩, (List.length_map _).trans h.bqLength, ?_,
    h.ok_reinit hcfg true⟩
  · exact List.forall_mem_map.2 fun sm _ => Smoother.ok_settle sm
  · refine List.forall_mem_map.2 fun c hc => ?_
    obtain ⟨hmem, -⟩ := hchans c hc
    exact DelayChannel.ok_prepare hmem hpos
  · exact List.forall_mem_map.2 fun q hq => Filter.ok_clear (h.bq q hq)

/-! The commands and the step. -/

/-- What a command performs after passing the common checks keeps the invariant. -/
theorem Performed.inv (hu : Performed s i u) (hgo : examine i s.ports.cur s = .go) (h : s.Inv) : u.Inv := by
  have ⟨hrange, _⟩ := h.legal
  cases hu with
  | reads _ free => exact h.with_ports_free _ _
  | reset => exact h.hardwareReset
  | prepare srate maxblk cap hcap => exact h.prepare srate maxblk hcap
  | openScope n hn =>
    obtain ⟨⟨hprep, -⟩, -⟩ := ready_of_examine_go hgo rfl
    have ⟨hfault, herr, _, _⟩ := h.sys
    exact h.with_sys ⟨hfault, herr, fun hp => absurd (hp.symm.trans hprep) (by decide), hn⟩ rfl
  | closeScope =>
    have ⟨hfault, herr, _, hblk⟩ := h.sys
    exact h.with_sys ⟨hfault, herr, fun _ => rfl, hblk⟩ rfl
  | configureSmoother k n => exact h.setSmoother k (Smoother.ok_configure n _)
  | targetSmoother k v => exact h.setSmoother k (Smoother.ok_setTarget _ v _)
  | advanceSmoother k => exact h.setSmoother k (Smoother.ok_advance (h.smoother_ok k) _)
  | writeDelay ch x =>
    obtain ⟨⟨hprep, -⟩, hch⟩ := ready_of_examine_go hgo rfl
    obtain ⟨-, hcap, -⟩ := h.dl
    have hc := h.delayChan_ok (of_decide_eq_true hch)
    rw [hprep] at hc
    exact h.setDelayChan ch (DelayChannel.ok_push hc (hcap hprep).2 x)
  | advanceDelay ch =>
    obtain ⟨⟨hprep, -⟩, hch⟩ := ready_of_examine_go hgo rfl
    obtain ⟨-, hcap, -⟩ := h.dl
    obtain ⟨hmem, -⟩ := h.delayChan_ok (of_decide_eq_true hch)
    exact h.setDelayChan ch (DelayChannel.ok_bump hmem (hcap hprep).1)
  | loadFilter f b0 b1 b2 a0 a1 a2 =>
    obtain ⟨-, hf⟩ := ready_of_examine_go hgo rfl
    exact h.setFilter f (Filter.ok_normalise (h.filter_ok (of_decide_eq_true hf)) _ b0 b1 b2 a0 a1 a2)
  | stepFilter f ch x v =>
    obtain ⟨-, hi⟩ := ready_of_examine_go hgo rfl
    obtain ⟨hf, -⟩ := Bool.and_eq_true_iff.1 hi
    exact h.setFilter f (Filter.ok_setHistory (h.filter_ok (of_decide_eq_true hf)) ch v)
  | clearFilter f =>
    obtain ⟨-, hf⟩ := ready_of_examine_go hgo rfl
    exact h.setFilter f (Filter.ok_clear (h.filter_ok (of_decide_eq_true hf)))
  | configure l k win mod hc => exact h.with_st (h.ok_reinit (configOk_configWord hrange hc win mod) _)
  | push ch x hcnt =>
    obtain ⟨⟨hprep, -⟩, hch⟩ := ready_of_examine_go hgo rfl
    have hst := h.st
    have hc := h.stftChan_ok (of_decide_eq_true hch)
    rw [hprep] at hst hc
    exact h.setStftChan ch (hprep.symm ▸ StftChannel.ok_push hst hc x hcnt)
  | frame ch x fb free =>
    obtain ⟨⟨hprep, -⟩, hch⟩ := ready_of_examine_go hgo rfl
    have hst := h.st
    have hc := h.stftChan_ok (of_decide_eq_true hch)
    rw [hprep] at hst hc
    exact (h.setStftChan ch (hprep.symm ▸ StftChannel.ok_frame hst hc x _ fb)).with_ports_free _ free

theorem State.Inv.of_exec (h : s.Inv) (hx : exec i s = .next t) : t.Inv := by
  obtain rfl | rfl | ⟨e, rfl⟩ | ⟨u, r, hgo, hu, rfl⟩ := exec_next hx
  · exact h
  · exact h.respond _
  · exact h.raise _ _
  · exact (hu.inv hgo h).respond r

theorem State.Inv.of_illegalCommand (h : s.Inv) (w : Word) : (illegalCommand w s).Inv := by
  unfold illegalCommand
  split
  · exact h.respond _
  · exact h.raise _ _

theorem State.Inv.of_serve (h : s.Inv) {p : Port} (hx : serve p s = .next t) : t.Inv := by
  unfold serve at hx
  split at hx
  · exact Host.Outcome.next.inj hx ▸ h
  · exact Host.Outcome.next.inj hx ▸ (h.takeCommand _ _).of_illegalCommand _
  · exact (h.takeCommand _ _).of_exec hx

theorem State.Inv.of_step (h : s.Inv) (hx : step s = .next t) : t.Inv := by
  unfold step at hx
  split at hx
  · exact Host.Outcome.next.inj hx ▸ h
  · exact h.of_serve hx

end Sys2Proof.Machine

namespace Sys2Proof.Proofs

open Sys2Proof.Machine

/-- Settles O10; the default device is legal because it is built by default. -/
theorem invariantAtReset : Obligations.InvariantAtReset := by
  refine ⟨fun p ports free hp => State.inv_resetOn hp ports free, State.inv_resetOn ?_ _ _⟩
  exact ⟨by decide, fun hother => absurd rfl hother⟩

/-- Settles O11: every update of the state keeps the invariant, and a step is a sequence of updates. -/
theorem stepKeepsInvariant : Obligations.StepKeepsInvariant :=
  fun _ _ h hstep => h.of_step hstep

end Sys2Proof.Proofs
end

section
/-! PROOFS. Which command writes which piece of state (10_state.md R35 to R51), first for what a command performs. -/

namespace Sys2Proof.Machine

/-- The command is a `SYS.PREPARE`. -/
def Prepares (i : Instr) : Prop := ∃ srate maxblk cap, i = .sysPrepare srate maxblk cap

/-- The command is an `ST.CONFIG`. -/
def Configures (i : Instr) : Prop := ∃ l h win mod, i = .stConfig l h win mod

/-- Replacing one entry of a file, which does nothing out of range, leaves every other entry as it was. -/
theorem getD_set_cases {α : Type} (l : List α) (i k : Nat) (v d : α) :
    (l.set i v).getD k d = l.getD k d ∨ (k = i ∧ (l.set i v).getD k d = v) := by
  obtain hi | hi := Nat.lt_or_ge i l.length
  · rw [getD_set l i k v d hi]
    split
    next hk => exact .inr ⟨hk, rfl⟩
    next => exact .inl rfl
  · rw [List.set_eq_of_length_le hi]
    exact .inl rfl

/-- Clearing every filter clears the one at an index, or none where the index is out of range. -/
theorem filter_map_clear (s : State) (f : Nat) :
    (s.bq.map Filter.clear).getD f (Filter.reset 0) = (s.filter f).clear :=
  List.getD_map s.bq (Filter.reset 0) Filter.clear

section

variable {s u : State} {i : Instr} (hu : Performed s i u)
include hu

theorem Performed.params_eq : u.params = s.params := by cases hu <;> rfl

variable (hi : i ≠ .sysReset)
include hi

theorem Performed.faultRegs_eq : u.sys.fault = s.sys.fault ∧ u.sys.errcode = s.sys.errcode ∧
    u.sys.errcmd = s.sys.errcmd ∧ u.sys.errport = s.sys.errport := by
  cases hu with
  | reset => exact absurd rfl hi
  | _ => exact ⟨rfl, rfl, rfl, rfl⟩

theorem Performed.writes_preparation (h : ¬ (u.sys.prepared = s.sys.prepared ∧ u.dl.cap = s.dl.cap ∧
    u.sys.srate = s.sys.srate ∧ u.sys.maxblk = s.sys.maxblk)) : Prepares i := by
  cases hu with
  | reset => exact absurd rfl hi
  | prepare srate maxblk cap => exact ⟨srate, maxblk, cap, rfl⟩
  | _ => exact absurd ⟨rfl, rfl, rfl, rfl⟩ h

theorem Performed.writes_lock (h : u.sys.lock ≠ s.sys.lock) : (∃ n, i = .sysBegin n) ∨ i = .sysEnd := by
  cases hu with
  | reset => exact absurd rfl hi
  | openScope n => exact .inl ⟨n, rfl⟩
  | closeScope => exact .inr rfl
  | _ => exact absurd rfl h

theorem Performed.writes_blklen (h : u.sys.blklen ≠ s.sys.blklen) : Prepares i ∨ ∃ n, i = .sysBegin n := by
  cases hu with
  | reset => exact absurd rfl hi
  | prepare srate maxblk cap => exact .inl ⟨srate, maxblk, cap, rfl⟩
  | openScope n => exact .inr ⟨n, rfl⟩
  | _ => exact absurd rfl h

theorem Performed.writes_smoother {k : Nat} (h : u.smoother k ≠ s.smoother k) :
    (∃ n, i = .spConfig k n) ∨ (∃ v, i = .spSettgt k v) ∨ i = .spAdv k ∨ Prepares i := by
  cases hu with
  | reset => exact absurd rfl hi
  | prepare srate maxblk cap => exact .inr (.inr (.inr ⟨srate, maxblk, cap, rfl⟩))
  | configureSmoother k' n =>
    obtain hsame | ⟨rfl, -⟩ := getD_set_cases s.sp k' k _ Smoother.reset
    · exact absurd hsame h
    · exact .inl ⟨n, rfl⟩
  | targetSmoother k' v =>
    obtain hsame | ⟨rfl, -⟩ := getD_set_cases s.sp k' k _ Smoother.reset
    · exact absurd hsame h
    · exact .inr (.inl ⟨v, rfl⟩)
  | advanceSmoother k' =>
    obtain hsame | ⟨rfl, -⟩ := getD_set_cases s.sp k' k _ Smoother.reset
    · exact absurd hsame h
    · exact .inr (.inr (.inl rfl))
  | _ => exact absurd rfl h

theorem Performed.writes_widx {ch : Nat} (h : (u.delayChan ch).widx ≠ (s.delayChan ch).widx) :
    (∃ x, i = .dlWrite ch x) ∨ i = .dlAdv ch ∨ Prepares i := by
  cases hu with
  | reset => exact absurd rfl hi
  | prepare srate maxblk cap => exact .inr (.inr ⟨srate, maxblk, cap, rfl⟩)
  | writeDelay ch' x =>
    obtain hsame | ⟨rfl, -⟩ := getD_set_cases s.dl.chans ch' ch _ DelayChannel.reset
    · exact absurd (congrArg _ hsame) h
    · exact .inl ⟨x, rfl⟩
  | advanceDelay ch' =>
    obtain hsame | ⟨rfl, -⟩ := getD_set_cases s.dl.chans ch' ch _ DelayChannel.reset
    · exact absurd (congrArg _ hsame) h
    · exact .inr (.inl rfl)
  | _ => exact absurd rfl h

/-- `DL.ADV` moves the cursor of a channel and leaves its words. -/
theorem Performed.writes_delayMem {ch : Nat} (h : (u.delayChan ch).mem ≠ (s.delayChan ch).mem) :
    (∃ x, i = .dlWrite ch x) ∨ Prepares i := by
  cases hu with
  | reset => exact absurd rfl hi
  | prepare srate maxblk cap => exact .inr ⟨srate, maxblk, cap, rfl⟩
  | writeDelay ch' x =>
    obtain hsame | ⟨rfl, -⟩ := getD_set_cases s.dl.chans ch' ch _ DelayChannel.reset
    · exact absurd (congrArg _ hsame) h
    · exact .inl ⟨x, rfl⟩
  | advanceDelay ch' =>
    obtain hsame | ⟨rfl, hbump⟩ := getD_set_cases s.dl.chans ch' ch _ DelayChannel.reset
    · exact absurd (congrArg _ hsame) h
    · exact absurd (congrArg DelayChannel.mem hbump) h
  | _ => exact absurd rfl h

theorem Performed.writes_coeffs {f : Nat} (h : (u.filter f).coeffs ≠ (s.filter f).coeffs) :
    ∃ b0 b1 b2 a0 a1 a2, i = .bqLoad f b0 b1 b2 a0 a1 a2 := by
  cases hu with
  | reset => exact absurd rfl hi
  | prepare => exact absurd (congrArg Filter.coeffs (filter_map_clear s f)) h
  | loadFilter f' b0 b1 b2 a0 a1 a2 =>
    obtain hsame | ⟨rfl, -⟩ := getD_set_cases s.bq f' f _ (Filter.reset 0)
    · exact absurd (congrArg _ hsame) h
    · exact ⟨b0, b1, b2, a0, a1, a2, rfl⟩
  | stepFilter f' ch x v =>
    obtain hsame | ⟨rfl, hset⟩ := getD_set_cases s.bq f' f _ (Filter.reset 0)
    · exact absurd (congrArg _ hsame) h
    · exact absurd (congrArg Filter.coeffs hset) h
  | clearFilter f' =>
    obtain hsame | ⟨rfl, hset⟩ := getD_set_cases s.bq f' f _ (Filter.reset 0)
    · exact absurd (congrArg _ hsame) h
    · exact absurd (congrArg Filter.coeffs hset) h
  | _ => exact absurd rfl h

theorem Performed.writes_history {f ch : Nat} (h : (u.filter f).chan ch ≠ (s.filter f).chan ch) :
    (∃ x, i = .bqStep f ch x) ∨ i = .bqClear f ∨ Prepares i := by
  cases hu with
  | reset => exact absurd rfl hi
  | prepare srate maxblk cap => exact .inr (.inr ⟨srate, maxblk, cap, rfl⟩)
  | loadFilter f' b0 b1 b2 a0 a1 a2 =>
    obtain hsame | ⟨rfl, hset⟩ := getD_set_cases s.bq f' f _ (Filter.reset 0)
    · exact absurd (congrArg (Filter.chan · ch) hsame) h
    · exact absurd (congrArg (Filter.chan · ch) hset) h
  | stepFilter f' ch' x v =>
    obtain hsame | ⟨rfl, hset⟩ := getD_set_cases s.bq f' f _ (Filter.reset 0)
    · exact absurd (congrArg (Filter.chan · ch) hsame) h
    · obtain hkeep | ⟨rfl, -⟩ := getD_set_cases (s.filter f).chans ch' ch v History.reset
      · exact absurd ((congrArg (Filter.chan · ch) hset).trans hkeep) h
      · exact .inl ⟨x, rfl⟩
  | clearFilter f' =>
    obtain hsame | ⟨rfl, -⟩ := getD_set_cases s.bq f' f _ (Filter.reset 0)
    · exact absurd (congrArg (Filter.chan · ch) hsame) h
    · exact .inr (.inl rfl)
  | _ => exact absurd rfl h

theorem Performed.writes_stcfg (h : u.st.cfg ≠ s.st.cfg) : Configures i := by
  cases hu with
  | reset => exact absurd rfl hi
  | configure l k win mod => exact ⟨l, k, win, mod, rfl⟩
  | _ => exact absurd rfl h

theorem Performed.writes_derived (h : ¬ (u.st.n = s.st.n ∧ u.st.hop = s.st.hop ∧ u.st.scale = s.st.scale ∧
    u.st.wintab = s.st.wintab)) : Prepares i ∨ Configures i := by
  cases hu with
  | reset => exact absurd rfl hi
  | prepare srate maxblk cap => exact .inl ⟨srate, maxblk, cap, rfl⟩
  | configure l k win mod => exact .inr ⟨l, k, win, mod, rfl⟩
  | _ => exact absurd ⟨rfl, rfl, rfl, rfl⟩ h

theorem Performed.writes_stftChan {ch : Nat} (h : u.stftChan ch ≠ s.stftChan ch) :
    (∃ x, i = .stPush ch x) ∨ Prepares i ∨ Configures i := by
  cases hu with
  | reset => exact absurd rfl hi
  | prepare srate maxblk cap => exact .inr (.inl ⟨srate, maxblk, cap, rfl⟩)
  | configure l k win mod => exact .inr (.inr ⟨l, k, win, mod, rfl⟩)
  | push ch' x =>
    obtain hsame | ⟨rfl, -⟩ := getD_set_cases s.st.chans ch' ch _ StftChannel.reset
    · exact absurd hsame h
    · exact .inl ⟨x, rfl⟩
  | frame ch' x =>
    obtain hsame | ⟨rfl, -⟩ := getD_set_cases s.st.chans ch' ch _ StftChannel.reset
    · exact absurd hsame h
    · exact .inl ⟨x, rfl⟩
  | _ => exact absurd rfl h

end

/-- No command changes a parameter of the device. -/
theorem exec_params {s t : State} {i : Instr} (h : exec i s = .next t) : t.params = s.params := by
  obtain ⟨e, rfl⟩ | ⟨u, ports, hu, rfl⟩ := exec_raise_or_performed h
  · rfl
  · exact hu.params_eq

/-- Fault registers change only when the first fault is taken (60_exceptions.md R332). -/
theorem SysRegs.enterFault_first {r : SysRegs} {e : ErrCode} {w : Word} {p : Port}
    (h : ¬ ((r.enterFault e w p).fault = r.fault ∧ (r.enterFault e w p).errcode = r.errcode ∧
      (r.enterFault e w p).errcmd = r.errcmd ∧ (r.enterFault e w p).errport = r.errport)) :
    r.fault = false ∧ (r.enterFault e w p).fault = true := by
  refine ⟨?_, SysRegs.enterFault_fault r e w p⟩
  by_contra hf
  rw [SysRegs.enterFault_of_fault r e w p (Bool.eq_true_of_not_eq_false hf)] at h
  exact h ⟨rfl, rfl, rfl, rfl⟩

end Sys2Proof.Machine

namespace Sys2Proof.Proofs

open Sys2Proof.Machine

/-- Settles O59: a fault changes the fault registers only, and what a command performs is owned piece by piece. -/
theorem onlyOwnersWrite : Obligations.OnlyOwnersWrite := by
  intro s t i hexec hi
  obtain ⟨e, rfl⟩ | ⟨u, ports, hu, rfl⟩ := exec_raise_or_performed hexec
  · refine ⟨fun h => absurd ⟨?_, rfl, ?_, ?_⟩ h, SysRegs.enterFault_first, fun h => absurd ?_ h, fun h => absurd ?_ h,
      fun _ => absurd rfl, fun _ => absurd rfl, fun _ _ => absurd rfl, fun _ => absurd rfl, fun _ _ => absurd rfl,
      absurd rfl, absurd ⟨rfl, rfl, rfl, rfl⟩, fun _ => absurd rfl, rfl⟩
    all_goals simp
  · exact ⟨hu.writes_preparation hi, absurd (hu.faultRegs_eq hi), hu.writes_lock hi, hu.writes_blklen hi,
      fun k => hu.writes_smoother hi, fun ch => hu.writes_widx hi,
      fun ch a h => hu.writes_delayMem hi fun hmem => h (congrArg (Mem.read · a) hmem), fun f => hu.writes_coeffs hi,
      fun f ch => hu.writes_history hi, hu.writes_stcfg hi, hu.writes_derived hi, fun ch => hu.writes_stftChan hi,
      hu.params_eq⟩

end Sys2Proof.Proofs
end

section
/-! PROOFS. The reset values, and the register address space: what stands at each address, and that nothing else is mapped. -/

namespace Sys2Proof.Machine

open Sys2Proof.Statements

variable (s : State)

/-- Every reset state has the reset column of 10_state.md R55, whatever the device; its `STCFG` is a configuration word. -/
theorem resetValues_resetOn (p : Params) (ports : Ports) (free : FreeCounts) :
    ResetValues p (State.resetOn p ports free) := by
  have hl : min 9 p.fftMaxLog2 < 16 := by omega
  obtain ⟨hword, hfft, hhop⟩ := configWord_fields hl (by decide : 2 < 4) .hann .identity
  exact {
    sys := rfl
    sp := rfl
    dlcap := rfl
    widx := List.map_replicate
    bq := rfl
    fftLog2 := hfft
    hopLog2 := hhop
    win := winField_configWord hl (by decide) .hann .identity
    mod := modField_configWord hl (by decide) .hann .identity
    cfgHigh := hword
    derived := ⟨rfl, rfl, rfl⟩
    cursors := List.map_replicate }

theorem exec_sysReset : exec .sysReset s = .next (s.hardwareReset.respond ⟨0#32, 0#32⟩) := by
  dsimp only [exec, execSysReset]
  exact runCommand_go _ rfl

/-! The regions of the map (10_state.md R33). -/

theorem readReg_cursor {row ch : Nat} (hrow : row < 5) (hch : ch < 16) :
    readReg s (0x10 + 16 * row + ch) = cursorReg s row ch := by
  rw [readReg, if_neg (by omega), if_pos (by omega), show (0x10 + 16 * row + ch - 0x10) / 16 = row by omega,
    show (0x10 + 16 * row + ch - 0x10) % 16 = ch by omega]

theorem readReg_smoother {i k : Nat} (hi : i < 256) (hk : k < 8) : readReg s (0x1000 + 8 * i + k) = smootherReg s i k := by
  rw [readReg, if_neg (by omega), if_neg (by omega), if_neg (by omega), if_pos (by omega),
    show (0x1000 + 8 * i + k - 0x1000) / 8 = i by omega, show (0x1000 + 8 * i + k - 0x1000) % 8 = k by omega]

theorem readReg_coeff {f k : Nat} (hf : f < 256) (hk : k < 8) : readReg s (0x2000 + 8 * f + k) = coeffReg s f k := by
  rw [readReg, if_neg (by omega), if_neg (by omega), if_neg (by omega), if_neg (by omega), if_pos (by omega),
    show (0x2000 + 8 * f + k - 0x2000) / 8 = f by omega, show (0x2000 + 8 * f + k - 0x2000) % 8 = k by omega]

theorem readReg_history {f ch k : Nat} (hch : ch < 16) (hk : k < 8) :
    readReg s (0x4000 + 128 * f + 8 * ch + k) = historyReg s f ch k := by
  rw [readReg, if_neg (by omega), if_neg (by omega), if_neg (by omega), if_neg (by omega), if_neg (by omega),
    show (0x4000 + 128 * f + 8 * ch + k - 0x4000) / 128 = f by omega,
    show (0x4000 + 128 * f + 8 * ch + k - 0x4000) % 128 / 8 = ch by omega,
    show (0x4000 + 128 * f + 8 * ch + k - 0x4000) % 8 = k by omega]

theorem readReg_errcode {e : Option ErrCode} (h : s.sys.errcode = e) : readReg s 0x2 = some (errcodeWord e) := h ▸ rfl

/-! The registers of one channel, smoother or filter. -/

variable {s}

theorem cursorRegs {ch : Nat} (h : ch < s.params.nch) :
    cursorReg s 0 ch = some (s.delayChan ch).widx ∧ cursorReg s 1 ch = some (s.stftChan ch).inw ∧
      cursorReg s 2 ch = some (s.stftChan ch).ord ∧ cursorReg s 3 ch = some (s.stftChan ch).owr ∧
      cursorReg s 4 ch = some (s.stftChan ch).cnt := by
  simp [cursorReg, Nat.not_le.2 h]

theorem smootherRegs {i : Nat} (h : i < s.params.nsp) :
    smootherReg s i 0 = some (s.smoother i).cur ∧ smootherReg s i 1 = some (s.smoother i).tgt ∧
      smootherReg s i 2 = some (s.smoother i).step ∧ smootherReg s i 3 = some (s.smoother i).rem ∧
      smootherReg s i 4 = some (s.smoother i).rampLen := by
  simp [smootherReg, Nat.not_le.2 h]

theorem coeffRegs {f : Nat} (h : f < s.params.nbq) :
    coeffReg s f 0 = some (s.filter f).coeffs.b0 ∧ coeffReg s f 1 = some (s.filter f).coeffs.b1 ∧
      coeffReg s f 2 = some (s.filter f).coeffs.b2 ∧ coeffReg s f 3 = some (s.filter f).coeffs.a0 ∧
      coeffReg s f 4 = some (s.filter f).coeffs.a1 ∧ coeffReg s f 5 = some (s.filter f).coeffs.a2 := by
  simp [coeffReg, Nat.not_le.2 h]

theorem historyRegs {f ch : Nat} (hf : f < s.params.nbq) (hch : ch < s.params.nch) :
    historyReg s f ch 0 = some ((s.filter f).chan ch).s1 ∧ historyReg s f ch 1 = some ((s.filter f).chan ch).s2 ∧
      historyReg s f ch 2 = some ((s.filter f).chan ch).x1 ∧ historyReg s f ch 3 = some ((s.filter f).chan ch).x2 ∧
      historyReg s f ch 4 = some ((s.filter f).chan ch).y1 ∧ historyReg s f ch 5 = some ((s.filter f).chan ch).y2 := by
  simp [historyReg, Nat.not_le.2 hf, Nat.not_le.2 hch]

/-! What is mapped. -/

theorem systemReg_mapped {a : Nat} (h : (systemReg s a).isSome = true) : a ≤ 0xD := by
  by_contra ha
  obtain ⟨b, rfl⟩ := Nat.exists_eq_add_of_le' (Nat.lt_of_not_le ha)
  exact absurd h (by simp [systemReg])

theorem cursorReg_mapped {row ch : Nat} (h : (cursorReg s row ch).isSome = true) : ch < s.params.nch := by
  by_contra hch
  unfold cursorReg at h
  rw [if_pos (Nat.le_of_not_lt hch)] at h
  cases h

theorem smootherReg_mapped {i k : Nat} (h : (smootherReg s i k).isSome = true) : i < s.params.nsp ∧ k < 5 := by
  unfold smootherReg at h
  split at h
  · cases h
  next hi =>
    refine ⟨Nat.lt_of_not_le hi, ?_⟩
    by_contra hk
    obtain ⟨b, rfl⟩ := Nat.exists_eq_add_of_le' (Nat.le_of_not_lt hk)
    simp at h

theorem coeffReg_mapped {f k : Nat} (h : (coeffReg s f k).isSome = true) : f < s.params.nbq ∧ k < 6 := by
  unfold coeffReg at h
  split at h
  · cases h
  next hf =>
    refine ⟨Nat.lt_of_not_le hf, ?_⟩
    by_contra hk
    obtain ⟨b, rfl⟩ := Nat.exists_eq_add_of_le' (Nat.le_of_not_lt hk)
    simp at h

theorem historyReg_mapped {f ch k : Nat} (h : (historyReg s f ch k).isSome = true) :
    f < s.params.nbq ∧ ch < s.params.nch ∧ k < 6 := by
  unfold historyReg at h
  split at h
  · cases h
  next hin =>
    obtain ⟨hf, hch⟩ := not_or.1 hin
    refine ⟨Nat.lt_of_not_le hf, Nat.lt_of_not_le hch, ?_⟩
    by_contra hk
    obtain ⟨b, rfl⟩ := Nat.exists_eq_add_of_le' (Nat.le_of_not_lt hk)
    simp at h

/-! The fields of `CAPS0`, `CAPS1` and `STATUS`. -/

theorem caps0_toNat {p : Params} (hp : p.InRange) : (caps0 p).toNat = p.nch + p.nsp * 2 ^ 8 + p.nbq * 2 ^ 20 := by
  obtain ⟨⟨-, hch⟩, ⟨-, hsp⟩, ⟨-, hbq⟩, -⟩ := hp
  rw [caps0, BitVec.toNat_ofNat, Nat.mod_eq_of_lt (by omega)]

theorem caps1_toNat {p : Params} (hp : p.InRange) : (caps1 p).toNat = p.dlcapMax + p.fftMaxLog2 * 2 ^ 24 := by
  obtain ⟨-, -, -, ⟨-, hcap⟩, -, hfft⟩ := hp
  rw [caps1, BitVec.toNat_ofNat, Nat.mod_eq_of_lt (by omega)]

theorem caps0_fields {p : Params} (hp : p.InRange) :
    ((caps0 p).extractLsb' 0 5).toNat = p.nch ∧ ((caps0 p).extractLsb' 5 3).toNat = 0 ∧
      ((caps0 p).extractLsb' 8 9).toNat = p.nsp ∧ ((caps0 p).extractLsb' 17 3).toNat = 0 ∧
      ((caps0 p).extractLsb' 20 9).toNat = p.nbq ∧ ((caps0 p).extractLsb' 29 3).toNat = 0 := by
  have hsum := caps0_toNat hp
  obtain ⟨⟨-, hch⟩, ⟨-, hsp⟩, ⟨-, hbq⟩, -⟩ := hp
  refine ⟨?_, ?_, ?_, ?_, ?_, ?_⟩
  all_goals
    rw [BitVec.extractLsb'_toNat, Nat.shiftRight_eq_div_pow, hsum]
    omega

theorem caps1_fields {p : Params} (hp : p.InRange) :
    ((caps1 p).extractLsb' 0 24).toNat = p.dlcapMax ∧ ((caps1 p).extractLsb' 24 4).toNat = p.fftMaxLog2 ∧
      ((caps1 p).extractLsb' 28 4).toNat = 0 := by
  have hsum := caps1_toNat hp
  obtain ⟨-, -, -, ⟨-, hcap⟩, -, hfft⟩ := hp
  refine ⟨?_, ?_, ?_⟩
  all_goals
    rw [BitVec.extractLsb'_toNat, Nat.shiftRight_eq_div_pow, hsum]
    omega

theorem statusReg_toNat (r : SysRegs) : (statusReg r).toNat =
    r.prepared.toNat + r.fault.toNat * 2 + lockCode r.lock * 4 + portCode r.errport * 16 := by
  have hprep := r.prepared.toNat_lt
  have hfault := r.fault.toNat_lt
  have hlock : lockCode r.lock < 3 := by obtain _ | _ | _ := r.lock <;> decide
  have hport : portCode r.errport < 2 := by cases r.errport <;> decide
  rw [statusReg, BitVec.toNat_ofNat, Nat.mod_eq_of_lt (by omega)]

/-- Bit 0 is `PREPARED`, bit 1 `FAULT`, bits 3:2 `LOCK`, bit 4 `ERRPORT`, and the rest is zero (10_state.md R35). -/
theorem statusReg_fields (r : SysRegs) : (statusReg r).getLsbD 0 = r.prepared ∧ (statusReg r).getLsbD 1 = r.fault ∧
    ((statusReg r).extractLsb' 2 2).toNat = lockCode r.lock ∧ ((statusReg r).extractLsb' 4 1).toNat = portCode r.errport ∧
    ((statusReg r).extractLsb' 5 27).toNat = 0 := by
  have hprep := r.prepared.toNat_lt
  have hfault := r.fault.toNat_lt
  have hlock : lockCode r.lock < 3 := by obtain _ | _ | _ := r.lock <;> decide
  have hport : portCode r.errport < 2 := by cases r.errport <;> decide
  have hbit0 : (statusReg r).toNat / 2 ^ 0 % 2 = r.prepared.toNat := by rw [statusReg_toNat]; omega
  have hbit1 : (statusReg r).toNat / 2 ^ 1 % 2 = r.fault.toNat := by rw [statusReg_toNat]; omega
  refine ⟨?_, ?_, ?_, ?_, ?_⟩
  · rw [BitVec.getLsbD, Nat.testBit_eq_decide_div_mod_eq, hbit0]
    cases r.prepared <;> rfl
  · rw [BitVec.getLsbD, Nat.testBit_eq_decide_div_mod_eq, hbit1]
    cases r.fault <;> rfl
  all_goals
    rw [BitVec.extractLsb'_toNat, Nat.shiftRight_eq_div_pow, statusReg_toNat]
    omega

end Sys2Proof.Machine

namespace Sys2Proof.Proofs

open Sys2Proof.Machine

/-- Settles O13: `SYS.RESET` passes every check and leaves a reset state of the same device. -/
theorem resetLeavesResetValues : Obligations.ResetLeavesResetValues :=
  ⟨resetValues_resetOn _ _ _, fun s => ⟨_, exec_sysReset s, resetValues_resetOn s.params _ s.free, rfl, rfl, rfl⟩⟩

/-- Settles O18: each region of the map at the offsets of its registers; `A0` reads 1.0 by the invariant. -/
theorem registerMapHoldsState : Obligations.RegisterMapHoldsState := by
  intro s hinv
  have ⟨⟨⟨_, hnch⟩, ⟨_, hnsp⟩, ⟨_, hnbq⟩, _⟩, _⟩ := hinv.legal
  refine ⟨rfl, rfl, readReg_errcode s, readReg_errcode s, readReg_errcode s, readReg_errcode s, readReg_errcode s,
    readReg_errcode s, readReg_errcode s, readReg_errcode s, readReg_errcode s, readReg_errcode s, rfl, rfl, rfl, rfl, rfl, rfl,
    rfl, rfl, rfl, rfl, rfl, fun ch hch => ?_, fun i hi => ?_, fun f hf => ?_, fun f hf ch hch => ?_⟩
  · have hread : ∀ row < 5, readReg s (0x10 + 16 * row + ch) = cursorReg s row ch :=
      fun row hrow => readReg_cursor s hrow (hch.trans_le hnch)
    obtain ⟨hwidx, hinw, hord, howr, hcnt⟩ := cursorRegs hch
    exact ⟨(hread 0 (by decide)).trans hwidx, (hread 1 (by decide)).trans hinw, (hread 2 (by decide)).trans hord,
      (hread 3 (by decide)).trans howr, (hread 4 (by decide)).trans hcnt⟩
  · have hread : ∀ k < 8, readReg s (0x1000 + 8 * i + k) = smootherReg s i k :=
      fun k hk => readReg_smoother s (hi.trans_le hnsp) hk
    obtain ⟨hcur, htgt, hstep, hrem, hlen⟩ := smootherRegs hi
    exact ⟨(hread 0 (by decide)).trans hcur, (hread 1 (by decide)).trans htgt, (hread 2 (by decide)).trans hstep,
      (hread 3 (by decide)).trans hrem, (hread 4 (by decide)).trans hlen⟩
  · have hread : ∀ k < 8, readReg s (0x2000 + 8 * f + k) = coeffReg s f k :=
      fun k hk => readReg_coeff s (hf.trans_le hnbq) hk
    obtain ⟨hb0, hb1, hb2, ha0, ha1, ha2⟩ := coeffRegs hf
    obtain ⟨hone, -⟩ := hinv.filter_ok hf
    rw [hone] at ha0
    exact ⟨(hread 0 (by decide)).trans hb0, (hread 1 (by decide)).trans hb1, (hread 2 (by decide)).trans hb2,
      (hread 3 (by decide)).trans ha0, (hread 4 (by decide)).trans ha1, (hread 5 (by decide)).trans ha2⟩
  · have hread : ∀ k < 8, readReg s (0x4000 + 128 * f + 8 * ch + k) = historyReg s f ch k :=
      fun k hk => readReg_history s (hch.trans_le hnch) hk
    obtain ⟨hs1, hs2, hx1, hx2, hy1, hy2⟩ := historyRegs hf hch
    exact ⟨(hread 0 (by decide)).trans hs1, (hread 1 (by decide)).trans hs2, (hread 2 (by decide)).trans hx1,
      (hread 3 (by decide)).trans hx2, (hread 4 (by decide)).trans hy1, (hread 5 (by decide)).trans hy2⟩

/-- Settles O19, region by region of the map. -/
theorem registerMapHasNoOthers : Obligations.RegisterMapHasNoOthers := by
  intro s a _ hsome
  unfold readReg at hsome
  split at hsome
  · exact .inl (systemReg_mapped hsome)
  split at hsome
  · exact .inr (.inl ⟨(a - 0x10) / 16, by omega, (a - 0x10) % 16, cursorReg_mapped hsome, by omega⟩)
  split at hsome
  · cases hsome
  split at hsome
  · obtain ⟨hi, hk⟩ := smootherReg_mapped hsome
    exact .inr (.inr (.inl ⟨_, hi, _, hk, by omega⟩))
  split at hsome
  · obtain ⟨hf, hk⟩ := coeffReg_mapped hsome
    exact .inr (.inr (.inr (.inl ⟨_, hf, _, hk, by omega⟩)))
  · obtain ⟨hf, hch, hk⟩ := historyReg_mapped hsome
    exact .inr (.inr (.inr (.inr ⟨_, hf, _, hch, _, hk, by omega⟩)))

/-- Settles O20: the words as sums of their fields, and that no command changes the parameters. -/
theorem statusAndCapsFields : Obligations.StatusAndCapsFields := by
  refine ⟨fun s hp => ⟨caps0 s.params, caps1 s.params, rfl, rfl, ?_⟩, fun s t i hexec => ?_, fun s => ?_⟩
  · obtain ⟨hnch, hzero5, hnsp, hzero17, hnbq, hzero29⟩ := caps0_fields hp
    exact ⟨hnch, hzero5, hnsp, hzero17, hnbq, hzero29, caps1_fields hp⟩
  · have hparams := exec_params hexec
    exact ⟨congrArg (some <| caps0 ·) hparams, congrArg (some <| caps1 ·) hparams⟩
  · obtain ⟨hprep, hfault, hlock, hport, hhigh⟩ := statusReg_fields s.sys
    exact ⟨statusReg s.sys, rfl, hprep, hfault, fun h => hlock.trans (congrArg lockCode h),
      fun h => hlock.trans (congrArg lockCode h), fun h => hlock.trans (congrArg lockCode h),
      fun h => hport.trans (congrArg portCode h), fun h => hport.trans (congrArg portCode h), hhigh⟩

end Sys2Proof.Proofs
end

section
/-! PROOFS. What a step does for the port it serves, and what a block scope guards from the other port (20_memory.md R88 to R91). -/

namespace Sys2Proof.Machine

variable {s t u : State} {i : Instr} {p : Port}

/-! One step, by what the served port delivers. -/

theorem step_of_choose (h : s.choose = some p) : step s = serve p s := by simp only [step, h]

theorem serve_of_command {rest : List Word} (h : s.delivered p = .command i rest) :
    serve p s = exec i (s.takeCommand p rest) := by simp only [serve, h]

/-- All that serving a port can leave where it gives a next state. -/
theorem serve_next (h : serve p s = .next t) :
    t = s ∨ (∃ w rest, s.delivered p = .illegal w rest ∧ t = illegalCommand w (s.takeCommand p rest)) ∨
      ∃ i rest, s.delivered p = .command i rest ∧ exec i (s.takeCommand p rest) = .next t := by
  unfold serve at h
  split at h
  next => exact .inl (Host.Outcome.next.inj h).symm
  next w rest hdel => exact .inr (.inl ⟨w, rest, hdel, (Host.Outcome.next.inj h).symm⟩)
  next i rest hdel => exact .inr (.inr ⟨i, rest, hdel, h⟩)

theorem State.takeCommand_port_self (s : State) (p : Port) (rest : List Word) :
    (s.takeCommand p rest).ports.port p = { s.ports.port p with pending := rest } := by
  rw [State.takeCommand_ports, Ports.take_port, if_pos rfl]

theorem State.takeCommand_port_other (s : State) (p : Port) (rest : List Word) :
    (s.takeCommand p rest).ports.port p.other = s.ports.port p.other := by
  rw [State.takeCommand_ports, Ports.take_port, if_neg (Port.other_ne p)]

/-! The common checks at the port that does not own the scope (40_sys.md R144, 60_exceptions.md R325). -/

theorem ownScope_other (p : Port) : ownScope (some p) p.other = .fault .scope := by simp [ownScope]

theorem awaitScope_other (p : Port) : awaitScope (some p) p.other = .held := by simp [awaitScope]

theorem outsideScope_other (p : Port) : outsideScope (some p) p.other = .held := by
  simp [outsideScope, awaitScope_other]

/-- Inside a scope only classes X and F pass the scope check at the other port. -/
theorem class_of_scopeCheck_other (h : scopeCheck i (some p) p.other = .go) : cmdClass i = .reset ∨ cmdClass i = .free := by
  unfold scopeCheck at h
  split at h
  next hc => exact .inl hc
  next hc => exact .inr hc
  next => rw [ownScope_other] at h; cases h
  next => split at h <;> simp [outsideScope_other, awaitScope_other] at h
  next => split at h <;> simp [ownScope_other, outsideScope_other] at h

theorem free_of_survivesFault (h : survivesFault i = true) : cmdClass i = .free := by
  cases i with
  | sysNop | sysRdreg => rfl
  | _ => cases h

/-- The scope check is the last of the common checks: without a fault, a command that passes them passes it. -/
theorem scopeCheck_of_examine_go (hf : s.sys.fault = false) (h : examine i p s = .go) :
    cmdClass i = .reset ∨ scopeCheck i s.sys.lock p = .go := by
  by_cases hc : cmdClass i = .reset
  · exact .inl hc
  · rw [examine, if_neg hc, hf, if_neg Bool.false_ne_true] at h
    split at h
    · cases h
    · split at h
      · cases h
      · exact .inr h

theorem class_of_examine_other (hlock : s.sys.lock = some p) (h : examine i p.other s = .go) :
    cmdClass i = .reset ∨ cmdClass i = .free := by
  cases hf : s.sys.fault with
  | true =>
    rw [examine_of_fault hf] at h
    split at h
    next hpass => exact hpass.imp_right free_of_survivesFault
    next => cases h
  | false =>
    obtain hreset | hscope := scopeCheck_of_examine_go hf h
    · exact .inl hreset
    · exact class_of_scopeCheck_other (hlock ▸ hscope)

theorem eq_sysReset_of_class (h : cmdClass i = .reset) : i = .sysReset := by
  cases i with
  | sysReset => rfl
  | _ => cases h

/-! What the scope guards. -/

/-- `t` has the processing state, the scope and the device of `s`: all but the smoothers, the fault registers, `SRATE`,
`MAXBLK`, the ports and the free values (20_memory.md R91). -/
def SameGuarded (s t : State) : Prop :=
  t.bq = s.bq ∧ t.dl = s.dl ∧ t.st = s.st ∧ t.sys.lock = s.sys.lock ∧ t.sys.prepared = s.sys.prepared ∧
    t.sys.blklen = s.sys.blklen ∧ t.params = s.params

theorem SameGuarded.refl (s : State) : SameGuarded s s := ⟨rfl, rfl, rfl, rfl, rfl, rfl, rfl⟩

theorem SameGuarded.respond (h : SameGuarded s t) (r : Response) : SameGuarded s (t.respond r) := h

theorem SameGuarded.of_takeCommand {q : Port} {rest : List Word} (h : SameGuarded (s.takeCommand q rest) t) :
    SameGuarded s t := h

theorem sameGuarded_raise (s : State) (e : ErrCode) (w : Word) : SameGuarded s (s.raise e w) :=
  ⟨rfl, rfl, rfl, SysRegs.enterFault_lock .., SysRegs.enterFault_prepared .., SysRegs.enterFault_blklen .., rfl⟩

theorem sameGuarded_illegalCommand (w : Word) (s : State) : SameGuarded s (illegalCommand w s) := by
  unfold illegalCommand
  split
  · exact (SameGuarded.refl s).respond _
  · exact sameGuarded_raise s _ w

/-- A class F command reads, or writes a smoother. -/
theorem Performed.sameGuarded_of_free (hu : Performed s i u) (hi : cmdClass i = .free) : SameGuarded s u := by
  cases hu with
  | reads | configureSmoother | targetSmoother | advanceSmoother => exact ⟨rfl, rfl, rfl, rfl, rfl, rfl, rfl⟩
  | _ => cases hi

/-- A command of the port that does not own the scope is `SYS.RESET` or leaves what the scope guards. -/
theorem exec_other_sameGuarded (hlock : s.sys.lock = some p) (hcur : s.ports.cur = p.other) (h : exec i s = .next t) :
    i = .sysReset ∨ SameGuarded s t := by
  obtain rfl | rfl | ⟨e, rfl⟩ | ⟨u, r, hgo, hu, rfl⟩ := exec_next h
  · exact .inr (.refl t)
  · exact .inr ((SameGuarded.refl s).respond _)
  · exact .inr (sameGuarded_raise s e _)
  · obtain hreset | hfree := class_of_examine_other hlock (hcur ▸ hgo)
    · exact .inl (eq_sysReset_of_class hreset)
    · exact .inr ((hu.sameGuarded_of_free hfree).respond r)

end Sys2Proof.Machine

namespace Sys2Proof.Proofs

open Sys2Proof.Machine

/-- Settles O60: the common checks let only `SYS.RESET` and class F of the other port through, and class F writes nothing
but smoothers. -/
theorem scopeShutsOutOtherPort : Obligations.ScopeShutsOutOtherPort := by
  intro s t p hlock hchoose hstep
  rw [step_of_choose hchoose] at hstep
  obtain rfl | ⟨w, rest, -, rfl⟩ | ⟨i, rest, hdel, hexec⟩ := serve_next hstep
  · exact .inr (SameGuarded.refl t)
  · exact .inr (sameGuarded_illegalCommand w _).of_takeCommand
  · obtain rfl | hsame := exec_other_sameGuarded (s := s.takeCommand p.other rest) hlock (Ports.take_cur _ _ rest) hexec
    · exact .inl ⟨rest, hdel⟩
    · exact .inr hsame.of_takeCommand

/-- Settles O6: only an enabled port is chosen, and serving it hands its command to `exec` with the words taken. -/
theorem stepRunsDecodedCommand : Obligations.StepRunsDecodedCommand := by
  refine ⟨fun s p i rest hchoose hdel => ?_, fun _ _ => State.choose_of_enabled⟩
  have hstep : step s = exec i (s.takeCommand p rest) := (step_of_choose hchoose).trans (serve_of_command hdel)
  exact ⟨State.enabled_of_choose hchoose, hstep, Ports.take_cur _ p rest, s.takeCommand_port_self p rest,
    s.takeCommand_port_other p rest, rfl⟩

end Sys2Proof.Proofs
end

section
/-! PROOFS. The fields of a command word (30_encoding.md R111, R114): a word is its five fields, and the row of the opcode map it selects is read off them. -/

namespace Sys2Proof

variable {w v : Word}

/-- `IMM`, bits 11:0 (30_encoding.md R111); the model names only its subfields. -/
def immField (w : Word) : Nat := (w.extractLsb' 0 12).toNat

/-! Fields as digits of the word. -/

theorem unitField_eq_div (w : Word) : unitField w = w.toNat / 2 ^ 28 := by
  simp only [unitField, BitVec.extractLsb'_toNat, Nat.shiftRight_eq_div_pow]
  omega

theorem funcField_eq_div (w : Word) : funcField w = w.toNat / 2 ^ 24 % 16 := by
  simp only [funcField, BitVec.extractLsb'_toNat, Nat.shiftRight_eq_div_pow]

theorem idxField_eq_div (w : Word) : idxField w = w.toNat / 2 ^ 16 % 256 := by
  simp only [idxField, BitVec.extractLsb'_toNat, Nat.shiftRight_eq_div_pow]

theorem chField_eq_div (w : Word) : chField w = w.toNat / 2 ^ 12 % 16 := by
  simp only [chField, BitVec.extractLsb'_toNat, Nat.shiftRight_eq_div_pow]

theorem immField_eq_mod (w : Word) : immField w = w.toNat % 2 ^ 12 := by
  simp only [immField, BitVec.extractLsb'_toNat, Nat.shiftRight_zero]

theorem idxField_lt (w : Word) : idxField w < 256 := (w.extractLsb' 16 8).isLt
theorem chField_lt (w : Word) : chField w < 16 := (w.extractLsb' 12 4).isLt
theorem immField_lt (w : Word) : immField w < 4096 := (w.extractLsb' 0 12).isLt

/-- A word is its five fields. -/
theorem word_eq_iff_fields : w = v ↔ unitField w = unitField v ∧ funcField w = funcField v ∧
    idxField w = idxField v ∧ chField w = chField v ∧ immField w = immField v := by
  refine ⟨fun h => h ▸ ⟨rfl, rfl, rfl, rfl, rfl⟩, fun ⟨hunit, hfunc, hidx, hch, himm⟩ => BitVec.eq_of_toNat_eq ?_⟩
  rw [unitField_eq_div, unitField_eq_div] at hunit
  rw [funcField_eq_div, funcField_eq_div] at hfunc
  rw [idxField_eq_div, idxField_eq_div] at hidx
  rw [chField_eq_div, chField_eq_div] at hch
  rw [immField_eq_mod, immField_eq_mod] at himm
  omega

/-! A mask acts on each field by itself. -/

theorem unitField_and (w m : Word) : unitField (w &&& m) = unitField w &&& unitField m := by
  simp only [unitField, BitVec.extractLsb'_and, BitVec.toNat_and]

theorem funcField_and (w m : Word) : funcField (w &&& m) = funcField w &&& funcField m := by
  simp only [funcField, BitVec.extractLsb'_and, BitVec.toNat_and]

theorem idxField_and (w m : Word) : idxField (w &&& m) = idxField w &&& idxField m := by
  simp only [idxField, BitVec.extractLsb'_and, BitVec.toNat_and]

theorem chField_and (w m : Word) : chField (w &&& m) = chField w &&& chField m := by
  simp only [chField, BitVec.extractLsb'_and, BitVec.toNat_and]

theorem immField_and (w m : Word) : immField (w &&& m) = immField w &&& immField m := by
  simp only [immField, BitVec.extractLsb'_and, BitVec.toNat_and]

/-! The fields a command word is packed from. -/

theorem toNat_packCommand (unit func : BitVec 4) (idx ch imm : Nat) : (packCommand unit func idx ch imm).toNat =
    (((unit.toNat * 16 + func.toNat) * 256 + idx % 256) * 16 + ch % 16) * 4096 + imm % 4096 := by
  have append {m n : Nat} (x : BitVec m) (y : BitVec n) : (x ++ y).toNat = x.toNat * 2 ^ n + y.toNat := by
    rw [BitVec.toNat_append, ← Nat.shiftLeft_add_eq_or_of_lt y.isLt, Nat.shiftLeft_eq]
  simp only [packCommand, append, BitVec.toNat_ofNat, Nat.reducePow]

section

variable (unit func : BitVec 4) (idx ch imm : Nat)

@[simp] theorem unitField_packCommand : unitField (packCommand unit func idx ch imm) = unit.toNat := by
  rw [unitField_eq_div, toNat_packCommand]; omega

@[simp] theorem funcField_packCommand : funcField (packCommand unit func idx ch imm) = func.toNat := by
  rw [funcField_eq_div, toNat_packCommand]; omega

@[simp] theorem idxField_packCommand : idxField (packCommand unit func idx ch imm) = idx % 256 := by
  rw [idxField_eq_div, toNat_packCommand]; omega

@[simp] theorem chField_packCommand : chField (packCommand unit func idx ch imm) = ch % 16 := by
  rw [chField_eq_div, toNat_packCommand]; omega

@[simp] theorem immField_packCommand : immField (packCommand unit func idx ch imm) = imm % 4096 := by
  rw [immField_eq_mod, toNat_packCommand]; omega

end

/-! The subfields of `IMM` (30_encoding.md R114). -/

theorem fftLog2Field_eq_mod (w : Word) : fftLog2Field w = immField w % 16 := by
  rw [immField_eq_mod]
  simp only [fftLog2Field, BitVec.extractLsb'_toNat, Nat.shiftRight_zero]
  omega

theorem hopLog2Field_eq_div (w : Word) : hopLog2Field w = immField w / 16 % 4 := by
  rw [immField_eq_mod]
  simp only [hopLog2Field, BitVec.extractLsb'_toNat, Nat.shiftRight_eq_div_pow]
  omega

theorem windowOf_code : ∀ code : BitVec 2, (windowOf code).code = code.toNat := by decide

theorem spaceOf_code : ∀ code : BitVec 2, (spaceOf code).code = code.toNat := by decide

theorem winField_code (w : Word) : (winField w).code = immField w / 64 % 4 := by
  rw [winField, windowOf_code, immField_eq_mod]
  simp only [BitVec.extractLsb'_toNat, Nat.shiftRight_eq_div_pow]
  omega

theorem spaceField_code (w : Word) : (spaceField w).code = immField w % 4 := by
  rw [spaceField, spaceOf_code, immField_eq_mod]
  simp only [BitVec.extractLsb'_toNat, Nat.shiftRight_zero]
  omega

theorem modField_code (w : Word) : (modField w).code = immField w / 256 % 2 := by
  have bit : ∀ code : BitVec 1, (if code = 1#1 then ModSel.external else .identity).code = code.toNat := by decide
  rw [modField, bit, immField_eq_mod]
  simp only [BitVec.extractLsb'_toNat, Nat.shiftRight_eq_div_pow]
  omega

theorem Window.code_lt (win : Window) : win.code < 4 := by cases win <;> decide
theorem Space.code_lt (space : Space) : space.code < 4 := by cases space <;> decide
theorem ModSel.code_lt (mod : ModSel) : mod.code < 2 := by cases mod <;> decide

/-- The configuration in `IMM` is its low nine bits. -/
theorem configImm_fields (w : Word) :
    configImm (fftLog2Field w) (hopLog2Field w) (winField w) (modField w) = immField w % 512 := by
  rw [configImm, modField_code, winField_code, hopLog2Field_eq_div, fftLog2Field_eq_mod]; omega

/-- `IMM` holds a space code and nothing else. -/
theorem immField_eq_space_iff : immField w = (spaceField w).code % 4096 ↔ immField w < 4 := by
  rw [spaceField_code]; omega

/-- `IMM` holds a configuration and nothing else. -/
theorem immField_eq_config_iff : immField w = immField w % 512 % 4096 ↔ immField w < 512 := by omega

/-! The codes name the windows, the spaces and the modification selectors one to one. -/

theorem Window.code_injective : Function.Injective Window.code :=
  Function.LeftInverse.injective (g := fun code => windowOf (BitVec.ofNat 2 code)) fun win => by cases win <;> rfl

theorem Space.code_injective : Function.Injective Space.code :=
  Function.LeftInverse.injective (g := fun code => spaceOf (BitVec.ofNat 2 code)) fun space => by cases space <;> rfl

theorem ModSel.code_injective : Function.Injective ModSel.code :=
  Function.LeftInverse.injective (g := fun code => if code = 1 then .external else .identity) fun mod => by
    cases mod <;> rfl

end Sys2Proof
end

section
/-! PROOFS. The opcode map: which words a row selects (30_encoding.md R112, R118). -/

namespace Sys2Proof

variable {w : Word}

theorem eq_packCommand_iff {unit func : BitVec 4} {idx ch imm : Nat} : w = packCommand unit func idx ch imm ↔
    unitField w = unit.toNat ∧ funcField w = func.toNat ∧ idxField w = idx % 256 ∧ chField w = ch % 16 ∧
      immField w = imm % 4096 := by
  rw [word_eq_iff_fields, unitField_packCommand, funcField_packCommand, idxField_packCommand, chField_packCommand,
    immField_packCommand]

/-! The six masks of the map, by the fields they leave free. -/

/-- A mask of `n` ones above `k` zeros. -/
theorem and_highMask_eq_zero_iff {x : Nat} (k n : Nat) (hx : x < 2 ^ (k + n)) :
    x &&& (2 ^ n - 1) * 2 ^ k = 0 ↔ x < 2 ^ k := by
  have hpos : 0 < 2 ^ k := Nat.two_pow_pos k
  have hlow : (x &&& (2 ^ n - 1) * 2 ^ k) % 2 ^ k = 0 := by
    rw [Nat.and_mod_two_pow, Nat.mul_mod_left, Nat.and_zero]
  have hhigh : (x &&& (2 ^ n - 1) * 2 ^ k) / 2 ^ k = x / 2 ^ k := by
    rw [Nat.and_div_two_pow, Nat.mul_div_cancel _ hpos, Nat.and_two_pow_sub_one_eq_mod,
      Nat.mod_eq_of_lt (Nat.div_lt_of_lt_mul (Nat.pow_add 2 k n ▸ hx))]
  rw [← Nat.div_eq_zero_iff_lt hpos, ← hhigh, Nat.div_eq_zero_iff_lt hpos]
  exact ⟨fun h => h ▸ hpos, fun h => Nat.mod_eq_of_lt h ▸ hlow⟩

theorem idxField_and_eq_zero_iff : idxField w &&& 255 = 0 ↔ idxField w = 0 :=
  (and_highMask_eq_zero_iff 0 8 (idxField_lt w)).trans Nat.lt_one_iff

theorem chField_and_eq_zero_iff : chField w &&& 15 = 0 ↔ chField w = 0 :=
  (and_highMask_eq_zero_iff 0 4 (chField_lt w)).trans Nat.lt_one_iff

theorem immField_and_eq_zero_iff : immField w &&& 4095 = 0 ↔ immField w = 0 :=
  (and_highMask_eq_zero_iff 0 12 (immField_lt w)).trans Nat.lt_one_iff

theorem immField_and_space_eq_zero_iff : immField w &&& 0xFFC = 0 ↔ immField w < 4 :=
  and_highMask_eq_zero_iff 2 10 (immField_lt w)

theorem immField_and_config_eq_zero_iff : immField w &&& 0xE00 = 0 ↔ immField w < 512 :=
  and_highMask_eq_zero_iff 9 3 (immField_lt w)

/-- A mask that covers `UNIT`, `FUNC` and, in the other fields, the bits of `idx`, `ch` and `imm`: it finds the pattern in the
words with that `UNIT` and `FUNC` and zeros in the bits it covers. -/
theorem and_packCommand_eq_iff {unit func : BitVec 4} (idx ch imm : Nat) :
    w &&& packCommand 15 15 idx ch imm = packCommand unit func 0 0 0 ↔
      unitField w = unit.toNat ∧ funcField w = func.toNat ∧ idxField w &&& idx % 256 = 0 ∧ chField w &&& ch % 16 = 0 ∧
        immField w &&& imm % 4096 = 0 := by
  have unitBits : unitField w &&& (15 : BitVec 4).toNat = unitField w :=
    (Nat.and_two_pow_sub_one_eq_mod _ 4).trans (Nat.mod_eq_of_lt (w.extractLsb' 28 4).isLt)
  have funcBits : funcField w &&& (15 : BitVec 4).toNat = funcField w :=
    (Nat.and_two_pow_sub_one_eq_mod _ 4).trans (Nat.mod_eq_of_lt (w.extractLsb' 24 4).isLt)
  rw [eq_packCommand_iff, unitField_and, funcField_and, idxField_and, chField_and, immField_and, unitField_packCommand,
    funcField_packCommand, idxField_packCommand, chField_packCommand, immField_packCommand, unitBits, funcBits]

section

variable (w : Word) (unit func : BitVec 4)

theorem selects_fixed : w &&& 0xFFFFFFFF#32 = packCommand unit func 0 0 0 ↔ w = packCommand unit func 0 0 0 := by
  rw [show 0xFFFFFFFF#32 = BitVec.allOnes 32 from rfl, BitVec.and_allOnes]

theorem selects_idx :
    w &&& 0xFF00FFFF#32 = packCommand unit func 0 0 0 ↔ w = packCommand unit func (idxField w) 0 0 := by
  refine (and_packCommand_eq_iff 0 15 4095).trans ?_
  simp [eq_packCommand_iff, Nat.mod_eq_of_lt (idxField_lt w), chField_and_eq_zero_iff, immField_and_eq_zero_iff]

theorem selects_ch :
    w &&& 0xFFFF0FFF#32 = packCommand unit func 0 0 0 ↔ w = packCommand unit func 0 (chField w) 0 := by
  refine (and_packCommand_eq_iff 255 0 4095).trans ?_
  simp [eq_packCommand_iff, Nat.mod_eq_of_lt (chField_lt w), idxField_and_eq_zero_iff, immField_and_eq_zero_iff]

theorem selects_idx_ch :
    w &&& 0xFF000FFF#32 = packCommand unit func 0 0 0 ↔ w = packCommand unit func (idxField w) (chField w) 0 := by
  refine (and_packCommand_eq_iff 0 0 4095).trans ?_
  simp [eq_packCommand_iff, Nat.mod_eq_of_lt (idxField_lt w), Nat.mod_eq_of_lt (chField_lt w), immField_and_eq_zero_iff]

theorem selects_ch_space :
    w &&& 0xFFFF0FFC#32 = packCommand unit func 0 0 0 ↔ w = packCommand unit func 0 (chField w) (spaceField w).code := by
  refine (and_packCommand_eq_iff 255 0 0xFFC).trans ?_
  simp [eq_packCommand_iff, Nat.mod_eq_of_lt (chField_lt w), idxField_and_eq_zero_iff, immField_and_space_eq_zero_iff,
    immField_eq_space_iff]

theorem selects_config : w &&& 0xFFFFFE00#32 = packCommand unit func 0 0 0 ↔
    w = packCommand unit func 0 0 (configImm (fftLog2Field w) (hopLog2Field w) (winField w) (modField w)) := by
  refine (and_packCommand_eq_iff 255 15 0xE00).trans ?_
  simp [eq_packCommand_iff, idxField_and_eq_zero_iff, chField_and_eq_zero_iff, immField_and_config_eq_zero_iff,
    configImm_fields, immField_eq_config_iff]

end

/-! The rows. -/

/-- The command word of an opcode that has the free fields of `w`: what its row asks of `w` (30_encoding.md R112, R114). -/
def Opcode.headWord : Opcode → Word → Word
  | .sysNop, _ => packCommand 0 0 0 0 0
  | .sysReset, _ => packCommand 0 1 0 0 0
  | .sysPrepare, _ => packCommand 0 2 0 0 0
  | .sysBegin, _ => packCommand 0 3 0 0 0
  | .sysEnd, _ => packCommand 0 4 0 0 0
  | .sysRdreg, _ => packCommand 0 5 0 0 0
  | .sysRdmem, w => packCommand 0 6 0 (chField w) (spaceField w).code
  | .spConfig, w => packCommand 1 0 (idxField w) 0 0
  | .spSettgt, w => packCommand 1 1 (idxField w) 0 0
  | .spAdv, w => packCommand 1 2 (idxField w) 0 0
  | .spSnap, w => packCommand 1 3 (idxField w) 0 0
  | .dlWrite, w => packCommand 2 0 0 (chField w) 0
  | .dlAdv, w => packCommand 2 1 0 (chField w) 0
  | .dlRdn, w => packCommand 2 4 0 (chField w) 0
  | .dlRdl, w => packCommand 2 5 0 (chField w) 0
  | .dlRdc, w => packCommand 2 6 0 (chField w) 0
  | .bqLoad, w => packCommand 3 0 (idxField w) 0 0
  | .bqStep, w => packCommand 3 1 (idxField w) (chField w) 0
  | .bqClear, w => packCommand 3 2 (idxField w) 0 0
  | .stConfig, w => packCommand 4 0 0 0 (configImm (fftLog2Field w) (hopLog2Field w) (winField w) (modField w))
  | .stPush, w => packCommand 4 1 0 (chField w) 0

/-- A row selects exactly the command words of its opcode. -/
theorem row_selects_iff (w : Word) : ∀ r ∈ opcodeTable, w &&& r.mask = r.pattern ↔ w = r.op.headWord w := by
  simp only [opcodeTable, List.forall_mem_cons]
  exact ⟨selects_fixed w 0 0, selects_fixed w 0 1, selects_fixed w 0 2, selects_fixed w 0 3, selects_fixed w 0 4,
    selects_fixed w 0 5, selects_ch_space w 0 6,
    selects_idx w 1 0, selects_idx w 1 1, selects_idx w 1 2, selects_idx w 1 3,
    selects_ch w 2 0, selects_ch w 2 1, selects_ch w 2 4, selects_ch w 2 5, selects_ch w 2 6,
    selects_idx w 3 0, selects_idx_ch w 3 1, selects_idx w 3 2,
    selects_config w 4 0, selects_ch w 4 1, nofun⟩

/-- A word that selects a row is a command word of the row's opcode. -/
theorem findRow_eq_some {r : OpcodeRow} (h : findRow w = some r) : w = r.op.headWord w :=
  (row_selects_iff w r (List.mem_of_find?_eq_some h)).1 (by simpa using List.find?_some h)

theorem findRow_eq_none_iff : findRow w = none ↔ ∀ r ∈ opcodeTable, w ≠ r.op.headWord w := by
  simp only [findRow, List.find?_eq_none, beq_iff_eq]
  exact forall₂_congr fun r hr => not_congr (row_selects_iff w r hr)

end Sys2Proof
end

section
/-! PROOFS. Decoding and encoding are inverse, the rows are disjoint, and a word that selects none is a reserved encoding
(30_encoding.md R110 to R118). -/

namespace Sys2Proof

open Sys2Proof.Statements

variable {w : Word} {ws rest : List Word} {i : Instr} {op : Opcode}

/-! One command. -/

/-- A command assembled from a word and the words after it has their fields and operands. -/
theorem assemble_eq_some (h : assemble op w ws = some (i, rest)) :
    i.commandWord = op.headWord w ∧ i.wellFormed = true ∧ i.operandWords ++ rest = ws := by
  have hidx : fitsIdx (idxField w) = true := decide_eq_true (idxField_lt w)
  have hch : fitsCh (chField w) = true := decide_eq_true (chField_lt w)
  have hfft : fitsFftLog2 (fftLog2Field w) = true := decide_eq_true (w.extractLsb' 0 4).isLt
  have hhop : fitsHopLog2 (hopLog2Field w) = true := decide_eq_true (w.extractLsb' 4 2).isLt
  unfold assemble at h
  split at h
  all_goals cases h
  all_goals exact ⟨rfl, by simp [Instr.wellFormed, hidx, hch, hfft, hhop], rfl⟩

/-- The laws of the single commands, for all commands. -/
theorem headDecodes (i : Instr) : Laws.HeadDecodes.Statement i := by
  cases i with
  | sysNop => exact Laws.HeadDecodes.sysNop
  | sysReset => exact Laws.HeadDecodes.sysReset
  | sysPrepare srate maxblk cap => exact Laws.HeadDecodes.sysPrepare srate maxblk cap
  | sysBegin n => exact Laws.HeadDecodes.sysBegin n
  | sysEnd => exact Laws.HeadDecodes.sysEnd
  | sysRdreg addr => exact Laws.HeadDecodes.sysRdreg addr
  | sysRdmem ch space addr => exact Laws.HeadDecodes.sysRdmem ch space addr
  | spConfig k n => exact Laws.HeadDecodes.spConfig k n
  | spSettgt k v => exact Laws.HeadDecodes.spSettgt k v
  | spAdv k => exact Laws.HeadDecodes.spAdv k
  | spSnap k => exact Laws.HeadDecodes.spSnap k
  | dlWrite ch x => exact Laws.HeadDecodes.dlWrite ch x
  | dlAdv ch => exact Laws.HeadDecodes.dlAdv ch
  | dlRdn ch d => exact Laws.HeadDecodes.dlRdn ch d
  | dlRdl ch d => exact Laws.HeadDecodes.dlRdl ch d
  | dlRdc ch d => exact Laws.HeadDecodes.dlRdc ch d
  | bqLoad f b0 b1 b2 a0 a1 a2 => exact Laws.HeadDecodes.bqLoad f b0 b1 b2 a0 a1 a2
  | bqStep f ch x => exact Laws.HeadDecodes.bqStep f ch x
  | bqClear f => exact Laws.HeadDecodes.bqClear f
  | stConfig l k win mod => exact Laws.HeadDecodes.stConfig l k win mod
  | stPush ch x => exact Laws.HeadDecodes.stPush ch x

/-- The command word of a well-formed command selects the row of its opcode. -/
theorem findRow_commandWord (h : i.wellFormed = true) :
    ∃ r, findRow i.commandWord = some r ∧ r.op = Laws.opcodeOf i := by
  obtain ⟨r, hr, hop⟩ := Option.map_eq_some_iff.1 (headDecodes i h)
  exact ⟨r, hr, (Prod.mk.inj hop).1⟩

theorem spaceField_packCommand (unit func : BitVec 4) (idx ch : Nat) (space : Space) :
    spaceField (packCommand unit func idx ch space.code) = space := by
  have := space.code_lt
  apply Space.code_injective
  rw [spaceField_code, immField_packCommand]
  omega

/-- The four subfields of a configuration come back. -/
theorem fields_configImm (unit func : BitVec 4) {l h : Nat} (hl : l < 16) (hh : h < 4) (win : Window) (mod : ModSel)
    (hw : w = packCommand unit func 0 0 (configImm l h win mod)) :
    fftLog2Field w = l ∧ hopLog2Field w = h ∧ winField w = win ∧ modField w = mod := by
  have := win.code_lt
  have := mod.code_lt
  have himm : immField w = mod.code * 256 + win.code * 64 + h * 16 + l := by
    rw [hw, immField_packCommand, configImm]; omega
  refine ⟨?_, ?_, Window.code_injective ?_, ModSel.code_injective ?_⟩
  · rw [fftLog2Field_eq_mod, himm]; omega
  · rw [hopLog2Field_eq_div, himm]; omega
  · rw [winField_code, himm]; omega
  · rw [modField_code, himm]; omega

/-- The fields of a well-formed command and its operand words are assembled into that command. -/
theorem assemble_commandWord (h : i.wellFormed = true) (rest : List Word) :
    assemble (Laws.opcodeOf i) i.commandWord (i.operandWords ++ rest) = some (i, rest) := by
  cases i with
  | sysNop | sysReset | sysPrepare | sysBegin | sysEnd | sysRdreg => rfl
  | sysRdmem ch space addr =>
    have hch : ch < 16 := of_decide_eq_true h
    simp [Laws.opcodeOf, Instr.commandWord, Instr.operandWords, assemble, Nat.mod_eq_of_lt hch, spaceField_packCommand]
  | spConfig k | spSettgt k | spAdv k | spSnap k | bqLoad k | bqClear k =>
    have hidx : k < 256 := of_decide_eq_true h
    simp [Laws.opcodeOf, Instr.commandWord, Instr.operandWords, assemble, Nat.mod_eq_of_lt hidx]
  | dlWrite ch | dlAdv ch | dlRdn ch | dlRdl ch | dlRdc ch | stPush ch =>
    have hch : ch < 16 := of_decide_eq_true h
    simp [Laws.opcodeOf, Instr.commandWord, Instr.operandWords, assemble, Nat.mod_eq_of_lt hch]
  | bqStep f ch x =>
    obtain ⟨hf, hch⟩ := Bool.and_eq_true_iff.1 h
    simp [Laws.opcodeOf, Instr.commandWord, Instr.operandWords, assemble, Nat.mod_eq_of_lt (of_decide_eq_true hf),
      Nat.mod_eq_of_lt (of_decide_eq_true hch)]
  | stConfig l k win mod =>
    obtain ⟨hl, hk⟩ := Bool.and_eq_true_iff.1 h
    obtain ⟨hfft, hhop, hwin, hmod⟩ := fields_configImm 4 0 (of_decide_eq_true hl) (of_decide_eq_true hk) win mod rfl
    simp only [Laws.opcodeOf, Instr.commandWord, Instr.operandWords, assemble, List.nil_append, hfft, hhop, hwin, hmod]

/-! The decoder, by what its first word selects. -/

theorem decode_of_findRow {r : OpcodeRow} (hr : findRow w = some r) (h : assemble r.op w ws = some (i, rest)) :
    decode (w :: ws) = .command i rest := by
  simp only [decode, hr, h]

/-- A command is what the row of the first word assembles. -/
theorem decode_eq_command (h : decode ws = .command i rest) :
    ∃ w tail r, ws = w :: tail ∧ findRow w = some r ∧ assemble r.op w tail = some (i, rest) := by
  cases ws with
  | nil => cases h
  | cons w tail =>
    rw [decode] at h
    split at h
    next => cases h
    next r hr =>
      split at h
      next hassemble =>
        cases h
        exact ⟨w, tail, r, rfl, hr, hassemble⟩
      next => cases h

theorem decode_eq_illegal_iff : decode (w :: ws) = .illegal w ws ↔ findRow w = none := by
  rw [decode]
  split
  next hr => simp only [hr]
  next r hr =>
    rw [hr]
    split <;> simp only [reduceCtorEq]

/-! Reserved encodings (30_encoding.md R115). -/

/-- The reserved encodings are the words of no opcode, seen unit by unit: each has its own `FUNC` values and must-be-zero
fields. -/
theorem reserved_iff : Reserved w ↔ ∀ r ∈ opcodeTable, w ≠ r.op.headWord w := by
  have hidx : idxField w % 256 = idxField w := Nat.mod_eq_of_lt (idxField_lt w)
  have hch : chField w % 16 = chField w := Nat.mod_eq_of_lt (chField_lt w)
  simp only [Reserved, ← unitField_eq_div, ← funcField_eq_div, ← idxField_eq_div, ← chField_eq_div, ← immField_eq_mod]
  simp only [opcodeTable, List.forall_mem_cons, List.not_mem_nil, Opcode.headWord, ne_eq, eq_packCommand_iff,
    configImm_fields, immField_eq_space_iff, immField_eq_config_iff, hidx, hch, BitVec.ofNat_eq_ofNat,
    BitVec.reduceToNat, true_and, Nat.zero_mod, false_imp_iff, implies_true, and_true]
  generalize unitField w = unit, funcField w = func, idxField w = idx, chField w = ch, immField w = imm
  obtain hunit | rfl | rfl | rfl | rfl | rfl : 5 ≤ unit ∨ unit = 0 ∨ unit = 1 ∨ unit = 2 ∨ unit = 3 ∨ unit = 4 := by
    omega
  · omega
  all_goals grind

end Sys2Proof

namespace Sys2Proof.Proofs

/-- Settles O1: the command word selects the row of its own opcode, and its fields and operand words come back. -/
theorem decodeOfEncode : Obligations.DecodeOfEncode := by
  intro i rest hwf
  obtain ⟨r, hr, hop⟩ := findRow_commandWord hwf
  exact decode_of_findRow hr (hop ▸ assemble_commandWord hwf rest)

/-- Settles O2: the word has the fields of the command and zeros elsewhere, so it is the command word. -/
theorem encodeOfDecode : Obligations.EncodeOfDecode := by
  intro ws i rest h
  obtain ⟨w, tail, r, rfl, hr, hassemble⟩ := decode_eq_command h
  obtain ⟨hword, hwf, hoperands⟩ := assemble_eq_some hassemble
  exact ⟨hwf, congrArg₂ List.cons (hword.trans (findRow_eq_some hr).symm) hoperands⟩

/-- Settles O3: every mask covers `UNIT` and `FUNC`, and no two rows have the same. -/
theorem opcodeRowsAreDisjoint : Obligations.OpcodeRowsAreDisjoint := by
  intro w r hr r' hr' h h'
  have covers : ∀ q ∈ opcodeTable, q.mask &&& 0xFF000000#32 = 0xFF000000#32 := by decide
  have distinct : ∀ q ∈ opcodeTable, ∀ q' ∈ opcodeTable,
      q.pattern &&& 0xFF000000#32 = q'.pattern &&& 0xFF000000#32 → q = q' := by decide
  refine distinct r hr r' hr' ?_
  rw [← h, ← h', BitVec.and_assoc, BitVec.and_assoc, covers r hr, covers r' hr']

/-- Settles O4: a word is illegal exactly when it selects no row, and the words that select none are the reserved ones. -/
theorem illegalExactlyWhenReserved : Obligations.IllegalExactlyWhenReserved :=
  fun _ _ => decode_eq_illegal_iff.trans (findRow_eq_none_iff.trans reserved_iff.symm)

/-- Settles O5: the words are the encodings of the commands, and `UNIT = 0`, `FUNC = 7` is reserved. -/
theorem specWordsDecode : Obligations.SpecWordsDecode :=
  ⟨decodeOfEncode (.sysRdmem 1 .wintab 7#32) [] rfl, decodeOfEncode (.spAdv 15) [] rfl,
    decodeOfEncode (.dlRdl 1 0x40200000#32) [] rfl, decodeOfEncode (.bqStep 7 15 0#32) [] rfl,
    decodeOfEncode (.stConfig 15 3 .hamming .external) [] rfl,
    (illegalExactlyWhenReserved _ _).2 (.inr (.inl (by decide)))⟩

end Sys2Proof.Proofs
end

section
/-! PROOFS. What an examined command sends: one response on its port, unless it is held (30_encoding.md R116, 40_sys.md R141, R144). -/

namespace Sys2Proof.Machine

variable {s t u : State} {i : Instr} {p : Port}

/-- An outcome that, where it is a next state, has sent one response and changed nothing else of the ports. -/
def Answers (s : State) (o : Host.Outcome State Fault Refusal) : Prop :=
  ∀ t, o = .next t → ∃ r, t.ports = s.ports.send r

theorem answers_answer (h : u.ports = s.ports) (data : Word) (f : Flags) : Answers s (answer u data f) := by
  intro t ht
  cases ht
  exact ⟨_, congrArg (Ports.send · _) h⟩

theorem answers_failWith (e : ErrCode) (i : Instr) (s : State) : Answers s (failWith e i s) := by
  intro t ht
  cases ht
  exact ⟨_, rfl⟩

/-- What a command performs is not seen on the ports. -/
theorem Performed.ports_eq (hu : Performed s i u) : u.ports = s.ports := by cases hu <;> rfl

theorem Completes.answers {o : Host.Outcome State Fault Refusal} (h : Completes i s o) : Answers s o := by
  intro t ht
  obtain ⟨e, rfl⟩ | ⟨u, r, hu, rfl⟩ := h t ht
  · exact ⟨_, rfl⟩
  · exact ⟨r, congrArg (Ports.send · r) hu.ports_eq⟩

theorem answers_ite {c : Prop} [Decidable c] {a b : Host.Outcome State Fault Refusal} (ha : Answers s a)
    (hb : Answers s b) : Answers s (if c then a else b) := by
  split
  · exact ha
  · exact hb

/-- Of the common checks only holding a command sends no response. -/
theorem runCommand_answers {f : State → Host.Outcome State Fault Refusal} (hheld : examine i s.ports.cur s ≠ .held)
    (hf : Answers s (f s)) : Answers s (runCommand i s f) := by
  obtain ⟨-, hrun⟩ | ⟨-, hrun⟩ | ⟨hverdict, -⟩ | ⟨e, -, hrun⟩ := runCommand_cases i s f
  · exact hrun ▸ hf
  · rw [hrun]
    intro t ht
    cases ht
    exact ⟨_, rfl⟩
  · exact absurd hverdict hheld
  · exact hrun ▸ answers_failWith e i s

/-- A command that is not held sends one response and does nothing else to the ports. -/
theorem exec_answers (hheld : examine i s.ports.cur s ≠ .held) : Answers s (exec i s) := by
  cases i with
  | sysNop | sysReset | sysEnd | spConfig | spSettgt | spAdv | spSnap | dlWrite | dlAdv | bqStep | bqClear =>
    dsimp only [exec, execSysNop, execSysReset, execSysEnd, execSpConfig, execSpSettgt, execSpAdv, execSpSnap,
      execDlWrite, execDlAdv, execBqStep, execBqClear]
    exact runCommand_answers hheld (answers_answer rfl _ _)
  | sysPrepare | sysRdmem | bqLoad | stConfig =>
    dsimp only [exec, execSysPrepare, execSysRdmem, execBqLoad, execStConfig]
    exact runCommand_answers hheld (answers_ite (answers_answer rfl _ _) (answers_failWith _ _ _))
  | sysBegin n =>
    dsimp only [exec, execSysBegin]
    exact runCommand_answers hheld (answers_ite (answers_failWith _ _ _) (answers_answer rfl _ _))
  | sysRdreg addr =>
    dsimp only [exec, execSysRdreg]
    refine runCommand_answers hheld ?_
    split
    · exact answers_answer rfl _ _
    · exact answers_failWith _ _ _
  | dlRdn ch d | dlRdl ch d | dlRdc ch d =>
    dsimp only [exec, execDlRdn, execDlRdl, execDlRdc]
    exact runCommand_answers hheld (completes_delayRead _ ch d).answers
  | stPush ch x =>
    dsimp only [exec, execStPush]
    exact runCommand_answers hheld (completes_pushSample ch x).answers

theorem illegalCommand_ports (w : Word) (s : State) : ∃ r, (illegalCommand w s).ports = s.ports.send r := by
  unfold illegalCommand
  split <;> exact ⟨_, rfl⟩

/-- A port with an enabled command delivers an illegal word, or a command that is not held. -/
theorem State.delivered_of_enabled (h : s.enabled p = true) : (∃ w rest, s.delivered p = .illegal w rest) ∨
    ∃ i rest, s.delivered p = .command i rest ∧ examine i p s ≠ .held := by
  unfold State.enabled at h
  split at h
  next => cases h
  next w rest hdel => exact .inl ⟨w, rest, hdel⟩
  next i rest hdel => exact .inr ⟨i, rest, hdel, of_decide_eq_true h⟩

theorem serve_of_illegal {w : Word} {rest : List Word} (h : s.delivered p = .illegal w rest) :
    serve p s = .next (illegalCommand w (s.takeCommand p rest)) := by simp only [serve, h]

/-- The ports after a command was taken off port `p` and answered. -/
theorem ports_of_takeCommand_send {rest : List Word} {r : Response}
    (h : t.ports = (s.takeCommand p rest).ports.send r) :
    t.ports.port p = ⟨rest, (s.ports.port p).sent ++ [r]⟩ ∧ t.ports.port p.other = s.ports.port p.other := by
  simp [h, Ports.send_port, Ports.take_port]

/-- Serving an enabled port takes its command and answers it. -/
theorem serve_answers (henabled : s.enabled p = true) (h : serve p s = .next t) :
    ∃ rest r, t.ports = (s.takeCommand p rest).ports.send r ∧
      ((∃ i, s.delivered p = .command i rest) ∨ ∃ w, s.delivered p = .illegal w rest) := by
  obtain ⟨w, rest, hdel⟩ | ⟨i, rest, hdel, hheld⟩ := State.delivered_of_enabled henabled
  · rw [serve_of_illegal hdel] at h
    cases h
    obtain ⟨r, hr⟩ := illegalCommand_ports w (s.takeCommand p rest)
    exact ⟨rest, r, hr, .inr ⟨w, hdel⟩⟩
  · rw [serve_of_command hdel] at h
    have hcur : (s.takeCommand p rest).ports.cur = p := Ports.take_cur _ p rest
    obtain ⟨r, hr⟩ := exec_answers (s := s.takeCommand p rest) (hcur.symm ▸ hheld) t h
    exact ⟨rest, r, hr, .inl ⟨i, hdel⟩⟩

end Sys2Proof.Machine

namespace Sys2Proof.Proofs

open Sys2Proof.Machine

/-- Settles O8: an enabled port has an illegal word or a command that is not held, and each is answered once. -/
theorem oneResponsePerCommand : Obligations.OneResponsePerCommand := by
  intro s t p hchoose hstep
  obtain ⟨rest, r, hports, hdel⟩ := serve_answers (State.enabled_of_choose hchoose) (step_of_choose hchoose ▸ hstep)
  obtain ⟨hserved, hother⟩ := ports_of_takeCommand_send hports
  rw [hserved]
  exact ⟨⟨r, rfl⟩, hdel, hother⟩

end Sys2Proof.Proofs
end

section
/-! PROOFS. When a command waits for the other port's scope (40_sys.md R140, R144): the common checks hold it exactly by the
conditions of the rule. -/

namespace Sys2Proof.Machine

open Sys2Proof.Statements

variable {s : State} {i : Instr} {p : Port} {lock : Option Port}

/-- The range check of `IDX` and `CH` in the terms of the statements (60_exceptions.md R326). -/
theorem indexOk_iff {q : Params} : indexOk q i = true ↔ ¬ OutOfRange q i := by
  cases i <;> simp [indexOk, OutOfRange]

/-! The scope check of each kind. -/

theorem ownScope_ne_held : ownScope lock p ≠ .held := by
  unfold ownScope
  split <;> nofun

theorem awaitScope_eq_held : awaitScope lock p = .held ↔ lock = some p.other := by simp [awaitScope]

/-- The own scope faults before the other port's is awaited; no port owns both. -/
theorem outsideScope_eq_held : outsideScope lock p = .held ↔ lock = some p.other := by
  unfold outsideScope
  split
  next hown => simp [hown]
  next => exact awaitScope_eq_held

/-- The scope check holds class R and `SYS.BEGIN`, and only while the other port owns the scope (40_sys.md R144). -/
theorem scopeCheck_eq_held :
    scopeCheck i lock p = .held ↔ (ClassR i ∨ ∃ n, i = .sysBegin n) ∧ lock = some p.other := by
  cases i with
  | sysPrepare | sysBegin => simpa [scopeCheck, cmdClass, ClassR] using outsideScope_eq_held
  | bqLoad | bqClear | stConfig => simpa [scopeCheck, cmdClass, ClassR] using awaitScope_eq_held
  | sysEnd | dlWrite | dlAdv | dlRdn | dlRdl | dlRdc | bqStep | stPush =>
    simpa [scopeCheck, cmdClass, ClassR] using ownScope_ne_held
  | _ => simp [scopeCheck, cmdClass, ClassR]

/-! The common checks. -/

/-- The common checks hold a command exactly when every check before the last passes and the scope check holds it. -/
theorem examine_eq_held_iff : examine i p s = .held ↔ s.sys.fault = false ∧ indexOk s.params i = true ∧
    (s.sys.prepared = true ∨ needsPrepare i = false) ∧ scopeCheck i s.sys.lock p = .held := by
  refine ⟨examine_eq_held, fun ⟨hfault, hindex, hprepared, hscope⟩ => ?_⟩
  have hreset : cmdClass i ≠ .reset := by
    intro hc
    simp [scopeCheck, hc] at hscope
  have hgate : (!s.sys.prepared && needsPrepare i) = false := by
    obtain h | h := hprepared <;> simp [h]
  simp [examine, hreset, hfault, hindex, hgate, hscope]

/-- Of the commands that wait for a scope only `SYS.PREPARE` runs on a block that is not prepared. -/
theorem needsPrepare_eq_false_of_waits (hi : ClassR i ∨ ∃ n, i = .sysBegin n) :
    needsPrepare i = false ↔ Prepares i := by
  cases i with
  | sysPrepare srate maxblk cap => exact ⟨fun _ => ⟨srate, maxblk, cap, rfl⟩, fun _ => rfl⟩
  | sysBegin | bqLoad | bqClear | stConfig => exact ⟨nofun, nofun⟩
  | _ => obtain h | ⟨n, h⟩ := hi <;> cases h

theorem ne_sysReset_of_waits (hi : ClassR i ∨ ∃ n, i = .sysBegin n) : i ≠ .sysReset := by
  rintro rfl
  obtain h | ⟨n, h⟩ := hi <;> cases h

/-- The common checks hold a command exactly by the rule (40_sys.md R144). -/
theorem examine_eq_held_iff_held : examine i p s = .held ↔ Held s p i := by
  rw [examine_eq_held_iff, scopeCheck_eq_held, indexOk_iff]
  constructor
  · rintro ⟨hfault, hindex, hprepared, hwaits, hlock⟩
    exact ⟨ne_sysReset_of_waits hwaits, hfault, hindex,
      hprepared.imp_right (needsPrepare_eq_false_of_waits hwaits).1, hwaits, hlock⟩
  · rintro ⟨-, hfault, hindex, hprepared, hwaits, hlock⟩
    exact ⟨hfault, hindex, hprepared.imp_right (needsPrepare_eq_false_of_waits hwaits).2, hwaits, hlock⟩

/-- A port whose head is a command is not enabled exactly when the common checks hold that command. -/
theorem State.enabled_eq_false_iff {rest : List Word} (h : s.delivered p = .command i rest) :
    s.enabled p = false ↔ examine i p s = .held := by simp [State.enabled, h]

end Sys2Proof.Machine

namespace Sys2Proof.Proofs

open Sys2Proof.Machine

/-- Settles O7: a port with a command is enabled unless the common checks hold that command, and they hold it by the rule. -/
theorem heldExactlyByRule : Obligations.HeldExactlyByRule := fun _ _ _ _ hdel =>
  (State.enabled_eq_false_iff hdel).trans examine_eq_held_iff_held

end Sys2Proof.Proofs
end

section
/-! PROOFS. What a command leaves, in the words of the statements: an answer, a first fault, a later fault, the command word
by its fields, and a new start of unit ST. -/

namespace Sys2Proof

/-- A command word is that of its row with the fields `IDX`, `CH` and `IMM` added (30_encoding.md R111). -/
theorem packCommand_eq_add (unit func : BitVec 4) {idx ch imm : Nat} (hidx : idx < 256) (hch : ch < 16)
    (himm : imm < 4096) : packCommand unit func idx ch imm =
      packCommand unit func 0 0 0 + BitVec.ofNat 32 (idx * 2 ^ 16 + ch * 2 ^ 12 + imm) := by
  have hunit := unit.isLt
  have hfunc := func.isLt
  apply BitVec.eq_of_toNat_eq
  rw [BitVec.toNat_add, BitVec.toNat_ofNat, toNat_packCommand, toNat_packCommand]
  omega

end Sys2Proof

namespace Sys2Proof.Machine

open Sys2Proof.Statements

variable {s t : State} {i : Instr}

theorem answer_eq_answered (s : State) (data : Word) : answer s data {} = .next (answered s 0#32 data) := rfl

theorem faultCode_eq_code (e : ErrCode) : faultCode e = e.code := by cases e <;> rfl

/-- A fault with none recorded is recorded (60_exceptions.md R332). -/
theorem failWith_of_no_fault (e : ErrCode) (i : Instr) (hf : s.sys.fault = false) :
    failWith e i s = .next (faulted s e i.commandWord) := by
  rw [failWith, State.raise, SysRegs.enterFault_of_no_fault _ _ _ _ hf, Response.faulted_eq, faulted, faultCode_eq_code]

/-- A fault with one recorded only answers its code (60_exceptions.md R332). -/
theorem failWith_of_fault (e : ErrCode) (i : Instr) (hf : s.sys.fault = true) :
    failWith e i s = .next (answered s (BitVec.ofNat 32 e.code) 0#32) := by
  rw [failWith, State.raise, SysRegs.enterFault_of_fault _ _ _ _ hf, Response.faulted_eq, answered]

/-- What `FAULT` and `PREPARED` do not stop runs in any state (60_exceptions.md R323, R324). -/
theorem examine_of_survivesFault {p : Port} (h : survivesFault i = true) : examine i p s = .go := by
  cases i with
  | sysNop | sysRdreg => simp [examine, survivesFault, indexOk, needsPrepare, scopeCheck, cmdClass]
  | _ => cases h

/-! `st_reinit` channel by channel. -/

/-- A restarted channel has cleared rings; a channel the device does not have reads as zero before and after. -/
theorem getD_restart_rings (chans : List StftChannel) (n hop ch : Nat) :
    ((chans.map (StftChannel.restart n hop)).getD ch StftChannel.reset).inr =
        (chans.getD ch StftChannel.reset).inr.clear n ∧
      ((chans.map (StftChannel.restart n hop)).getD ch StftChannel.reset).outr =
        (chans.getD ch StftChannel.reset).outr.clear n := by
  obtain hch | hch := Nat.lt_or_ge ch chans.length
  · rw [getD_map _ _ _ StftChannel.reset _ hch]
    exact ⟨rfl, rfl⟩
  · rw [getD_of_length_le _ _ _ hch, getD_of_length_le _ _ _ (by rwa [List.length_map])]
    exact ⟨rfl, rfl⟩

/-- `st_reinit` in the words of the statements, whichever command ran it (44_stft.md R243, R244, R245). -/
theorem reinitialised_of_reinit {I : Impl Word} {cfg : Word}
    (h : t.st = ({ s.st with cfg := cfg } : StftUnit).reinit I) : Reinitialised I cfg s t where
  configured := by rw [h, StftUnit.reinit_cfg]
  n := by rw [h, StftUnit.reinit_n_toNat]
  hop := by rw [h, StftUnit.reinit_hop_toNat]
  wintab _ j := by
    rw [State.memRead, spaceMem, h, StftUnit.reinit_wintab, Mem.read_fill]
    rfl
  scale := by
    have hwintab : ∀ j, t.memRead .wintab 0 j = t.st.wintab.read j := fun _ => rfl
    simp only [hwintab]
    rw [h, StftUnit.reinit_scale, scaleFactor_words]
  chans := by rw [h, StftUnit.reinit_chans, List.length_map]
  cursors ch hch := by
    have hchan : t.stftChan ch = (s.stftChan ch).restart (2 ^ fftLog2Field cfg)
        (2 ^ fftLog2Field cfg / 2 ^ hopLog2Field cfg) := by
      rw [State.stftChan, h, StftUnit.reinit_chans]
      exact getD_map _ _ _ _ _ hch
    rw [hchan, h, StftUnit.reinit_hop]
    exact ⟨rfl, rfl, rfl, rfl⟩
  inr ch j := by
    rw [State.memRead, spaceMem, State.stftChan, h, StftUnit.reinit_chans, (getD_restart_rings _ _ _ ch).1, Mem.read_clear]
    rfl
  outr ch j := by
    rw [State.memRead, spaceMem, State.stftChan, h, StftUnit.reinit_chans, (getD_restart_rings _ _ _ ch).2, Mem.read_clear]
    rfl

end Sys2Proof.Machine
end

section
/-! PROOFS. Unit SYS: no operation, prepare, the end of a scope, and read-back (40_sys.md R145, R147, R151 to R153). -/

namespace Sys2Proof.Machine

open Sys2Proof.Statements

variable {s : State}

/-! `SYS.PREPARE`. -/

theorem legalCapacity_iff (p : Params) (cap : Word) :
    legalCapacity p cap = true ↔ 1 ≤ cap.toNat ∧ cap.toNat ≤ p.dlcapMax := by
  have hzero : cap ≠ 0#32 ↔ 1 ≤ cap.toNat := by bv_omega
  rw [legalCapacity, Bool.and_eq_true, decide_eq_true_eq, decide_eq_true_eq, hzero]

/-- `SYS.PREPARE` runs outside any scope with no fault recorded, on a prepared block or not. -/
theorem examine_sysPrepare {p : Port} (srate maxblk cap : Word) (hf : s.sys.fault = false) (hl : s.sys.lock = none) :
    examine (.sysPrepare srate maxblk cap) p s = .go := by
  simp [examine, cmdClass, hf, hl, indexOk, needsPrepare, scopeCheck, outsideScope, awaitScope]

theorem exec_sysPrepare (srate maxblk cap : Word) (hf : s.sys.fault = false) (hl : s.sys.lock = none)
    (hcap : legalCapacity s.params cap = true) : exec (.sysPrepare srate maxblk cap) s =
      .next (answered (s.prepare s.params.impl srate maxblk cap) 0#32 0#32) := by
  dsimp only [exec, execSysPrepare]
  rw [runCommand_go _ (examine_sysPrepare srate maxblk cap hf hl), if_pos hcap, answer_eq_answered]

/-- Preparing the delay line prepares the channel at an index; one that the device does not have stays blank. -/
theorem getD_prepare (chans : List DelayChannel) (cap ch : Nat) :
    (chans.map (DelayChannel.prepare cap)).getD ch DelayChannel.reset =
      (chans.getD ch DelayChannel.reset).prepare cap :=
  List.getD_map chans DelayChannel.reset (DelayChannel.prepare cap)

theorem State.prepare_memRead_dlmem (I : Impl Word) (srate maxblk cap : Word) (ch a : Nat) :
    (s.prepare I srate maxblk cap).memRead .dlmem ch a =
      if a < cap.toNat then 0#32 else s.memRead .dlmem ch a := by
  rw [State.memRead, spaceMem, State.delayChan, State.prepare_dl, getD_prepare]
  exact Mem.read_clear _ _ _

/-- Every channel of the delay line starts again at address 0. -/
theorem map_widx_prepare (chans : List DelayChannel) (cap : Nat) :
    (chans.map (DelayChannel.prepare cap)).map DelayChannel.widx = List.replicate chans.length 0#32 := by
  rw [List.map_map]
  exact List.map_const' ..

/-- A cleared filter of `n` channels keeps its coefficients and has the zero history on each channel. -/
theorem Filter.clear_eq (q : Filter) {n : Nat} (h : q.chans.length = n) :
    q.clear = ⟨q.coeffs, List.replicate n History.reset⟩ := by
  rw [Filter.clear, List.map_const', h]

/-! `SYS.END`. -/

/-- `SYS.END` runs inside the own scope. -/
theorem examine_sysEnd {p : Port} (hr : s.Ready) (hl : s.sys.lock = some p) : examine .sysEnd p s = .go := by
  rw [examine_of_ready hr rfl (by decide)]
  simp [scopeCheck, cmdClass, ownScope, hl]

/-! Read-back. -/

/-- `SYS.RDREG` passes the common checks in any state and answers the register. -/
theorem exec_sysRdreg_of_mapped {addr v : Word} (h : readReg s addr.toNat = some v) :
    exec (.sysRdreg addr) s = answer s v {} := by
  dsimp only [exec, execSysRdreg]
  rw [runCommand_go _ (examine_of_survivesFault rfl), h]

theorem exec_sysRdreg_of_unmapped {addr : Word} (h : readReg s addr.toNat = none) :
    exec (.sysRdreg addr) s = failWith .addr (.sysRdreg addr) s := by
  dsimp only [exec, execSysRdreg]
  rw [runCommand_go _ (examine_of_survivesFault rfl), h]

theorem spaceLength_eq (s : State) (space : Space) :
    spaceLength s space = if space = .dlmem then s.dl.cap.toNat else s.st.n.toNat := by cases space <;> rfl

/-- What `SYS.RDMEM` may read, in the words of the statements (40_sys.md R153). -/
theorem memMapped_iff (s : State) (space : Space) (ch a : Nat) : memMapped s space ch a = true ↔
    a < (if space = .dlmem then s.dl.cap.toNat else s.st.n.toNat) ∧ (space = .wintab → ch = 0) := by
  rw [memMapped, Bool.and_eq_true, decide_eq_true_eq, spaceLength_eq, and_comm]
  simp [imp_iff_not_or]

/-- `SYS.RDMEM` of a channel of the device passes the common checks of a ready block. -/
theorem exec_sysRdmem {ch : Nat} (space : Space) (addr : Word) (hr : s.Ready) (hch : ch < s.params.nch) :
    exec (.sysRdmem ch space addr) s =
      if memMapped s space ch addr.toNat then answer s (s.memRead space ch addr.toNat) {}
      else failWith .addr (.sysRdmem ch space addr) s := by
  dsimp only [exec, execSysRdmem]
  exact runCommand_go _ (examine_free hr (decide_eq_true hch) rfl)

theorem commandWord_sysRdmem {ch : Nat} (space : Space) (addr : Word) (hch : ch < 16) :
    (Instr.sysRdmem ch space addr).commandWord = 0x06000000#32 + BitVec.ofNat 32 (ch * 2 ^ 12 + space.code) := by
  have hcode : space.code < 4096 := space.code_lt.trans (by decide)
  have hword := packCommand_eq_add 0 6 (idx := 0) (by decide) hch hcode
  rwa [Nat.zero_mul, Nat.zero_add] at hword

end Sys2Proof.Machine

namespace Sys2Proof.Proofs

open Sys2Proof.Machine Sys2Proof.Statements

/-- Settles O14: a legal capacity passes every check, and each unit's part of `State.prepare` is what the rule says. -/
theorem prepareSizesAndClears : Obligations.PrepareSizesAndClears := by
  intro s srate maxblk cap hinv hfault hlock hpos hmax
  obtain ⟨hdl, -, -⟩ := hinv.dl
  have hcap : legalCapacity s.params cap = true := (legalCapacity_iff _ _).2 ⟨hpos, hmax⟩
  have hbq : s.bq.map Filter.clear = s.bq.map fun q => ⟨q.coeffs, List.replicate s.params.nch History.reset⟩ := by
    refine List.map_congr_left fun q hq => ?_
    obtain ⟨-, hchans⟩ := hinv.bq q hq
    exact q.clear_eq hchans
  exact ⟨_, exec_sysPrepare srate maxblk cap hfault hlock hcap, rfl, rfl, rfl,
    hdl ▸ map_widx_prepare s.dl.chans cap.toNat, State.prepare_memRead_dlmem s.params.impl srate maxblk cap, hbq,
    reinitialised_of_reinit rfl, rfl, rfl, rfl⟩

/-- Settles O12: `SYS.NOP` passes the common checks in any state. -/
theorem nopOnlyAnswers : Obligations.NopOnlyAnswers := by
  refine ⟨rfl, rfl, fun s => ?_⟩
  dsimp only [exec, execSysNop]
  rw [runCommand_go _ (examine_of_survivesFault rfl), answer_eq_answered]

/-- Settles O16: the owner's `SYS.END` passes the common checks. -/
theorem endFreesScope : Obligations.EndFreesScope := by
  intro s hready howner
  dsimp only [exec, execSysEnd]
  rw [runCommand_go _ (examine_sysEnd hready howner), answer_eq_answered]

/-- Settles O17: `SYS.RDREG` runs in any state; a fault it raises is recorded or only answered. -/
theorem rdregReadsRegister : Obligations.RdregReadsRegister := by
  refine fun s addr => ⟨fun v hmapped => ?_, fun hunmapped hfault => ?_, fun hunmapped hfault => ?_⟩
  · rw [exec_sysRdreg_of_mapped hmapped, answer_eq_answered]
  · rw [exec_sysRdreg_of_unmapped hunmapped]
    exact failWith_of_no_fault .addr _ hfault
  · rw [exec_sysRdreg_of_unmapped hunmapped]
    exact failWith_of_fault .addr _ hfault

/-- Settles O21: `SYS.RDMEM` passes the common checks, and what it may read decides between the word and `E_ADDR`. -/
theorem rdmemReadsMemory : Obligations.RdmemReadsMemory := by
  intro s ch space addr hparams hready hch
  have hwidth : ch < 16 := hch.trans_le hparams.1.2
  refine ⟨fun hmapped => ?_, fun hunmapped => ?_⟩ <;> rw [exec_sysRdmem space addr hready hch]
  · rw [if_pos ((memMapped_iff ..).2 hmapped), answer_eq_answered]
  · rw [if_neg (mt (memMapped_iff ..).1 hunmapped), failWith_of_no_fault .addr _ hready.2,
      commandWord_sysRdmem space addr hwidth]

end Sys2Proof.Proofs
end

section
/-! PROOFS. Unit SP, command by command (41_smoothed_parameter.md R171 to R175). -/

namespace Sys2Proof.Machine

open Sys2Proof.Statements

variable {s : State} {i : Nat}

/-! What each command makes of its smoother. -/

/-- With no ramp length a new target is reached at once (R173). -/
theorem Smoother.setTarget_of_jump (N : Num Word) (v : Word) {sm : Smoother} (h : sm.rampLen = 0#32) :
    sm.setTarget N v = ⟨v, v, 0#32, 0#32, 0#32⟩ := by rw [Smoother.setTarget, if_pos h, h]

/-- With a ramp length a new target is approached from the current value (R173). -/
theorem Smoother.setTarget_of_ramp (N : Num Word) (v : Word) {sm : Smoother} (h : sm.rampLen ≠ 0#32) :
    sm.setTarget N v = ⟨sm.cur, v, rampStep N sm.cur v sm.rampLen.toNat, sm.rampLen, sm.rampLen⟩ := by
  rw [Smoother.setTarget, if_neg h]

theorem Smoother.setTarget_tgt (N : Num Word) (v : Word) (sm : Smoother) : (sm.setTarget N v).tgt = v := by
  unfold Smoother.setTarget
  split <;> rfl

/-- A new target leaves as many steps as the ramp length says, none after a jump (R173). -/
theorem Smoother.setTarget_rem (N : Num Word) (v : Word) (sm : Smoother) : (sm.setTarget N v).rem = sm.rampLen := by
  unfold Smoother.setTarget
  split
  next hjump => exact hjump.symm
  next => rfl

theorem Smoother.advance_of_done (N : Num Word) {sm : Smoother} (h : sm.rem = 0#32) : sm.advance N = sm := by
  rw [Smoother.advance, if_pos h]

theorem Smoother.advance_of_last (N : Num Word) {sm : Smoother} (h : sm.rem = 1#32) :
    sm.advance N = { sm with rem := 0#32, cur := sm.tgt } := by
  rw [Smoother.advance, if_neg (h ▸ by decide), if_pos h]

theorem Smoother.advance_of_two_le (N : Num Word) {sm : Smoother} (h : 2 ≤ sm.rem.toNat) :
    sm.advance N = { sm with rem := sm.rem - 1#32, cur := N.fadd sm.cur sm.step } := by
  rw [Smoother.advance, if_neg (by bv_omega), if_neg (by bv_omega)]

/-! The commands on a ready block. -/

/-- An answer that carries the flag `RAMP` of a smoother (R171). -/
theorem answer_rampFlag (s : State) (data : Word) (sm : Smoother) :
    answer s data (rampFlag sm) = .next (answered s (if sm.rem = 0#32 then 0#32 else 0x400#32) data) := by
  rw [answer, Response.executed_rampFlag]
  rfl

theorem smootherResult_eq (i : Nat) (sm : Smoother) (data : Word) (s : State) : smootherResult i sm data s =
    .next (answered (s.setSmoother i sm) (if sm.rem = 0#32 then 0#32 else 0x400#32) data) :=
  answer_rampFlag _ _ _

section

variable (hr : s.Ready) (hi : i < s.params.nsp)
include hr hi

theorem exec_spConfig (n : Word) :
    exec (.spConfig i n) s = smootherResult i ((s.smoother i).configure n) 0#32 s := by
  dsimp only [exec, execSpConfig]
  exact runCommand_go _ (examine_free hr (decide_eq_true hi) rfl)

theorem exec_spSettgt (v : Word) :
    exec (.spSettgt i v) s = smootherResult i ((s.smoother i).setTarget s.params.impl.num v) 0#32 s := by
  dsimp only [exec, execSpSettgt]
  exact runCommand_go _ (examine_free hr (decide_eq_true hi) rfl)

theorem exec_spAdv : exec (.spAdv i) s =
    smootherResult i ((s.smoother i).advance s.params.impl.num) ((s.smoother i).advance s.params.impl.num).cur s := by
  dsimp only [exec, execSpAdv]
  exact runCommand_go _ (examine_free hr (decide_eq_true hi) rfl)

theorem exec_spSnap : exec (.spSnap i) s = answer s (s.smoother i).cur (rampFlag (s.smoother i)) := by
  dsimp only [exec, execSpSnap]
  exact runCommand_go _ (examine_free hr (decide_eq_true hi) rfl)

end

end Sys2Proof.Machine

namespace Sys2Proof.Proofs

open Sys2Proof.Machine

/-- Settles O22: `SP.CONFIG` passes the common checks and settles its smoother, so no step is left. -/
theorem spConfigSetsRampLength : Obligations.SpConfigSetsRampLength := by
  intro s i n hready hi
  rw [exec_spConfig hready hi, smootherResult_eq]
  rfl

/-- Settles O23: the two cases of the rule are the two cases of `Smoother.setTarget`. -/
theorem spSettgtSchedulesRamp : Obligations.SpSettgtSchedulesRamp := by
  intro s i v hready hi
  rw [exec_spSettgt hready hi, smootherResult_eq, Smoother.setTarget_rem]
  refine ⟨fun hjump => ?_, fun hramp => ?_⟩
  · rw [if_pos hjump, Smoother.setTarget_of_jump _ _ hjump]
    rfl
  · rw [if_neg hramp, Smoother.setTarget_of_ramp _ _ hramp]
    rfl

/-- Settles O24: after the ramp, in its last step, and before it; only the last case has steps left. -/
theorem spAdvStepsRamp : Obligations.SpAdvStepsRamp := by
  intro s i hready hlen hi
  rw [exec_spAdv hready hi, smootherResult_eq]
  refine ⟨fun hdone => ?_, fun hlast => ?_, fun hmore => ?_⟩
  · have hsame : s.setSmoother i (s.smoother i) = s := by
      rw [State.setSmoother, State.smoother, set_getD _ _ _ (hlen.symm ▸ hi)]
    rw [Smoother.advance_of_done _ hdone, if_pos hdone, hsame]
  · rw [Smoother.advance_of_last _ hlast]
    rfl
  · have hleft : (s.smoother i).rem - 1#32 ≠ 0#32 := by bv_omega
    rw [Smoother.advance_of_two_le _ hmore, if_neg hleft]
    rfl

/-- Settles O25: `SP.SNAP` passes the common checks and answers with the flag of the smoother it read. -/
theorem spSnapReadsCurrent : Obligations.SpSnapReadsCurrent := by
  intro s i hready hi
  rw [exec_spSnap hready hi, answer_rampFlag]

end Sys2Proof.Proofs
end

section
/-! PROOFS. A whole ramp (41_smoothed_parameter.md R176): what repeated steps make of a smoother, and that in a run without
fault nothing else touches it. -/

namespace Sys2Proof.Machine

open Sys2Proof.Statements

variable {s t u : State} {c : Instr} {i : Nat} {p : Port}

/-! Repeated steps of one smoother. -/

/-- While steps are left, each adds the step size. -/
theorem Smoother.advance_iterate_of_lt (N : Num Word) (sm : Smoother) {k : Nat} (h : k < sm.rem.toNat) :
    (Smoother.advance N)^[k] sm =
      { sm with rem := sm.rem - BitVec.ofNat 32 k, cur := (fun x => N.fadd x sm.step)^[k] sm.cur } := by
  induction k with
  | zero => simp
  | succ k ih =>
    have hleft : 2 ≤ (sm.rem - BitVec.ofNat 32 k).toNat := by bv_omega
    have hrem : sm.rem - BitVec.ofNat 32 k - 1#32 = sm.rem - BitVec.ofNat 32 (k + 1) := by bv_omega
    rw [Function.iterate_succ_apply', ih (Nat.lt_of_succ_lt h), Smoother.advance_of_two_le N hleft,
      Function.iterate_succ_apply', hrem]

/-- All the steps that are left end at the target, whatever the additions gave. -/
theorem Smoother.advance_iterate_rem (N : Num Word) {sm : Smoother} (hdone : sm.rem = 0#32 → sm.cur = sm.tgt) :
    (Smoother.advance N)^[sm.rem.toNat] sm = { sm with rem := 0#32, cur := sm.tgt } := by
  cases hn : sm.rem.toNat with
  | zero =>
    have hrem : sm.rem = 0#32 := by bv_omega
    obtain ⟨cur, tgt, step, rem, rampLen⟩ := sm
    obtain rfl : rem = 0#32 := hrem
    obtain rfl : cur = tgt := hdone rfl
    rfl
  | succ n =>
    have hlast : sm.rem - BitVec.ofNat 32 n = 1#32 := by bv_omega
    rw [Function.iterate_succ_apply', Smoother.advance_iterate_of_lt N sm (by omega), Smoother.advance_of_last N hlast]

/-! The smoother in a run. -/

/-- A prepared block that has a smoother `i`. -/
def State.PreparedWith (i : Nat) (s : State) : Prop :=
  s.sys.prepared = true ∧ i < s.params.nsp ∧ s.sp.length = s.params.nsp

theorem Performed.prepared (hu : Performed s c u) (hc : c ≠ .sysReset) (h : s.sys.prepared = true) :
    u.sys.prepared = true := by
  cases hu with
  | reset => exact absurd rfl hc
  | prepare => rfl
  | _ => exact h

theorem Performed.sp_length (hu : Performed s c u) (hc : c ≠ .sysReset) : u.sp.length = s.sp.length := by
  cases hu with
  | reset => exact absurd rfl hc
  | prepare => exact List.length_map _
  | configureSmoother | targetSmoother | advanceSmoother => exact List.length_set
  | _ => rfl

/-- Only `SYS.RESET` takes a block out of prepared operation, and no command takes a smoother away. -/
theorem State.PreparedWith.of_exec (h : s.PreparedWith i) (hc : c ≠ .sysReset) (hx : exec c s = .next t) :
    t.PreparedWith i := by
  have ⟨hprep, hi, hlen⟩ := h
  obtain ⟨e, rfl⟩ | ⟨u, ports, hu, rfl⟩ := exec_raise_or_performed hx
  · exact ⟨(SysRegs.enterFault_prepared ..).trans hprep, hi, hlen⟩
  · have hparams : u.params = s.params := hu.params_eq
    exact ⟨hu.prepared hc hprep, hparams ▸ hi, (hu.sp_length hc).trans (hparams ▸ hlen)⟩

/-- A command that leaves no fault was performed, and found none unless it is `SYS.RESET` (60_exceptions.md R336). -/
theorem exec_performed_of_no_fault (hc : c ≠ .sysReset) (hx : exec c s = .next t) (hf : t.sys.fault = false) :
    s.sys.fault = false ∧ ∃ u ports, Performed s c u ∧ t = { u with ports := ports } := by
  obtain ⟨e, rfl⟩ | ⟨u, ports, hu, rfl⟩ := exec_raise_or_performed hx
  · rw [State.raise_sys, SysRegs.enterFault_fault] at hf
    cases hf
  · obtain ⟨hfault, -⟩ := hu.faultRegs_eq hc
    exact ⟨hfault.symm.trans hf, u, ports, hu, rfl⟩

theorem ne_sysReset_of_setsSmoother (h : setsSmoother i c = false) : c ≠ .sysReset := by
  rintro rfl
  cases h

/-- A command that neither sets nor advances smoother `i` leaves it alone (10_state.md R41). -/
theorem Performed.smoother_eq (hu : Performed s c u) (hset : setsSmoother i c = false) (hadv : c ≠ .spAdv i) :
    u.smoother i = s.smoother i := by
  by_contra hne
  obtain ⟨n, rfl⟩ | ⟨v, rfl⟩ | rfl | ⟨srate, maxblk, cap, rfl⟩ :=
    hu.writes_smoother (ne_sysReset_of_setsSmoother hset) hne
  · cases (beq_self_eq_true i).symm.trans hset
  · cases (beq_self_eq_true i).symm.trans hset
  · exact hadv rfl
  · cases hset

theorem smoother_of_smootherResult {sm : Smoother} {data : Word} (h : s.PreparedWith i)
    (hx : smootherResult i sm data s = .next t) : t.smoother i = sm := by
  obtain ⟨-, hi, hlen⟩ := h
  cases hx
  exact (s.smoother_set i i sm (hlen.symm ▸ hi)).trans (if_pos rfl)

/-- `SP.ADV i` on a ready block advances smoother `i`. -/
theorem smoother_of_exec_spAdv (hr : s.Ready) (h : s.PreparedWith i) (hx : exec (.spAdv i) s = .next t) :
    t.smoother i = (s.smoother i).advance s.params.impl.num := by
  have ⟨_, hi, _⟩ := h
  exact smoother_of_smootherResult h (exec_spAdv hr hi ▸ hx)

/-- `SP.SETTGT i` on a ready block gives smoother `i` its target. -/
theorem smoother_of_exec_spSettgt {v : Word} (hr : s.Ready) (h : s.PreparedWith i)
    (hx : exec (.spSettgt i v) s = .next t) : t.smoother i = (s.smoother i).setTarget s.params.impl.num v := by
  have ⟨_, hi, _⟩ := h
  exact smoother_of_smootherResult h (exec_spSettgt hr hi v ▸ hx)

/-- The same block with port `p` being served, as `issueAll` gives it to each command. -/
def State.onPort (p : Port) (s : State) : State := { s with ports := { s.ports with cur := p } }

theorem State.onPort_params (s : State) (p : Port) : (s.onPort p).params = s.params := rfl
theorem State.onPort_smoother (s : State) (p : Port) (i : Nat) : (s.onPort p).smoother i = s.smoother i := rfl
theorem State.Ready.onPort (h : s.Ready) (p : Port) : (s.onPort p).Ready := h
theorem State.PreparedWith.onPort (h : s.PreparedWith i) (p : Port) : (s.onPort p).PreparedWith i := h

theorem issueAll_cons {is : List (Port × Instr)} (h : issueAll ((p, c) :: is) s = .next t) :
    ∃ u, exec c (s.onPort p) = .next u ∧ issueAll is u = .next t := by
  rw [issueAll] at h
  split at h
  next u hx => exact ⟨u, hx, h⟩
  next => cases h
  next => cases h

theorem issueAll_singleton (h : issueAll [(p, c)] s = .next t) : exec c (s.onPort p) = .next t := by
  obtain ⟨u, hx, hrest⟩ := issueAll_cons h
  exact Host.Outcome.next.inj hrest ▸ hx

/-- In a run that ends without a fault and sets smoother `i` nowhere, that smoother is advanced once for each `SP.ADV i`. A
fault anywhere in the run would still be there at its end. -/
theorem smoother_of_issueAll {is : List (Port × Instr)} (h : s.PreparedWith i)
    (hset : ∀ c ∈ is, setsSmoother i c.2 = false) (hx : issueAll is s = .next t) (hf : t.sys.fault = false) :
    s.sys.fault = false ∧
      t.smoother i = (Smoother.advance s.params.impl.num)^[(is.map Prod.snd).count (.spAdv i)] (s.smoother i) := by
  induction is generalizing s with
  | nil =>
    cases hx
    exact ⟨hf, rfl⟩
  | cons pc is ih =>
    obtain ⟨p, c⟩ := pc
    obtain ⟨hc, hrest⟩ := List.forall_mem_cons.1 hset
    obtain ⟨u, hexec, htail⟩ := issueAll_cons hx
    have hreset : c ≠ .sysReset := ne_sysReset_of_setsSmoother hc
    have hparams : u.params = s.params := (exec_params hexec).trans (s.onPort_params p)
    obtain ⟨hfu, hsm⟩ := ih ((h.onPort p).of_exec hreset hexec) hrest htail
    obtain ⟨hfs, u', ports, hu, hueq⟩ := exec_performed_of_no_fault hreset hexec hfu
    refine ⟨hfs, ?_⟩
    rw [hsm, hparams, List.map_cons]
    by_cases hadv : c = .spAdv i
    · subst hadv
      have hready : (s.onPort p).Ready := ⟨h.1, hfs⟩
      rw [List.count_cons_self, Function.iterate_succ_apply, smoother_of_exec_spAdv hready (h.onPort p) hexec,
        State.onPort_params, State.onPort_smoother]
    · have hkeep : u.smoother i = s.smoother i := hueq ▸ hu.smoother_eq hc hadv
      rw [List.count_cons_of_ne hadv, hkeep]

end Sys2Proof.Machine

namespace Sys2Proof.Proofs

open Sys2Proof.Machine

/-- Settles O26: in the run the smoother is advanced once for each `SP.ADV`, and its steps after `SP.SETTGT` are a whole ramp
or the first part of one. -/
theorem rampConvergesExactly : Obligations.RampConvergesExactly := by
  intro s t t' p i v is hready hi hlen N htarget hset hrun hfault
  have hexec := issueAll_singleton htarget
  have hprepared : s.PreparedWith i := ⟨hready.1, hi, hlen⟩
  have hserved := hprepared.onPort p
  have hparams : t.params = s.params := (exec_params hexec).trans (s.onPort_params p)
  have hstart : t.smoother i = (s.smoother i).setTarget N v := by
    rw [smoother_of_exec_spSettgt (hready.onPort p) hserved hexec, State.onPort_params, State.onPort_smoother]
  obtain ⟨-, hend⟩ := smoother_of_issueAll (hserved.of_exec (by simp) hexec) hset hrun hfault
  rw [hparams, hstart] at hend
  have hrem := Smoother.setTarget_rem N v (s.smoother i)
  refine ⟨fun hall => ?_, fun hsome => ?_⟩
  · obtain ⟨-, hdone⟩ := Smoother.ok_setTarget N v (s.smoother i)
    rw [hall, ← hrem, Smoother.advance_iterate_rem N hdone] at hend
    exact hend ▸ ⟨Smoother.setTarget_tgt N v _, rfl⟩
  · have hramp : (s.smoother i).rampLen ≠ 0#32 := by bv_omega
    rw [Smoother.advance_iterate_of_lt N _ (hrem.symm ▸ hsome), Smoother.setTarget_of_ramp N v hramp] at hend
    exact hend ▸ rfl

end Sys2Proof.Proofs
end

section
/-! PROOFS. Unit DL, command by command (42_delay_line.md R191, R192, R194 to R199), and the sample formulas in exact
arithmetic (R201). -/

namespace Sys2Proof.Machine

open Sys2Proof.Statements

variable {s : State} {ch : Nat} {d : Word}

/-- The words of `DLMEM` are those of the channels. -/
theorem State.memRead_dlmem (s : State) (ch a : Nat) : s.memRead .dlmem ch a = (s.delayChan ch).mem.read a := rfl

/-! The commands inside the own scope. -/

section

variable (hr : s.Ready) (ho : s.OwnsScope) (hch : ch < s.params.nch)
include hr ho hch

theorem exec_dlWrite (x : Word) : exec (.dlWrite ch x) s =
    .next (answered (s.setDelayChan ch ((s.delayChan ch).push s.dl.cap.toNat x)) 0#32 0#32) := by
  have hgo := examine_processing (i := .dlWrite ch x) hr (decide_eq_true hch) rfl ho
  dsimp only [exec, execDlWrite]
  rw [runCommand_go _ hgo, answer_eq_answered]

theorem exec_dlAdv : exec (.dlAdv ch) s =
    .next (answered (s.setDelayChan ch ((s.delayChan ch).bump s.dl.cap.toNat)) 0#32 0#32) := by
  have hgo := examine_processing (i := .dlAdv ch) hr (decide_eq_true hch) rfl ho
  dsimp only [exec, execDlAdv]
  rw [runCommand_go _ hgo, answer_eq_answered]

theorem exec_dlRdn : exec (.dlRdn ch d) s = delayRead (.dlRdn ch d) (nearestMode s.params.impl.num) ch d s := by
  dsimp only [exec, execDlRdn]
  exact runCommand_go _ (examine_processing hr (decide_eq_true hch) rfl ho)

theorem exec_dlRdl : exec (.dlRdl ch d) s = delayRead (.dlRdl ch d) (linearMode s.params.impl.num) ch d s := by
  dsimp only [exec, execDlRdl]
  exact runCommand_go _ (examine_processing hr (decide_eq_true hch) rfl ho)

theorem exec_dlRdc : exec (.dlRdc ch d) s = delayRead (.dlRdc ch d) (cubicMode s.params.impl.num) ch d s := by
  dsimp only [exec, execDlRdc]
  exact runCommand_go _ (examine_processing hr (decide_eq_true hch) rfl ho)

/-- Each of the three read commands is a delay read in one of the three modes. -/
theorem exec_delayReads : ∀ i ∈ [Instr.dlRdn ch d, .dlRdl ch d, .dlRdc ch d],
    ∃ mode ∈ [nearestMode s.params.impl.num, linearMode s.params.impl.num, cubicMode s.params.impl.num],
      exec i s = delayRead i mode ch d s := by
  simp only [List.forall_mem_cons, List.exists_mem_cons_iff]
  exact ⟨.inl (exec_dlRdn hr ho hch), .inr (.inl (exec_dlRdl hr ho hch)), .inr (.inr (.inl (exec_dlRdc hr ho hch))), nofun⟩

end

/-! The reads of a legal delay. -/

section

variable (hlegal : legalDelay s.params.impl.num s.dl.cap.toNat d = true) (i : Instr) (mode : Interpolation)
include hlegal

/-- At zero effective delay a read in any mode draws its word (R196). -/
theorem delayRead_of_zeroDelay (hzero : s.zeroDelayRead ch d = true) :
    ∃ v free, delayRead i mode ch d s = .next { answered s 0x100#32 v with free := free } := by
  rw [delayRead, if_pos hlegal, if_pos hzero]
  exact ⟨_, _, rfl⟩

/-- At any other delay a read answers the value of its mode and changes nothing (R196). -/
theorem delayRead_of_not_zeroDelay (hzero : ¬ s.zeroDelayRead ch d = true) :
    delayRead i mode ch d s = .next (answered s 0#32 (s.delayValue mode ch d)) := by
  rw [delayRead, if_pos hlegal, if_neg hzero, answer_eq_answered]

end

/-! What a change of one channel leaves of the memories. -/

/-- Replacing a channel of the delay line by one with the same memory stores nothing. -/
theorem sameMemory_setDelayChan (hch : ch < s.dl.chans.length) {v : DelayChannel} (hv : v.mem = (s.delayChan ch).mem) :
    SameMemory s (s.setDelayChan ch v) := by
  intro space c a
  cases space with
  | dlmem =>
    rw [State.memRead_dlmem, State.delayChan_set s ch c v hch]
    split
    next hc => rw [hv, hc, State.memRead_dlmem]
    next => rfl
  | _ => rfl

/-- A write to the memory of one channel of the delay line stores one word. -/
theorem storedAt_setDelayChan (hch : ch < s.dl.chans.length) {v : DelayChannel} {a : Nat} {x : Word}
    (hwf : (s.delayChan ch).mem.wf = true) (hv : v.mem = (s.delayChan ch).mem.write a x) :
    StoredAt s (s.setDelayChan ch v) .dlmem ch a x := by
  refine ⟨?_, fun space c a' hother => ?_⟩
  · rw [State.memRead_dlmem, State.delayChan_set s ch ch v hch, if_pos rfl, hv, Mem.read_write _ hwf, if_pos rfl]
  · cases space with
    | dlmem =>
      rw [State.memRead_dlmem, State.delayChan_set s ch c v hch]
      split
      next hc =>
        have ha : a' ≠ a := fun ha => hother ⟨rfl, hc, ha⟩
        rw [hv, Mem.read_write _ hwf, if_neg ha, hc, State.memRead_dlmem]
      next => rfl
    | _ => rfl

/-- Replacing one channel of the delay line leaves the others. -/
theorem delayChan_setDelayChan_of_ne (hch : ch < s.dl.chans.length) (v : DelayChannel) :
    ∀ c, c ≠ ch → (s.setDelayChan ch v).delayChan c = s.delayChan c := by
  intro c hc
  rw [State.delayChan_set s ch c v hch, if_neg hc]

/-- The cursor of a channel that advanced (R191, R192). -/
theorem widx_toNat_bump (c : DelayChannel) {cap : Word} (hcap : 0 < cap.toNat) :
    (c.bump cap.toNat).widx.toNat = (c.widx.toNat + 1) % cap.toNat := toNat_ofNat_mod _ hcap

/-- A ready block has a buffer of at least one word. -/
theorem State.Inv.cap_pos (h : s.Inv) (hr : s.Ready) : 0 < s.dl.cap.toNat := by
  obtain ⟨-, hcap, -⟩ := h.dl
  exact (hcap hr.1).1

theorem State.Inv.lt_delayChans_length (h : s.Inv) (hch : ch < s.params.nch) : ch < s.dl.chans.length := by
  obtain ⟨hlen, -, -⟩ := h.dl
  exact hlen.symm ▸ hch

/-! The sample formulas in exact arithmetic. -/

section

variable {α : Type} [Field α] {N : Num α} (hN : Exact N)
include hN

/-- In exact arithmetic the bypass at fraction zero agrees with the linear formula (R198). -/
theorem linearSample_exact (fr a b : α) : linearSample N fr a b = a + fr * (b - a) := by
  rw [linearSample, hN.zero, hN.fadd, hN.fmul, hN.fsub]
  split
  next hzero => rw [(hN.feq _ _).1 hzero, zero_mul, add_zero]
  next => rfl

/-- In exact arithmetic the bypass at fraction zero agrees with the polynomial of R199. -/
theorem cubicSample_exact (fr s0 s1 s2 s3 : α) : cubicSample N fr s0 s1 s2 s3 =
    (-1 / 2 * s0 + 3 / 2 * s1 - 3 / 2 * s2 + 1 / 2 * s3) * (fr * fr * fr) +
      (s0 - 5 / 2 * s1 + 2 * s2 - 1 / 2 * s3) * (fr * fr) + (-1 / 2 * s0 + 1 / 2 * s2) * fr + s1 := by
  rw [cubicSample, hN.zero]
  split
  next hzero => rw [(hN.feq _ _).1 hzero]; ring
  next => simp only [catmullRom, hN.fadd, hN.fsub, hN.fmul, hN.half, hN.negHalf, hN.threeHalves, hN.two, hN.fiveHalves]

end

end Sys2Proof.Machine

namespace Sys2Proof.Proofs

open Sys2Proof.Machine Sys2Proof.Statements

/-- Settles O27: the write passes the common checks; it stores one word and moves one cursor, of one channel. -/
theorem dlWriteStoresAtCursor : Obligations.DlWriteStoresAtCursor := by
  intro s ch x hinv hready howner hch
  have hlen := hinv.lt_delayChans_length hch
  obtain ⟨⟨hwf, -⟩, -⟩ := hinv.delayChan_ok hch
  refine ⟨_, exec_dlWrite hready howner hch x, storedAt_setDelayChan hlen hwf rfl, ?_,
    delayChan_setDelayChan_of_ne hlen _, rfl, rfl⟩
  have hchan := State.delayChan_set s ch ch ((s.delayChan ch).push s.dl.cap.toNat x) hlen
  rw [if_pos rfl] at hchan
  exact (congrArg (fun c => c.widx.toNat) hchan).trans (widx_toNat_bump _ (hinv.cap_pos hready))

/-- Settles O28: as for the write, with the memory of the channel kept. -/
theorem dlAdvMovesCursor : Obligations.DlAdvMovesCursor := by
  intro s ch hinv hready howner hch
  have hlen := hinv.lt_delayChans_length hch
  refine ⟨_, exec_dlAdv hready howner hch, sameMemory_setDelayChan hlen rfl, ?_,
    delayChan_setDelayChan_of_ne hlen _, rfl, rfl⟩
  have hchan := State.delayChan_set s ch ch ((s.delayChan ch).bump s.dl.cap.toNat) hlen
  rw [if_pos rfl] at hchan
  exact (congrArg (fun c => c.widx.toNat) hchan).trans (widx_toNat_bump _ (hinv.cap_pos hready))

/-- Settles O29: a legal delay passes the one check the reads add, and the index decides between the draw and the value of
the mode. -/
theorem delayReadsInterpolate : Obligations.DelayReadsInterpolate := by
  intro s ch d hready howner hch N hcap hnan hlow hhigh
  have hlegal : legalDelay N s.dl.cap.toNat d = true := (legalDelay_iff ..).2 ⟨hcap, hnan, hlow, hhigh⟩
  have hzero := s.zeroDelayRead_iff ch d
  rw [State.delayPosition_eq] at hzero
  refine ⟨fun hindex i hi => ?_, fun hindex => ?_⟩
  · obtain ⟨mode, -, hread⟩ := exec_delayReads hready howner hch i hi
    rw [hread]
    exact delayRead_of_zeroDelay hlegal i mode (hzero.2 hindex)
  · have hvalue := fun i mode => delayRead_of_not_zeroDelay hlegal i mode (mt hzero.1 hindex)
    rw [exec_dlRdn hready howner hch, exec_dlRdl hready howner hch, exec_dlRdc hready howner hch, hvalue, hvalue, hvalue,
      State.delayValue_nearest, State.delayValue_linear, State.delayValue_cubic, State.delayPosition_eq]
    exact ⟨rfl, rfl, rfl⟩

/-- Settles O34: in exact arithmetic both samples are polynomials in the fraction. -/
theorem interpolationIsContinuous : Obligations.InterpolationIsContinuous := by
  intro N hN s0 s1 s2 s3
  simp only [linearSample_exact hN, cubicSample_exact hN]
  exact ⟨by fun_prop, by ring, by ring, by fun_prop, by ring, by ring⟩

end Sys2Proof.Proofs
end

section
/-! PROOFS. The default numerics in units of 2^−149 (45_numerics_fft_window.md R281, R282): the fields of a word, the magnitudes
that finite words have, and rounding, which never passes such a magnitude and so keeps it. -/

namespace Sys2Proof.Machine

/-! The fields of a word. -/

theorem expField_eq (w : Word) : expField w = w.toNat / 2 ^ 23 % 2 ^ 8 := by
  rw [expField, BitVec.extractLsb'_toNat, Nat.shiftRight_eq_div_pow]

theorem fracField_eq (w : Word) : fracField w = w.toNat % 2 ^ 23 := by
  rw [fracField, BitVec.extractLsb'_toNat, Nat.shiftRight_zero]

theorem fracField_lt (w : Word) : fracField w < 2 ^ 23 := by
  rw [fracField_eq]
  exact Nat.mod_lt _ (by decide)

theorem signBit_eq (w : Word) : signBit w = decide (2 ^ 31 ≤ w.toNat) := by
  have hsign : w.extractLsb' 31 1 = 1#1 ↔ 2 ^ 31 ≤ w.toNat := by
    rw [← BitVec.toNat_inj, BitVec.extractLsb'_toNat, Nat.shiftRight_eq_div_pow, BitVec.toNat_ofNat]
    omega
  rw [signBit, Bool.eq_iff_iff, beq_iff_eq, hsign, decide_eq_true_eq]

theorem isFinite_iff (w : Word) : isFinite w = true ↔ expField w ≠ 255 := by rw [isFinite, bne_iff_ne]

theorem isFinite_of_isNaN_of_isInf {w : Word} (hnan : isNaN w = false) (hinf : isInf w = false) : isFinite w = true := by
  rw [isFinite_iff]
  intro he
  simp_all [isNaN, isInf]

theorem not_isNaN_of_isFinite {w : Word} (h : isFinite w = true) : isNaN w = false := by
  rw [isNaN, beq_false_of_ne ((isFinite_iff w).1 h), Bool.false_and]

theorem not_isInf_of_isFinite {w : Word} (h : isFinite w = true) : isInf w = false := by
  rw [isInf, beq_false_of_ne ((isFinite_iff w).1 h), Bool.false_and]

/-- A sign and 31 bits below it do not overlap. -/
theorem toNat_signWord_or (s : Bool) {n : Nat} (h : n < 2 ^ 31) :
    (signWord s ||| BitVec.ofNat 32 n).toNat = s.toNat * 2 ^ 31 + n := by
  rw [BitVec.toNat_or, BitVec.toNat_ofNat, Nat.mod_eq_of_lt (by omega)]
  cases s with
  | false => exact (Nat.zero_or n).trans (Nat.zero_add n).symm
  | true => exact (Nat.two_pow_add_eq_or_of_lt h 1).symm

theorem signBit_of_toNat {w : Word} {s : Bool} {n : Nat} (hw : w.toNat = s.toNat * 2 ^ 31 + n) (h : n < 2 ^ 31) :
    signBit w = s := by
  rw [signBit_eq, hw]
  cases s with
  | false => exact decide_eq_false (by rw [Bool.toNat_false]; omega)
  | true => exact decide_eq_true (by rw [Bool.toNat_true]; omega)

/-- The encoding `k · 2^23 + m` of the magnitude `m · 2^k`, also where `m` is the carry `2^24` into the next binade (R281). -/
theorem magnitude_of_toNat {w : Word} {s : Bool} {k m : Nat} (hw : w.toNat = s.toNat * 2 ^ 31 + (k * 2 ^ 23 + m))
    (hk : k ≤ 252) (hm : m ≤ 2 ^ 24) (hlow : k = 0 ∨ 2 ^ 23 ≤ m) : isFinite w = true ∧ magnitude w = m * 2 ^ k := by
  have hs : s.toNat < 2 := s.toNat_lt
  have hexp : expField w = k + m / 2 ^ 23 := by rw [expField_eq, hw]; omega
  have hfrac : fracField w = m % 2 ^ 23 := by rw [fracField_eq, hw]; omega
  refine ⟨(isFinite_iff w).2 (by omega), ?_⟩
  rw [magnitude, hexp, hfrac]
  obtain hsmall | hnormal | hcarry : m < 2 ^ 23 ∨ (2 ^ 23 ≤ m ∧ m < 2 ^ 24) ∨ m = 2 ^ 24 := by omega
  · obtain rfl : k = 0 := by omega
    rw [if_pos (by omega), pow_zero, mul_one]
    omega
  · have hquot : m / 2 ^ 23 = 1 := by omega
    have hrem : 2 ^ 23 + m % 2 ^ 23 = m := by omega
    rw [hquot, if_neg (by omega), Nat.add_sub_cancel, hrem]
  · rw [hcarry, if_neg (by omega)]
    exact (pow_succ' 2 k).symm ▸ (Nat.mul_assoc (2 ^ 23) 2 (2 ^ k)).symm

/-! The magnitudes of finite words. -/

/-- A magnitude that a word has, without a bound on its exponent: at most 24 significant bits (R281). -/
def IsFloat (n : Nat) : Prop := ∃ m k, m < 2 ^ 24 ∧ n = m * 2 ^ k

theorem isFloat_magnitude (w : Word) : IsFloat (magnitude w) := by
  have hfrac := fracField_lt w
  unfold magnitude
  split
  · exact ⟨fracField w, 0, by omega, (Nat.mul_one _).symm⟩
  · exact ⟨2 ^ 23 + fracField w, expField w - 1, by omega, rfl⟩

theorem scaledValue_of_nonneg {w : Word} (h : signBit w = false) : scaledValue w = magnitude w := by
  rw [scaledValue, h, if_neg (by decide)]

theorem isFloat_mul_two_pow {n : Nat} (h : n < 2 ^ 24) (k : Nat) : IsFloat (n * 2 ^ k) := ⟨n, k, h, rfl⟩

/-- The remainder of two magnitudes is one: it is a multiple of the finer of their units and no larger than either. -/
theorem IsFloat.mod {a b : Nat} (ha : IsFloat a) (hb : IsFloat b) : IsFloat (a % b) := by
  obtain ⟨m, k, hm, rfl⟩ := ha
  obtain ⟨m', k', hm', rfl⟩ := hb
  obtain hk | hk := Nat.le_total k k'
  · obtain ⟨j, rfl⟩ := Nat.exists_eq_add_of_le hk
    rw [pow_add, mul_comm (2 ^ k), ← mul_assoc, Nat.mul_mod_mul_right]
    exact isFloat_mul_two_pow ((Nat.mod_le _ _).trans_lt hm) k
  · obtain ⟨j, rfl⟩ := Nat.exists_eq_add_of_le hk
    rw [pow_add, mul_comm (2 ^ k'), ← mul_assoc, Nat.mul_mod_mul_right]
    obtain rfl | hpos := Nat.eq_zero_or_pos m'
    · rw [Nat.mod_zero, mul_assoc, ← pow_add]
      exact isFloat_mul_two_pow hm _
    · exact isFloat_mul_two_pow ((Nat.mod_lt _ hpos).trans hm') k'

/-! Rounding a magnitude. -/

/-- The exponent of the last of 24 significant bits. -/
def spacing (n : Nat) : Nat := if n < 2 ^ 24 then 0 else Nat.log2 n - 23

/-- The nearest magnitude with 24 significant bits, ties to even. -/
def roundNat (n : Nat) : Nat := roundQuotient n (2 ^ spacing n) * 2 ^ spacing n

theorem roundQuotient_eq {n d : Nat} (hd : 0 < d) :
    roundQuotient n d = n / d ∨ (n % d ≠ 0 ∧ roundQuotient n d = n / d + 1) := by
  simp only [roundQuotient]
  split
  next => exact .inl rfl
  next hup =>
    have hrem : n % d ≠ 0 := by omega
    split
    · obtain heven | hodd := Nat.mod_two_eq_zero_or_one (n / d)
      · exact .inl (by rw [heven, Nat.add_zero])
      · exact .inr ⟨hrem, by rw [hodd]⟩
    · exact .inr ⟨hrem, rfl⟩

/-- A quotient is not rounded up past an integer above it. -/
theorem roundQuotient_le {n d q : Nat} (hd : 0 < d) (h : n ≤ q * d) : roundQuotient n d ≤ q := by
  obtain heq | ⟨hrem, heq⟩ := roundQuotient_eq (n := n) hd <;> rw [heq]
  · exact Nat.div_le_of_le_mul (mul_comm q d ▸ h)
  · have hne : n ≠ q * d := fun hn => hrem (hn ▸ Nat.mul_mod_left q d)
    exact (Nat.div_lt_iff_lt_mul hd).2 (lt_of_le_of_ne h hne)

/-- A quotient is not rounded down past an integer below it. -/
theorem le_roundQuotient {n d q : Nat} (hd : 0 < d) (h : q * d ≤ n) : q ≤ roundQuotient n d := by
  have hfloor : q ≤ n / d := (Nat.le_div_iff_mul_le hd).2 h
  obtain heq | ⟨-, heq⟩ := roundQuotient_eq (n := n) hd <;> omega

/-- The two sides of the binade of a number with more than 24 bits. -/
theorem spacing_spec (n : Nat) : n < 2 ^ 24 * 2 ^ spacing n ∧ (spacing n = 0 ∨ 2 ^ 23 * 2 ^ spacing n ≤ n) := by
  unfold spacing
  split
  next hsmall => exact ⟨by omega, .inl rfl⟩
  next hlarge =>
    have hlog : 24 ≤ n.log2 := (Nat.le_log2 (by omega)).2 (by omega)
    rw [← pow_add, ← pow_add, show 24 + (n.log2 - 23) = n.log2 + 1 by omega, show 23 + (n.log2 - 23) = n.log2 by omega]
    exact ⟨Nat.lt_log2_self, .inr (Nat.log2_self_le (by omega))⟩

theorem exponent_le {e k : Nat} (h : 2 ^ 23 * 2 ^ e < 2 ^ 24 * 2 ^ k) : e ≤ k := by
  rw [← pow_add, ← pow_add] at h
  have := (Nat.pow_lt_pow_iff_right (by decide : 1 < 2)).1 h
  omega

theorem spacing_le {n k : Nat} (h : n < 2 ^ 24 * 2 ^ k) : spacing n ≤ k := by
  obtain ⟨-, hzero | hlow⟩ := spacing_spec n
  · omega
  · exact exponent_le (hlow.trans_lt h)

/-- A magnitude from a binade on is a multiple of the unit of that binade. -/
theorem IsFloat.two_pow_dvd {g e : Nat} (hg : IsFloat g) (h : 2 ^ 23 * 2 ^ e ≤ g) : 2 ^ e ∣ g := by
  obtain ⟨m, k, hm, rfl⟩ := hg
  have he : e ≤ k := exponent_le (h.trans_lt (Nat.mul_lt_mul_of_pos_right hm (Nat.two_pow_pos k)))
  exact dvd_mul_of_dvd_right (Nat.pow_dvd_pow 2 he) m

/-- Rounding does not pass a magnitude above, which is a multiple of the unit that `n` is rounded to. -/
theorem roundNat_le {g n : Nat} (hg : IsFloat g) (h : n ≤ g) : roundNat n ≤ g := by
  have hdvd : 2 ^ spacing n ∣ g := by
    obtain ⟨-, hzero | hlow⟩ := spacing_spec n
    · rw [hzero]
      exact one_dvd g
    · exact hg.two_pow_dvd (hlow.trans h)
  obtain ⟨q, rfl⟩ := hdvd
  rw [roundNat, mul_comm _ q]
  exact Nat.mul_le_mul_right _ (roundQuotient_le (Nat.two_pow_pos _) (mul_comm q _ ▸ h))

/-- Rounding does not pass a magnitude below: one in the binade of `n` is a multiple of the unit, and the binade begins with
such a multiple. -/
theorem le_roundNat {g n : Nat} (hg : IsFloat g) (h : g ≤ n) : g ≤ roundNat n := by
  have hmultiple : ∀ q, q * 2 ^ spacing n ≤ n → q * 2 ^ spacing n ≤ roundNat n := fun q hq =>
    Nat.mul_le_mul_right _ (le_roundQuotient (Nat.two_pow_pos _) hq)
  obtain ⟨-, hzero | hlow⟩ := spacing_spec n
  · have hone := hmultiple g
    rw [hzero, pow_zero, mul_one] at hone
    exact hone h
  · obtain hbelow | hwithin := Nat.le_total g (2 ^ 23 * 2 ^ spacing n)
    · exact hbelow.trans (hmultiple _ hlow)
    · obtain ⟨q, rfl⟩ := hg.two_pow_dvd hwithin
      rw [mul_comm] at h ⊢
      exact hmultiple q h

/-! Rounding to a word. -/

/-- The word that rounds an integer far from overflow, in its sign and magnitude (R282). -/
theorem roundWord_one (s : Bool) {n : Nat} (h : n < 2 ^ 24 * 2 ^ 252) :
    isFinite (roundWord s n 1) = true ∧ signBit (roundWord s n 1) = s ∧ magnitude (roundWord s n 1) = roundNat n := by
  obtain ⟨hhigh, hlow⟩ := spacing_spec n
  have hk : spacing n ≤ 252 := spacing_le h
  have hm : roundQuotient n (2 ^ spacing n) ≤ 2 ^ 24 := roundQuotient_le (Nat.two_pow_pos _) hhigh.le
  have hbits : spacing n * 2 ^ 23 + roundQuotient n (2 ^ spacing n) < 0x7F800000 := by omega
  have hword : roundWord s n 1 =
      signWord s ||| BitVec.ofNat 32 (spacing n * 2 ^ 23 + roundQuotient n (2 ^ spacing n)) := by
    rw [roundWord, Nat.div_one, one_mul]
    exact if_neg (Nat.not_le.2 hbits)
  have hnat := toNat_signWord_or s (hbits.trans (by decide : 0x7F800000 < 2 ^ 31))
  rw [← hword] at hnat
  obtain ⟨hfinite, hmag⟩ := magnitude_of_toNat hnat hk hm (hlow.imp_right fun hq => le_roundQuotient (Nat.two_pow_pos _) hq)
  exact ⟨hfinite, signBit_of_toNat hnat (by omega), hmag⟩

/-- A magnitude that a word has is kept. -/
theorem roundNat_of_isFloat {n : Nat} (h : IsFloat n) : roundNat n = n :=
  Nat.le_antisymm (roundNat_le h le_rfl) (le_roundNat h le_rfl)

/-- No value of a word lies strictly between `z` and `r`, in units of 2^−149. -/
def Faithful (z r : Int) : Prop := ∀ g : Int, IsFloat g.natAbs → (z ≤ g → r ≤ g) ∧ (g ≤ z → g ≤ r)

theorem Faithful.eq {z r : Int} (h : Faithful z r) (hz : IsFloat z.natAbs) : r = z :=
  le_antisymm ((h z hz).1 le_rfl) ((h z hz).2 le_rfl)

theorem faithful_of_natAbs {z r : Int} (hpos : 0 ≤ z → r = roundNat z.natAbs) (hneg : z < 0 → r = -roundNat z.natAbs) :
    Faithful z r := by
  intro g hg
  have hle := roundNat_le hg (n := z.natAbs)
  have hge := le_roundNat hg (n := z.natAbs)
  obtain hz | hz := le_or_gt 0 z
  · rw [hpos hz]; omega
  · rw [hneg hz]; omega

/-- Rounding an integer is faithful (R282). -/
theorem roundInt_faithful {z : Int} (h : z.natAbs < 2 ^ 24 * 2 ^ 252) :
    isFinite (roundInt z) = true ∧ Faithful z (scaledValue (roundInt z)) := by
  obtain ⟨hfinite, hsign, hmag⟩ := roundWord_one (decide (z < 0)) h
  refine ⟨hfinite, faithful_of_natAbs (fun hz => ?_) (fun hz => ?_)⟩
  · rw [roundInt, scaledValue, hsign, hmag, if_neg (by simpa using hz)]
  · rw [roundInt, scaledValue, hsign, hmag, if_pos (decide_eq_true hz)]

end Sys2Proof.Machine
end

section
/-! PROOFS. The operations of the default numerics that the read position is made of, on finite words (45_numerics_fft_window.md
R282 to R288): which are exact, and that the others round faithfully. -/

namespace Sys2Proof.Machine

variable {a b w : Word}

/-! Sign and magnitude determine a finite word. -/

theorem toNat_eq_fields (w : Word) : w.toNat = (signBit w).toNat * 2 ^ 31 + (expField w * 2 ^ 23 + fracField w) := by
  have hlt := w.isLt
  rw [signBit_eq, expField_eq, fracField_eq]
  obtain hlow | hhigh := Nat.lt_or_ge w.toNat (2 ^ 31)
  · rw [decide_eq_false (Nat.not_le.2 hlow), Bool.toNat_false]
    omega
  · rw [decide_eq_true hhigh, Bool.toNat_true]
    omega

/-- Magnitudes rise with the exponent (R281). -/
theorem magnitude_lt_of_expField_lt (h : expField a < expField b) : magnitude a < magnitude b := by
  have ha : magnitude a < 2 ^ 24 * 2 ^ (expField a - 1) := by
    have hfrac := fracField_lt a
    unfold magnitude
    split
    next hzero => rw [hzero]; omega
    next => exact Nat.mul_lt_mul_of_pos_right (by omega) (Nat.two_pow_pos _)
  have hb : 2 ^ 23 * 2 ^ (expField b - 1) ≤ magnitude b := by
    rw [magnitude, if_neg (by omega)]
    exact Nat.mul_le_mul_right _ (Nat.le_add_right _ _)
  obtain hzero | hpos := Nat.eq_zero_or_pos (expField a)
  · have hsmall : magnitude a < 2 ^ 23 := by
      rw [magnitude, if_pos hzero]
      exact fracField_lt a
    exact hsmall.trans_le ((Nat.le_mul_of_pos_right _ (Nat.two_pow_pos _)).trans hb)
  · refine ha.trans_le (le_trans ?_ hb)
    rw [← pow_add, ← pow_add]
    exact Nat.pow_le_pow_right (by decide) (by omega)

theorem eq_of_signBit_of_magnitude (hsign : signBit a = signBit b) (hmag : magnitude a = magnitude b) : a = b := by
  have hexp : expField a = expField b := by
    obtain hlt | heq | hlt := Nat.lt_trichotomy (expField a) (expField b)
    · exact absurd hmag (magnitude_lt_of_expField_lt hlt).ne
    · exact heq
    · exact absurd hmag (magnitude_lt_of_expField_lt hlt).ne'
  have hfrac : fracField a = fracField b := by
    rw [magnitude, magnitude, hexp] at hmag
    split at hmag
    next => exact hmag
    next => exact Nat.add_left_cancel (Nat.eq_of_mul_eq_mul_right (Nat.two_pow_pos _) hmag)
  exact BitVec.eq_of_toNat_eq (by rw [toNat_eq_fields a, toNat_eq_fields b, hsign, hexp, hfrac])

theorem signBit_of_scaledValue_pos (h : 0 < scaledValue w) : signBit w = false := by
  unfold scaledValue at h
  split at h
  next => omega
  next hsign => exact Bool.eq_false_iff.2 hsign

/-! Negation and addition. -/

theorem signBit_fneg (w : Word) : signBit (fneg w) = !signBit w := by
  have hflip : ∀ x : BitVec 1, (x ^^^ 1#1 == 1#1) = !(x == 1#1) := by decide
  rw [signBit, fneg, BitVec.extractLsb'_xor]
  exact hflip _

theorem expField_fneg (w : Word) : expField (fneg w) = expField w := by
  rw [expField, fneg, BitVec.extractLsb'_xor, show (0x80000000#32).extractLsb' 23 8 = 0#8 from rfl, BitVec.xor_zero,
    expField]

theorem fracField_fneg (w : Word) : fracField (fneg w) = fracField w := by
  rw [fracField, fneg, BitVec.extractLsb'_xor, show (0x80000000#32).extractLsb' 0 23 = 0#23 from rfl, BitVec.xor_zero,
    fracField]

theorem isFinite_fneg (w : Word) : isFinite (fneg w) = isFinite w := by rw [isFinite, expField_fneg, isFinite]

/-- Negation is exact (R283). -/
theorem scaledValue_fneg (w : Word) : scaledValue (fneg w) = -scaledValue w := by
  have hmag : magnitude (fneg w) = magnitude w := by rw [magnitude, expField_fneg, fracField_fneg, magnitude]
  rw [scaledValue, signBit_fneg, hmag, scaledValue]
  cases signBit w with
  | false => rfl
  | true => exact (Int.neg_neg _).symm

/-- The sum of finite words far from overflow is faithfully rounded (R282). -/
theorem fadd_faithful (ha : isFinite a = true) (hb : isFinite b = true)
    (h : (scaledValue a + scaledValue b).natAbs < 2 ^ 24 * 2 ^ 252) :
    isFinite (fadd a b) = true ∧ Faithful (scaledValue a + scaledValue b) (scaledValue (fadd a b)) := by
  simp only [fadd, not_isNaN_of_isFinite ha, not_isNaN_of_isFinite hb, not_isInf_of_isFinite ha,
    not_isInf_of_isFinite hb, Bool.or_false, Bool.false_eq_true, if_false]
  split
  next hzero =>
    rw [hzero]
    have hword : ∀ s, isFinite (signWord s) = true ∧ scaledValue (signWord s) = 0 := by decide
    obtain ⟨hfinite, hvalue⟩ := hword (signBit a && signBit b)
    rw [hvalue]
    exact ⟨hfinite, fun _ _ => ⟨id, id⟩⟩
  next => exact roundInt_faithful h

theorem fsub_faithful (ha : isFinite a = true) (hb : isFinite b = true)
    (h : (scaledValue a - scaledValue b).natAbs < 2 ^ 24 * 2 ^ 252) :
    isFinite (fsub a b) = true ∧ Faithful (scaledValue a - scaledValue b) (scaledValue (fsub a b)) := by
  have hneg : scaledValue a + scaledValue (fneg b) = scaledValue a - scaledValue b := by
    rw [scaledValue_fneg, Int.sub_eq_add_neg]
  rw [fsub, ← hneg]
  exact fadd_faithful ha ((isFinite_fneg b).trans hb) (hneg ▸ h)

/-! Integers and remainders. -/

/-- Integers below `2^24` are converted exactly (R286). -/
theorem u2f_exact {n : Nat} (h : n < 2 ^ 24) :
    isFinite (u2f n) = true ∧ signBit (u2f n) = false ∧ magnitude (u2f n) = n * 2 ^ 149 := by
  have hsize : n * 2 ^ 149 < 2 ^ 24 * 2 ^ 252 := by omega
  have hround := roundWord_one false hsize
  rwa [roundNat_of_isFloat (isFloat_mul_two_pow h 149)] at hround

theorem scaledValue_u2f {n : Nat} (h : n < 2 ^ 24) : scaledValue (u2f n) = n * 2 ^ 149 := by
  obtain ⟨-, hsign, hmag⟩ := u2f_exact h
  rw [scaledValue_of_nonneg hsign, hmag]
  push_cast
  rfl

/-- The remainder by a word far below overflow is exact (R288). -/
theorem fmod_exact (ha : isFinite a = true) (hsign : signBit a = false) (hb : isFinite b = true) (hpos : 0 < magnitude b)
    (h : magnitude b < 2 ^ 24 * 2 ^ 252) : isFinite (fmod a b) = true ∧ signBit (fmod a b) = false ∧
      magnitude (fmod a b) = magnitude a % magnitude b := by
  have hsize : magnitude a % magnitude b < 2 ^ 24 * 2 ^ 252 := (Nat.mod_lt _ hpos).trans h
  have hround := roundWord_one (signBit a && magnitude a != 0) hsize
  rw [roundNat_of_isFloat ((isFloat_magnitude a).mod (isFloat_magnitude b)), hsign, Bool.false_and] at hround
  simpa [fmod, not_isNaN_of_isFinite ha, not_isNaN_of_isFinite hb, not_isInf_of_isFinite ha, not_isInf_of_isFinite hb,
    hpos.ne', hsign] using hround

/-- The floor of a finite word that is not negative (R287). -/
theorem ffloorU_eq (ha : isFinite a = true) (hsign : signBit a = false) : ffloorU a = magnitude a / 2 ^ 149 := by
  simp [ffloorU, ha, hsign]

/-! Comparisons. -/

theorem orderKey_of_isFinite (h : isFinite w = true) : orderKey w = scaledValue w := by
  rw [orderKey, not_isInf_of_isFinite h]
  rfl

end Sys2Proof.Machine
end

section
/-! PROOFS. The read position of a legal delay in the default numerics (42_delay_line.md R193 to R196): where it lies, how it
splits, and what the reads make of an integer delay (R200). -/

namespace Sys2Proof.Machine

variable {cap w D : Nat} {a b d p r : Word}

/-! A legal delay. -/

theorem two_pow_lt_infinity : (2 : Int) ^ 24 * 2 ^ 149 < 2 ^ 300 := by
  rw [← pow_add]
  exact pow_lt_pow_right₀ (by decide) (by decide)

/-- A legal delay is finite and lies between 0 and `DLCAP − 2`; −0.0 counts as 0 (R193). -/
theorem bounds_of_legalDelay (hcap : cap ≤ 2 ^ 23) (hnan : isNaN d = false) (hlow : fle 0#32 d = true)
    (hhigh : fle d (u2f (cap - 2)) = true) :
    isFinite d = true ∧ 0 ≤ scaledValue d ∧ scaledValue d ≤ (cap - 2 : Nat) * 2 ^ 149 := by
  have hsmall : cap - 2 < 2 ^ 24 := by omega
  obtain ⟨hfinite, -⟩ := u2f_exact hsmall
  have hzero : orderKey 0#32 = 0 := orderKey_of_isFinite (by decide)
  simp only [fle, Bool.and_eq_true, decide_eq_true_eq] at hlow hhigh
  obtain ⟨-, hlow⟩ := hlow
  obtain ⟨-, hhigh⟩ := hhigh
  rw [hzero] at hlow
  rw [orderKey_of_isFinite hfinite, scaledValue_u2f hsmall] at hhigh
  have hinf : isInf d = false := by
    rw [Bool.eq_false_iff]
    intro hinf
    have hlarge := two_pow_lt_infinity
    rw [orderKey, if_pos hinf] at hlow hhigh
    split at hlow
    next => omega
    next hsign =>
      rw [if_neg hsign] at hhigh
      omega
  have hd := isFinite_of_isNaN_of_isInf hnan hinf
  rw [orderKey_of_isFinite hd] at hlow hhigh
  exact ⟨hd, hlow, hhigh⟩

theorem fle_of_scaledValue_le (ha : isFinite a = true) (hb : isFinite b = true) (h : scaledValue a ≤ scaledValue b) :
    fle a b = true := by
  simp [fle, not_isNaN_of_isFinite ha, not_isNaN_of_isFinite hb, orderKey_of_isFinite ha, orderKey_of_isFinite hb, h]

/-- The integers up to `DLCAP − 2` are legal delays. -/
theorem legalDelay_u2f (hcap : cap ≤ 2 ^ 23) (hD : D + 2 ≤ cap) : legalDelay binary32 cap (u2f D) = true := by
  have hsmall : D < 2 ^ 24 := by omega
  have hsmall' : cap - 2 < 2 ^ 24 := by omega
  obtain ⟨hfinite, -⟩ := u2f_exact hsmall
  obtain ⟨hfinite', -⟩ := u2f_exact hsmall'
  have hvalue := scaledValue_u2f hsmall
  have hvalue' := scaledValue_u2f hsmall'
  have hzero : scaledValue 0#32 = 0 := by decide
  rw [legalDelay_iff, binary32_isnan, binary32_fle, binary32_zero, binary32_u2f]
  exact ⟨by omega, not_isNaN_of_isFinite hfinite, fle_of_scaledValue_le (by decide) hfinite (by omega),
    fle_of_scaledValue_le hfinite hfinite' (by omega)⟩

/-! The position. -/

/-- The sum `p2` of R194, before the remainder. -/
def shiftedPosition (w cap : Nat) (d : Word) : Word := fadd (fsub (u2f w) d) (u2f cap)

theorem readPosition_binary32 (w cap : Nat) (d : Word) :
    readPosition binary32 w cap d = fmod (shiftedPosition w cap d) (u2f cap) := by
  rw [readPosition, binary32_fmod, binary32_fadd, binary32_fsub, binary32_u2f, shiftedPosition]

theorem isFloat_natAbs_mul {z : Int} (h : z.natAbs < 2 ^ 24) : IsFloat (z * 2 ^ 149).natAbs := by
  rw [Int.natAbs_mul]
  exact isFloat_mul_two_pow h 149

/-- Neither of the two roundings of R194 passes an integer: `p2` lies between any integers that `w − d + DLCAP` lies
between. -/
theorem shiftedPosition_bounds (hcap : cap ≤ 2 ^ 23) (hw : w < cap) (hd : isFinite d = true) {lo hi : Nat} (hpos : 0 < lo)
    (hhi : hi ≤ w + cap) (hlow : (lo : Int) * 2 ^ 149 ≤ (w + cap : Nat) * 2 ^ 149 - scaledValue d)
    (hhigh : (w + cap : Nat) * 2 ^ 149 - scaledValue d ≤ (hi : Int) * 2 ^ 149) :
    isFinite (shiftedPosition w cap d) = true ∧ signBit (shiftedPosition w cap d) = false ∧
      lo * 2 ^ 149 ≤ magnitude (shiftedPosition w cap d) ∧ magnitude (shiftedPosition w cap d) ≤ hi * 2 ^ 149 := by
  have hw' : w < 2 ^ 24 := by omega
  have hcap' : cap < 2 ^ 24 := by omega
  have hwvalue := scaledValue_u2f hw'
  have hcapvalue := scaledValue_u2f hcap'
  have hlohi : lo ≤ hi := by omega
  obtain ⟨hdiff, hround⟩ := fsub_faithful (u2f_exact hw').1 hd (by omega)
  have hdlow := (hround ((lo - cap : Int) * 2 ^ 149) (isFloat_natAbs_mul (by omega))).2 (by omega)
  have hdhigh := (hround ((hi - cap : Int) * 2 ^ 149) (isFloat_natAbs_mul (by omega))).1 (by omega)
  obtain ⟨hsum, hround⟩ := fadd_faithful hdiff (u2f_exact hcap').1 (by omega)
  have hslow := (hround (lo * 2 ^ 149) (isFloat_natAbs_mul (by omega))).2 (by omega)
  have hshigh := (hround (hi * 2 ^ 149) (isFloat_natAbs_mul (by omega))).1 (by omega)
  have hsign : signBit (shiftedPosition w cap d) = false := signBit_of_scaledValue_pos (by rw [shiftedPosition]; omega)
  have hmag := scaledValue_of_nonneg hsign
  rw [shiftedPosition] at hsign hmag ⊢
  exact ⟨hsum, hsign, by omega, by omega⟩

/-- For a legal delay `p2` lies between `w + 2` and `w + DLCAP` (R194). -/
theorem shiftedPosition_of_legalDelay (hcap : cap ≤ 2 ^ 23) (htwo : 2 ≤ cap) (hw : w < cap) (hd : isFinite d = true)
    (hlow : 0 ≤ scaledValue d) (hhigh : scaledValue d ≤ (cap - 2 : Nat) * 2 ^ 149) :
    isFinite (shiftedPosition w cap d) = true ∧ signBit (shiftedPosition w cap d) = false ∧
      (w + 2) * 2 ^ 149 ≤ magnitude (shiftedPosition w cap d) ∧
      magnitude (shiftedPosition w cap d) ≤ (w + cap) * 2 ^ 149 :=
  shiftedPosition_bounds hcap hw hd (by omega) le_rfl (by omega) (by omega)

/-- For an integer delay `p2` is exact (R200). -/
theorem shiftedPosition_u2f (hcap : cap ≤ 2 ^ 23) (hw : w < cap) (hD : D + 2 ≤ cap) :
    isFinite (shiftedPosition w cap (u2f D)) = true ∧ signBit (shiftedPosition w cap (u2f D)) = false ∧
      magnitude (shiftedPosition w cap (u2f D)) = (w + cap - D) * 2 ^ 149 := by
  have hsmall : D < 2 ^ 24 := by omega
  have hvalue := scaledValue_u2f hsmall
  obtain ⟨hfinite, hsign, hlow, hhigh⟩ := shiftedPosition_bounds (lo := w + cap - D) (hi := w + cap - D) hcap hw
    (u2f_exact hsmall).1 (by omega) (by omega) (by omega) (by omega)
  exact ⟨hfinite, hsign, le_antisymm hhigh hlow⟩

/-! The remainder and the split. -/

/-- The remainder by `DLCAP` is exact (R194). -/
theorem fmod_u2f (hcap : cap ≤ 2 ^ 23) (hpos : 0 < cap) (hp : isFinite p = true) (hsign : signBit p = false) :
    isFinite (fmod p (u2f cap)) = true ∧ signBit (fmod p (u2f cap)) = false ∧
      magnitude (fmod p (u2f cap)) = magnitude p % (cap * 2 ^ 149) := by
  obtain ⟨hfinite, -, hmag⟩ := u2f_exact (show cap < 2 ^ 24 by omega)
  rw [← hmag]
  exact fmod_exact hp hsign hfinite (by omega) (by omega)

/-- The index of a position is the integer part of `p2`, modulo `DLCAP` (R195). -/
theorem ffloorU_fmod_u2f (hcap : cap ≤ 2 ^ 23) (hpos : 0 < cap) (hp : isFinite p = true) (hsign : signBit p = false) :
    ffloorU (fmod p (u2f cap)) = magnitude p / 2 ^ 149 % cap := by
  obtain ⟨hr, hrsign, hmag⟩ := fmod_u2f hcap hpos hp hsign
  rw [ffloorU_eq hr hrsign, hmag, Nat.mod_mul_left_div_self]

/-- The fraction of a position is exact (R195). -/
theorem fraction_exact (hr : isFinite r = true) (hsign : signBit r = false) (hsmall : ffloorU r < 2 ^ 24) :
    isFinite (fsub r (u2f (ffloorU r))) = true ∧
      scaledValue (fsub r (u2f (ffloorU r))) = (magnitude r % 2 ^ 149 : Nat) := by
  have hindex := scaledValue_u2f hsmall
  have hfloor := ffloorU_eq hr hsign
  have hvalue := scaledValue_of_nonneg hsign
  have hexact : scaledValue r - scaledValue (u2f (ffloorU r)) = (magnitude r % 2 ^ 149 : Nat) := by omega
  have hunit : IsFloat (2 ^ 149) := one_mul (2 ^ 149) ▸ isFloat_mul_two_pow (by decide) 149
  have hfloat : IsFloat (magnitude r % 2 ^ 149) := (isFloat_magnitude r).mod hunit
  obtain ⟨hfinite, hround⟩ := fsub_faithful hr (u2f_exact hsmall).1 (by omega)
  rw [hexact] at hround
  exact ⟨hfinite, hround.eq hfloat⟩

end Sys2Proof.Machine
end

section
/-! PROOFS. What the integer delays of a device with the default numerics read (42_delay_line.md R200), and what stands in the
buffer after a run of writes (R190, R191). -/

namespace Sys2Proof.Machine

open Sys2Proof.Statements

/-! The position in real numbers. -/

theorem value_of_nonneg {w : Word} (h : signBit w = false) : value w = (magnitude w : ℚ) / 2 ^ 149 := by
  rw [value, scaledValue_of_nonneg h, Int.cast_natCast]

theorem natCast_le_value_iff {w : Word} (h : signBit w = false) (n : Nat) :
    (n : ℚ) ≤ value w ↔ n * 2 ^ 149 ≤ magnitude w := by
  rw [value_of_nonneg h, le_div_iff₀ (by positivity)]
  exact_mod_cast Iff.rfl

theorem value_le_natCast_iff {w : Word} (h : signBit w = false) (n : Nat) :
    value w ≤ n ↔ magnitude w ≤ n * 2 ^ 149 := by
  rw [value_of_nonneg h, div_le_iff₀ (by positivity)]
  exact_mod_cast Iff.rfl

/-- The fraction is what the value exceeds the index by, and lies in `[0, 1)` (R195). -/
theorem value_fraction {r : Word} (hr : isFinite r = true) (hsign : signBit r = false) (hsmall : ffloorU r < 2 ^ 24) :
    value (fsub r (u2f (ffloorU r))) = value r - ffloorU r ∧ 0 ≤ value (fsub r (u2f (ffloorU r))) ∧
      value (fsub r (u2f (ffloorU r))) < 1 := by
  obtain ⟨-, hfraction⟩ := fraction_exact hr hsign hsmall
  have hvalue : value (fsub r (u2f (ffloorU r))) = ((magnitude r % 2 ^ 149 : Nat) : ℚ) / 2 ^ 149 := by
    rw [value, hfraction, Int.cast_natCast]
  have hlt : ((magnitude r % 2 ^ 149 : Nat) : ℚ) < 2 ^ 149 := by
    exact_mod_cast Nat.mod_lt _ (Nat.two_pow_pos 149)
  have hsplit : ((magnitude r % 2 ^ 149 : Nat) : ℚ) + (magnitude r / 2 ^ 149 : Nat) * 2 ^ 149 = magnitude r := by
    exact_mod_cast Nat.mod_add_div' (magnitude r) (2 ^ 149)
  refine ⟨?_, hvalue ▸ by positivity, ?_⟩
  · rw [hvalue, value_of_nonneg hsign, ffloorU_eq hr hsign, eq_sub_iff_add_eq, div_add' _ _ _ (by positivity), hsplit]
  · rwa [hvalue, div_lt_one (by positivity)]

/-- The index of a legal delay is the cursor exactly when neither rounding moves `p2` below `w + DLCAP` (R196). -/
theorem index_eq_cursor_iff {cap w : Nat} {p : Word} (hcap : cap ≤ 2 ^ 23) (hw : w < cap) (hp : isFinite p = true)
    (hsign : signBit p = false) (hlow : (w + 2) * 2 ^ 149 ≤ magnitude p) (hhigh : magnitude p ≤ (w + cap) * 2 ^ 149) :
    ffloorU (fmod p (u2f cap)) = w ↔ p = u2f (w + cap) := by
  obtain ⟨-, hsign', hmag⟩ := u2f_exact (show w + cap < 2 ^ 24 by omega)
  rw [ffloorU_fmod_u2f hcap (Nat.zero_lt_of_lt hw) hp hsign]
  refine ⟨fun hindex => ?_, fun hp => ?_⟩
  · obtain hbelow | habove := Nat.lt_or_ge (magnitude p / 2 ^ 149) cap
    · rw [Nat.mod_eq_of_lt hbelow] at hindex
      omega
    · rw [Nat.mod_eq_sub_mod habove, Nat.mod_eq_of_lt (by omega)] at hindex
      exact eq_of_signBit_of_magnitude (hsign.trans hsign'.symm) (by omega)
  · rw [hp, hmag, Nat.mul_div_cancel _ (Nat.two_pow_pos _), Nat.add_mod_right, Nat.mod_eq_of_lt hw]

/-- Where `p2`, between `w + 2` and `w + DLCAP`, and the position made of it lie, and how the position splits (R194, R195). -/
theorem position_bounds {cap w : Nat} {p r : Word} (hcap : cap ≤ 2 ^ 23) (hw : w < cap) (hp : isFinite p = true)
    (hsign : signBit p = false) (hlow : (w + 2) * 2 ^ 149 ≤ magnitude p) (hhigh : magnitude p ≤ (w + cap) * 2 ^ 149)
    (hr : r = fmod p (u2f cap)) : 2 ≤ value p ∧ value p ≤ 2 * cap - 1 ∧ 0 ≤ value r ∧ value r < cap ∧
      ffloorU r < cap ∧ value (fsub r (u2f (ffloorU r))) = value r - ffloorU r ∧
      0 ≤ value (fsub r (u2f (ffloorU r))) ∧ value (fsub r (u2f (ffloorU r))) < 1 := by
  have hpos : 0 < cap := Nat.zero_lt_of_lt hw
  have hmin := (natCast_le_value_iff hsign (w + 2)).2 hlow
  have hmax := (value_le_natCast_iff hsign (w + cap)).2 hhigh
  have hcursor : ((w + 1 : Nat) : ℚ) ≤ cap := Nat.cast_le.2 hw
  have hnonneg : (0 : ℚ) ≤ w := Nat.cast_nonneg w
  obtain ⟨hrfinite, hrsign, hrmag⟩ := fmod_u2f hcap hpos hp hsign
  have hindex := ffloorU_fmod_u2f hcap hpos hp hsign
  rw [← hr] at hrfinite hrsign hrmag hindex
  have hbuffer : ffloorU r < cap := hindex.trans_lt (Nat.mod_lt _ hpos)
  have hrlt : magnitude r < cap * 2 ^ 149 := hrmag.trans_lt (Nat.mod_lt _ (by omega))
  have hrmin : 0 ≤ value r := by
    rw [value_of_nonneg hrsign]
    positivity
  have hrmax : value r < cap := not_le.1 fun hle => hrlt.not_ge ((natCast_le_value_iff hrsign cap).1 hle)
  push_cast at hmin hmax hcursor
  exact ⟨by linarith, by linarith, hrmin, hrmax, hbuffer, value_fraction hrfinite hrsign (by omega)⟩

/-! Integer delays. -/

/-- Going back less than the whole buffer from the cursor meets the cursor only at distance zero (R190). -/
theorem back_eq_cursor_iff {cap w j : Nat} (hw : w < cap) (hj : j < cap) : (w + cap - j) % cap = w ↔ j = 0 := by
  obtain hwrap | hback := Nat.lt_or_ge (w + cap - j) cap
  · rw [Nat.mod_eq_of_lt hwrap]
    omega
  · rw [Nat.mod_eq_sub_mod hback, Nat.mod_eq_of_lt (by omega)]
    omega

/-- At fraction zero every mode answers the word at the index (R197 to R199). -/
theorem mode_of_zero_fraction {fr : Word} (hfr : isFinite fr = true) (hzero : scaledValue fr = 0) (v : Fin 4 → Word) :
    ∀ mode ∈ [nearestMode binary32, linearMode binary32, cubicMode binary32], mode fr v = v 1 := by
  have hkey : orderKey fr = 0 := (orderKey_of_isFinite hfr).trans hzero
  have hnan := not_isNaN_of_isFinite hfr
  have hhalf : flt fr 0x3F000000#32 = true := by
    have hpos : 0 < orderKey 0x3F000000#32 := by
      rw [orderKey_of_isFinite (by decide)]
      decide
    rw [flt, hnan, hkey, decide_eq_true hpos]
    decide
  have hbypass : feq fr 0#32 = true := by
    have hkey' : orderKey 0#32 = 0 := orderKey_of_isFinite (by decide)
    rw [feq, hnan, hkey, hkey']
    decide
  simp only [List.forall_mem_cons, List.not_mem_nil, false_imp_iff, implies_true, and_true]
  refine ⟨?_, ?_, ?_⟩
  · rw [nearestMode, nearestSample_binary32, if_pos hhalf]
  · rw [linearMode, linearSample_binary32, if_pos hbypass]
  · rw [cubicMode, cubicSample_binary32, if_pos hbypass]

section

variable {s : State} {ch D : Nat} (hnum : s.params.impl.num = binary32) (hcap : s.dl.cap.toNat ≤ 2 ^ 23)
  (hw : (s.delayChan ch).widx.toNat < s.dl.cap.toNat) (hD : D + 2 ≤ s.dl.cap.toNat)
include hnum hcap hw hD

theorem State.delayPosition_u2f : isFinite (s.delayPosition ch (u2f D)) = true ∧
    signBit (s.delayPosition ch (u2f D)) = false ∧ magnitude (s.delayPosition ch (u2f D)) =
      ((s.delayChan ch).widx.toNat + s.dl.cap.toNat - D) % s.dl.cap.toNat * 2 ^ 149 := by
  obtain ⟨hp, hsign, hmag⟩ := shiftedPosition_u2f hcap hw hD
  rw [State.delayPosition, hnum, readPosition_binary32, ← Nat.mul_mod_mul_right, ← hmag]
  exact fmod_u2f hcap (Nat.zero_lt_of_lt hw) hp hsign

theorem State.index_u2f : ffloorU (s.delayPosition ch (u2f D)) =
    ((s.delayChan ch).widx.toNat + s.dl.cap.toNat - D) % s.dl.cap.toNat := by
  obtain ⟨hr, hsign, hmag⟩ := State.delayPosition_u2f hnum hcap hw hD
  rw [ffloorU_eq hr hsign, hmag, Nat.mul_div_cancel _ (Nat.two_pow_pos _)]

/-- An integer delay is zero exactly when it is a zero-delay read (R200). -/
theorem State.zeroDelayRead_u2f_iff : s.zeroDelayRead ch (u2f D) = true ↔ D = 0 := by
  rw [State.zeroDelayRead_iff, hnum, binary32_ffloorU, State.index_u2f hnum hcap hw hD]
  exact back_eq_cursor_iff hw (by omega)

/-- The value of a read with an integer delay is the stored word in every mode (R200). -/
theorem State.delayValue_u2f : ∀ mode ∈ [nearestMode binary32, linearMode binary32, cubicMode binary32],
    s.delayValue mode ch (u2f D) =
      s.memRead .dlmem ch (((s.delayChan ch).widx.toNat + s.dl.cap.toNat - D) % s.dl.cap.toNat) := by
  intro mode hmode
  obtain ⟨hr, hsign, hmag⟩ := State.delayPosition_u2f hnum hcap hw hD
  have hindex := State.index_u2f hnum hcap hw hD
  have hlt := Nat.mod_lt ((s.delayChan ch).widx.toNat + s.dl.cap.toNat - D) (Nat.zero_lt_of_lt hw)
  obtain ⟨hfinite, hfraction⟩ := fraction_exact hr hsign (by omega)
  rw [hmag, Nat.mul_mod_left] at hfraction
  rw [State.delayValue, hnum, fractionOf_binary32, mode_of_zero_fraction hfinite hfraction _ mode hmode, indexOf,
    binary32_ffloorU, hindex]
  rfl

end

/-- In a prepared block the buffer is no longer than `2^23` words and the cursor lies in it (10_state.md R39, R44). -/
theorem State.Inv.cursor_bounds {s : State} {ch : Nat} (h : s.Inv) (hr : s.Ready) (hch : ch < s.params.nch) :
    s.dl.cap.toNat ≤ 2 ^ 23 ∧ (s.delayChan ch).widx.toNat < s.dl.cap.toNat := by
  obtain ⟨⟨-, -, -, ⟨-, hmax⟩, -⟩, -⟩ := h.legal
  obtain ⟨-, hcap, -⟩ := h.dl
  obtain ⟨-, hcursor⟩ := h.delayChan_ok hch
  exact ⟨(hcap hr.1).2.trans hmax, hcursor hr.1⟩

/-! A run of writes. -/

/-- A channel after `DL.WRITE` of each sample of a list (R191). -/
def DelayChannel.pushAll (cap : Nat) (c : DelayChannel) (xs : List Word) : DelayChannel :=
  xs.foldl (fun c x => c.push cap x) c

theorem DelayChannel.pushAll_append_singleton (cap : Nat) (c : DelayChannel) (xs : List Word) (x : Word) :
    c.pushAll cap (xs ++ [x]) = (c.pushAll cap xs).push cap x := List.foldl_concat ..

section

variable {p : Params} {cap : Word} {c : DelayChannel}

theorem DelayChannel.ok_pushAll (hcap : cap.toNat ≤ p.dlcapMax) (h : c.Ok p true cap.toNat) (xs : List Word) :
    (c.pushAll cap.toNat xs).Ok p true cap.toNat := by
  induction xs generalizing c with
  | nil => exact h
  | cons x xs ih => exact ih (DelayChannel.ok_push h hcap x)

/-- After a write the words at the other distances from the cursor are one write older (R190). -/
theorem DelayChannel.read_push (h : c.Ok p true cap.toNat) (x : Word) {k : Nat} (hk : 1 ≤ k) (hkcap : k ≤ cap.toNat) :
    (c.push cap.toNat x).mem.read (((c.push cap.toNat x).widx.toNat + cap.toNat - k) % cap.toNat) =
      if k = 1 then x else c.mem.read ((c.widx.toNat + cap.toNat - (k - 1)) % cap.toNat) := by
  obtain ⟨⟨hwf, -⟩, hcursor⟩ := h
  have hw : c.widx.toNat < cap.toNat := hcursor rfl
  have hpos : 0 < cap.toNat := by omega
  have haddr : ((c.widx.toNat + 1) % cap.toNat + cap.toNat - k) % cap.toNat =
      (c.widx.toNat + cap.toNat - (k - 1)) % cap.toNat := by
    rw [Nat.add_sub_assoc hkcap, Nat.mod_add_mod]
    congr 1
    omega
  have hother : (c.widx.toNat + cap.toNat - (k - 1)) % cap.toNat = c.widx.toNat ↔ k = 1 :=
    (back_eq_cursor_iff hw (by omega)).trans (by omega)
  have hcur : (c.push cap.toNat x).widx.toNat = (c.widx.toNat + 1) % cap.toNat := widx_toNat_bump _ hpos
  have hmem : (c.push cap.toNat x).mem = c.mem.write c.widx.toNat x := rfl
  rw [hcur, haddr, hmem, Mem.read_write _ hwf]
  simp only [hother]

/-- The `k`-th last of a run of writes stands `k` words behind the cursor (R190). -/
theorem DelayChannel.read_pushAll (hcap : cap.toNat ≤ p.dlcapMax) (h : c.Ok p true cap.toNat) {xs : List Word} {k : Nat}
    (hk : 1 ≤ k) (hkcap : k ≤ cap.toNat) (hlen : k ≤ xs.length) : (c.pushAll cap.toNat xs).mem.read
      (((c.pushAll cap.toNat xs).widx.toNat + cap.toNat - k) % cap.toNat) = xs.getD (xs.length - k) 0#32 := by
  induction xs using List.reverseRecOn generalizing k with
  | nil =>
    rw [List.length_nil] at hlen
    omega
  | append_singleton xs x ih =>
    rw [List.length_append, List.length_singleton] at hlen ⊢
    rw [DelayChannel.pushAll_append_singleton, DelayChannel.read_push (DelayChannel.ok_pushAll hcap h xs) x hk hkcap]
    split
    next hlast => rw [hlast, Nat.add_sub_cancel, List.getD_append_right _ _ _ _ le_rfl, Nat.sub_self, List.getD_cons_zero]
    next holder =>
      rw [ih (by omega) (by omega) (by omega), List.getD_append _ _ _ _ (by omega)]
      congr 1
      omega

end

/-- A run of `DL.WRITE` on one channel writes each sample to that channel and stays ready inside the scope (R191). -/
theorem execAll_dlWrite {s : State} {ch : Nat} (xs : List Word) (hinv : s.Inv) (hr : s.Ready) (ho : s.OwnsScope)
    (hch : ch < s.params.nch) : ∃ t, execAll (xs.map (Instr.dlWrite ch)) s = .next t ∧ (t.Inv ∧ t.Ready ∧ t.OwnsScope) ∧
      t.params = s.params ∧ t.dl.cap = s.dl.cap ∧ t.delayChan ch = (s.delayChan ch).pushAll s.dl.cap.toNat xs := by
  induction xs generalizing s with
  | nil => exact ⟨s, rfl, ⟨hinv, hr, ho⟩, rfl, rfl, rfl⟩
  | cons x xs ih =>
    have hwrite := exec_dlWrite hr ho hch x
    have hchan := State.delayChan_set s ch ch ((s.delayChan ch).push s.dl.cap.toNat x) (hinv.lt_delayChans_length hch)
    rw [if_pos rfl] at hchan
    have hstill : (answered (s.setDelayChan ch ((s.delayChan ch).push s.dl.cap.toNat x)) 0#32 0#32).OwnsScope :=
      ho.trans (congrArg some (Ports.send_cur s.ports _).symm)
    obtain ⟨t, hrun, hkeeps, hparams, hcap, hend⟩ := ih (hinv.of_exec hwrite) hr hstill hch
    refine ⟨t, ?_, hkeeps, hparams, hcap, hend.trans ?_⟩
    · rw [List.map_cons, execAll, hwrite]
      exact hrun
    · exact congrArg (fun c => c.pushAll s.dl.cap.toNat xs) hchan

end Sys2Proof.Machine

namespace Sys2Proof.Proofs

open Sys2Proof.Machine Sys2Proof.Statements

/-- Settles O31: `p2` lies between `w + 2` and `w + DLCAP` because the roundings pass no integer; the remainder and the split
are exact. -/
theorem readPositionInBuffer : Obligations.ReadPositionInBuffer := by
  intro cap w d htwo hcap hw hnan hlow hhigh p2 r
  obtain ⟨hd, hzero, hmax⟩ := bounds_of_legalDelay hcap hnan hlow hhigh
  obtain ⟨hp, hsign, hplow, hphigh⟩ := shiftedPosition_of_legalDelay hcap htwo hw hd hzero hmax
  obtain ⟨hpmin, hpmax, hrmin, hrmax, hindex, hexact, hfmin, hfmax⟩ :=
    position_bounds hcap hw hp hsign hplow hphigh rfl
  exact ⟨hpmin, hpmax, hrmin, hrmax, hindex, hexact, hfmin, hfmax,
    index_eq_cursor_iff hcap hw hp hsign hplow hphigh⟩

/-- Settles O32: the position of an integer delay is exact, so every mode takes the word at the index. -/
theorem integerDelayIsBitExact : Obligations.IntegerDelayIsBitExact := by
  intro s ch D hnum hinv hready howner hch hD i hi
  obtain ⟨hcap, hw⟩ := hinv.cursor_bounds hready hch
  have hzero := State.zeroDelayRead_u2f_iff hnum hcap hw hD
  have hlegal := hnum.symm ▸ legalDelay_u2f hcap hD
  obtain ⟨mode, hmode, hread⟩ := exec_delayReads hready howner hch i hi
  rw [hread]
  rw [hnum] at hmode
  refine ⟨fun hpos => ?_, fun hD => ?_⟩
  · rw [delayRead_of_not_zeroDelay hlegal i mode (mt hzero.1 (Nat.pos_iff_ne_zero.1 hpos)),
      State.delayValue_u2f hnum hcap hw hD mode hmode]
  · exact delayRead_of_zeroDelay hlegal i mode (hzero.2 hD)

/-- Settles O33: the run leaves the `k`-th last sample `k` words behind the cursor, where the integer delay `k` reads. -/
theorem delayReturnsPastSample : Obligations.DelayReturnsPastSample := by
  intro s ch xs k hnum hinv hready howner hch hk hkcap hlen
  obtain ⟨-, hcap, -⟩ := hinv.dl
  have hok := hinv.delayChan_ok hch
  rw [hready.1] at hok
  obtain ⟨t, hrun, ⟨htinv, htready, htowner⟩, hparams, hsame, hchan⟩ := execAll_dlWrite xs hinv hready howner hch
  refine ⟨t, hrun, fun i hi => ?_⟩
  obtain ⟨hread, -⟩ := integerDelayIsBitExact t ch k (hparams.symm ▸ hnum) htinv htready htowner (hparams.symm ▸ hch)
    (hsame.symm ▸ hkcap) i hi
  rw [hread hk, State.memRead_dlmem, hsame, hchan,
    DelayChannel.read_pushAll (hcap hready.1).2 hok hk (by omega) hlen]

end Sys2Proof.Proofs
end

section
/-! PROOFS. Unit BQ, command by command (43_biquad.md R224, R225), and its recurrence in exact arithmetic (R220, R227). -/

namespace Sys2Proof.Machine

open Sys2Proof.Statements

variable {s : State} {f : Nat}

/-! The commands on a ready block. -/

/-- A command that only awaits the other port's scope runs on a ready block while that port owns none (40_sys.md R144). -/
theorem examine_of_awaitScope {i : Instr} {p : Port} (hr : s.Ready) (hi : indexOk s.params i = true)
    (hc : cmdClass i ≠ .reset) (hscope : scopeCheck i s.sys.lock p = awaitScope s.sys.lock p)
    (hl : s.sys.lock ≠ some p.other) : examine i p s = .go := by
  rw [examine_of_ready hr hi hc, hscope, awaitScope, if_neg hl]

theorem exec_bqStep {ch : Nat} (hr : s.Ready) (ho : s.OwnsScope) (hf : f < s.params.nbq) (hch : ch < s.params.nch)
    (x : Word) : exec (.bqStep f ch x) s = .next (answered
      (s.setFilter f { s.filter f with
        chans := (s.filter f).chans.set ch
          (biquadNext s.params.impl.num (s.filter f).coeffs ((s.filter f).chan ch) x) })
      0#32 (biquadOut s.params.impl.num (s.filter f).coeffs ((s.filter f).chan ch) x)) := by
  have hindex : indexOk s.params (.bqStep f ch x) = true := by simp [indexOk, hf, hch]
  dsimp only [exec, execBqStep]
  rw [runCommand_go _ (examine_processing hr hindex rfl ho), answer_eq_answered]

theorem exec_bqClear (hr : s.Ready) (hl : s.NotLockedOut) (hf : f < s.params.nbq) :
    exec (.bqClear f) s = .next (answered (s.setFilter f (s.filter f).clear) 0#32 0#32) := by
  have hgo := examine_of_awaitScope (i := .bqClear f) hr (decide_eq_true hf) nofun rfl hl
  dsimp only [exec, execBqClear]
  rw [runCommand_go _ hgo, answer_eq_answered]

/-! The recurrence in exact arithmetic. -/

section

variable {α : Type} [Field α] {N : Num α} (c : Coeffs α) (x : Nat → α)

/-- The two state words are the part of the next output that the last two inputs and outputs decide (R227). -/
def History.Combines (c : Coeffs α) (h : History α) : Prop :=
  h.s1 = c.b1 * h.x1 + c.b2 * h.x2 - c.a1 * h.y1 - c.a2 * h.y2 ∧ h.s2 = c.b2 * h.x1 - c.a2 * h.y1

/-- A cleared history has no past to combine (R225). -/
theorem History.combines_cleared : History.Combines c ⟨0, 0, 0, 0, 0, 0⟩ := by simp [History.Combines]

/-- The history after input `n` remembers that input and its output, and those before them as the older pair. -/
theorem historyAt_succ_past (N : Num α) (n : Nat) :
    (historyAt N c x (n + 1)).x1 = x n ∧ (historyAt N c x (n + 1)).x2 = (historyAt N c x n).x1 ∧
      (historyAt N c x (n + 1)).y1 = outputAt N c x n ∧ (historyAt N c x (n + 1)).y2 = (historyAt N c x n).y1 :=
  ⟨rfl, rfl, rfl, rfl⟩

variable (hN : Exact N)
include hN

theorem biquadOut_exact (h : History α) (v : α) : biquadOut N c h v = c.b0 * v + h.s1 := by
  rw [biquadOut, hN.fadd, hN.fmul]

/-- A step keeps the combination: the new `S1` takes the old `S2` over as the part of the older input and output. -/
theorem History.Combines.next {c : Coeffs α} {h : History α} (hpast : h.Combines c) (v : α) :
    (biquadNext N c h v).Combines c := by
  obtain ⟨-, hs2⟩ := hpast
  simp only [biquadNext, History.Combines, hN.fadd, hN.fsub, hN.fmul, hs2, and_true]
  ring

theorem historyAt_combines (n : Nat) : (historyAt N c x n).Combines c := by
  induction n with
  | zero => exact History.combines_cleared c
  | succ n ih => exact ih.next hN (x n)

/-- An output is the direct term and the combination of the past (R220). -/
theorem outputAt_exact (n : Nat) : outputAt N c x n = c.b0 * x n +
    (c.b1 * (historyAt N c x n).x1 + c.b2 * (historyAt N c x n).x2 - c.a1 * (historyAt N c x n).y1 -
      c.a2 * (historyAt N c x n).y2) := by
  obtain ⟨hs1, -⟩ := historyAt_combines c x hN n
  rw [outputAt, biquadOut_exact c hN, hs1]

end

end Sys2Proof.Machine

namespace Sys2Proof.Proofs

open Sys2Proof.Machine Sys2Proof.Statements

/-- Settles O37: the step passes the common checks, and the model's recurrence is that of the rule. -/
theorem bqStepRunsRecurrence : Obligations.BqStepRunsRecurrence := by
  intro s f ch x hready howner hf hch N c h y h'
  exact exec_bqStep hready howner hf hch x

/-- Settles O38: by the invariant the filter has a history for each channel of the device, and each becomes zero. -/
theorem bqClearZeroesState : Obligations.BqClearZeroesState := by
  intro s f hinv hready hlock hf
  obtain ⟨-, hchans⟩ := hinv.filter_ok hf
  rw [exec_bqClear hready hlock hf, Filter.clear_eq _ hchans]
  rfl

/-- Settles O39: the state words combine the last two inputs and outputs at every input, so every output is the direct term and
that combination. -/
theorem biquadRealisesSection : Obligations.BiquadRealisesSection := by
  intro N hN c x
  refine ⟨fun n => ?_, ?_, ?_, historyAt_combines c x hN⟩
  · obtain ⟨hx1, hx2, hy1, hy2⟩ := historyAt_succ_past c x N (n + 1)
    obtain ⟨hx1', -, hy1', -⟩ := historyAt_succ_past c x N n
    rw [outputAt_exact c x hN (n + 2), hx1, hx2, hy1, hy2, hx1', hy1']
    ring
  · rw [outputAt_exact c x hN 0]
    simp [historyAt]
  · obtain ⟨hx1, hx2, hy1, hy2⟩ := historyAt_succ_past c x N 0
    rw [outputAt_exact c x hN 1, hx1, hx2, hy1, hy2]
    simp only [historyAt]
    ring

end Sys2Proof.Proofs
end

section
/-! PROOFS. Division by one in the default numerics (43_biquad.md R223, 45_numerics_fft_window.md R282): rounding gives back the
word whose magnitude the quotient is, in every binade. -/

namespace Sys2Proof.Machine

variable {w : Word}

/-- The magnitude of a word as a significand of at most 24 bits in the unit of its binade; with the exponent of that unit it is
encoded as in the word (R281). -/
theorem magnitude_significand (w : Word) : ∃ m, magnitude w = m * 2 ^ (expField w - 1) ∧ m < 2 ^ 24 ∧
    (expField w - 1 = 0 ∨ 2 ^ 23 ≤ m) ∧ (expField w - 1) * 2 ^ 23 + m = expField w * 2 ^ 23 + fracField w := by
  have hfrac := fracField_lt w
  unfold magnitude
  split
  next hzero => exact ⟨fracField w, by rw [hzero, pow_zero, mul_one], by omega, by omega, by omega⟩
  next => exact ⟨2 ^ 23 + fracField w, rfl, by omega, by omega, by omega⟩

/-- A number of 24 significant bits, in a unit other than the smallest only when it needs them all, is spaced by that unit. -/
theorem spacing_mul_two_pow {m k : Nat} (hm : m < 2 ^ 24) (hlow : k = 0 ∨ 2 ^ 23 ≤ m) : spacing (m * 2 ^ k) = k := by
  refine le_antisymm (spacing_le (Nat.mul_lt_mul_of_pos_right hm (Nat.two_pow_pos k))) ?_
  obtain rfl | hfull := hlow
  · exact Nat.zero_le _
  · obtain ⟨hhigh, -⟩ := spacing_spec (m * 2 ^ k)
    exact exponent_le ((Nat.mul_le_mul_right _ hfull).trans_lt hhigh)

/-- A quotient that is an integer is kept. -/
theorem roundQuotient_mul_self (q : Nat) {d : Nat} (hd : 0 < d) : roundQuotient (q * d) d = q :=
  le_antisymm (roundQuotient_le hd le_rfl) (le_roundQuotient hd le_rfl)

/-- Rounding to a word, by the spacing of the integer part (R282). -/
theorem roundWord_eq (s : Bool) (n d : Nat) : roundWord s n d =
    if 0x7F800000 ≤ spacing (n / d) * 2 ^ 23 + roundQuotient n (d * 2 ^ spacing (n / d)) then infinity s
    else signWord s ||| BitVec.ofNat 32 (spacing (n / d) * 2 ^ 23 + roundQuotient n (d * 2 ^ spacing (n / d))) := by
  rw [roundWord]
  rfl

/-- A quotient that is the magnitude of a finite word rounds to that word, also in the last binade (R282). -/
theorem roundWord_magnitude (h : isFinite w = true) {d : Nat} (hd : 0 < d) :
    roundWord (signBit w) (magnitude w * d) d = w := by
  obtain ⟨m, hmag, hm, hlow, hbits⟩ := magnitude_significand w
  have hexp : expField w < 255 := lt_of_le_of_ne (by rw [expField_eq]; omega) ((isFinite_iff w).1 h)
  have hfrac := fracField_lt w
  have hfinite : expField w * 2 ^ 23 + fracField w < 0x7F800000 := by omega
  have hspacing : spacing (magnitude w) = expField w - 1 := hmag ▸ spacing_mul_two_pow hm hlow
  have hround : roundQuotient (magnitude w * d) (d * 2 ^ spacing (magnitude w)) = m := by
    rw [hspacing, hmag, mul_assoc, mul_comm _ d]
    exact roundQuotient_mul_self m (Nat.mul_pos hd (Nat.two_pow_pos _))
  have hword : roundWord (signBit w) (magnitude w * d) d =
      signWord (signBit w) ||| BitVec.ofNat 32 (expField w * 2 ^ 23 + fracField w) := by
    rw [roundWord_eq, Nat.mul_div_cancel _ hd, hround, hspacing, hbits, if_neg (Nat.not_le.2 hfinite)]
  refine BitVec.eq_of_toNat_eq ?_
  rw [hword, toNat_signWord_or _ (by omega), ← toNat_eq_fields]

/-- An infinity is the infinity of its sign (R281). -/
theorem infinity_signBit (h : isInf w = true) : infinity (signBit w) = w := by
  simp only [isInf, Bool.and_eq_true, beq_iff_eq] at h
  obtain ⟨hexp, hfrac⟩ := h
  have hbits : expField w * 2 ^ 23 + fracField w = 0x7F800000 := by omega
  refine BitVec.eq_of_toNat_eq ?_
  rw [infinity, toNat_signWord_or _ (by decide), toNat_eq_fields w, hbits]

/-- The fields of 1.0 (R281). -/
theorem one_fields : isFinite 0x3F800000#32 = true ∧ signBit 0x3F800000#32 = false ∧ magnitude 0x3F800000#32 = 2 ^ 149 := by
  decide

end Sys2Proof.Machine

namespace Sys2Proof.Proofs

open Sys2Proof.Machine

/-- Settles O36: an infinity keeps its sign, and the magnitude of a finite word, divided by that of 1.0, is rounded to that
word. -/
theorem divisionByOneIsIdentity : Obligations.DivisionByOneIsIdentity := by
  intro v hnan
  obtain ⟨hfinite, hsign, hmag⟩ := one_fields
  have hpos : (2 : Nat) ^ 149 ≠ 0 := (Nat.two_pow_pos 149).ne'
  simp only [fdiv, hnan, not_isNaN_of_isFinite hfinite, not_isInf_of_isFinite hfinite, hsign, hmag, hpos, Bool.bne_false,
    Bool.or_false, Bool.false_eq_true, if_false]
  split
  next hinf => exact infinity_signBit hinf
  next hinf =>
    exact roundWord_magnitude (isFinite_of_isNaN_of_isInf hnan (Bool.eq_false_iff.2 hinf)) (Nat.two_pow_pos 149)

end Sys2Proof.Proofs
end

section
/-! PROOFS. Unit ST, command by command (44_stft.md R243 to R253): configuration, the push between frames, and the push that runs
a frame. -/

namespace Sys2Proof.Machine

open Sys2Proof.Statements

variable {s : State} {ch : Nat}

theorem State.Inv.lt_stftChans_length (h : s.Inv) (hch : ch < s.params.nch) : ch < s.st.chans.length := by
  obtain ⟨-, -, -, hlen, -⟩ := h.st
  exact hlen.symm ▸ hch

/-- The rings of a channel are canonical, and in a prepared block its cursors lie in them and its counter below the hop size
(10_state.md R51, R52). -/
theorem State.Inv.stftChan_bounds (h : s.Inv) (hr : s.Ready) (hch : ch < s.params.nch) :
    (s.stftChan ch).inr.wf = true ∧ (s.stftChan ch).outr.wf = true ∧ (s.stftChan ch).ord.toNat < s.st.n.toNat ∧
      (s.stftChan ch).cnt.toNat < s.st.hop.toNat := by
  obtain ⟨⟨hin, -⟩, ⟨hout, -⟩, hcursors⟩ := h.stftChan_ok hch
  obtain ⟨-, hord, -, hcnt, -, -⟩ := hcursors hr.1
  exact ⟨hin, hout, hord, hcnt⟩

/-! What the replacement of one channel leaves of the channels and the memories. -/

theorem stftChan_setStftChan_self (hch : ch < s.st.chans.length) (v : StftChannel) :
    (s.setStftChan ch v).stftChan ch = v := (State.stftChan_set s ch ch v hch).trans (if_pos rfl)

theorem stftChan_setStftChan_of_ne (hch : ch < s.st.chans.length) (v : StftChannel) {c : Nat} (hc : c ≠ ch) :
    (s.setStftChan ch v).stftChan c = s.stftChan c := (State.stftChan_set s ch c v hch).trans (if_neg hc)

/-- Where the rings of a new channel read as the old ones, no word of any memory changed. -/
theorem memRead_setStftChan_of_unchanged (hch : ch < s.st.chans.length) {v : StftChannel} {inChanged outChanged : Nat → Prop}
    (hin : ∀ a, ¬ inChanged a → v.inr.read a = (s.stftChan ch).inr.read a)
    (hout : ∀ a, ¬ outChanged a → v.outr.read a = (s.stftChan ch).outr.read a) (space : Space) (c a : Nat)
    (hnotIn : ¬ (space = .inr ∧ c = ch ∧ inChanged a)) (hnotOut : ¬ (space = .outr ∧ c = ch ∧ outChanged a)) :
    (s.setStftChan ch v).memRead space c a = s.memRead space c a := by
  have hchan := State.stftChan_set s ch c v hch
  cases space with
  | inr =>
    rw [State.memRead, spaceMem, hchan]
    split
    next hc => exact (hin a fun ha => hnotIn ⟨rfl, hc, ha⟩).trans (hc ▸ rfl)
    next => rfl
  | outr =>
    rw [State.memRead, spaceMem, hchan]
    split
    next hc => exact (hout a fun ha => hnotOut ⟨rfl, hc, ha⟩).trans (hc ▸ rfl)
    next => rfl
  | _ => rfl

/-- The rings of the channel that was replaced are those of the new one. -/
theorem memRead_setStftChan_self (hch : ch < s.st.chans.length) (v : StftChannel) (a : Nat) :
    (s.setStftChan ch v).memRead .inr ch a = v.inr.read a ∧ (s.setStftChan ch v).memRead .outr ch a = v.outr.read a := by
  have hchan := stftChan_setStftChan_self hch v
  exact ⟨congrArg (fun c => c.inr.read a) hchan, congrArg (fun c => c.outr.read a) hchan⟩

/-! `ST.CONFIG`. -/

/-- `ST.CONFIG` of a legal configuration runs on a ready block while the other port owns no scope (R243). -/
theorem exec_stConfig {l h : Nat} (win : Window) (mod : ModSel) (hr : s.Ready) (hl : s.NotLockedOut)
    (hlegal : legalConfig s.params l h = true) : exec (.stConfig l h win mod) s = .next (answered
      { s with st := ({ s.st with cfg := configWord l h win mod } : StftUnit).reinit s.params.impl } 0#32 0#32) := by
  have hgo := examine_of_awaitScope (i := .stConfig l h win mod) hr rfl nofun rfl hl
  dsimp only [exec, execStConfig]
  rw [runCommand_go _ hgo, if_pos hlegal, answer_eq_answered]

/-! `ST.PUSH`. -/

/-- The channel of the statements after the two ring accesses is that of the model (R247). -/
theorem shifted_eq_shift (s : State) (ch : Nat) (x : Word) : shifted s ch x = (s.stftChan ch).shift s.st.n.toNat x := by
  have hcnt : (s.stftChan ch).cnt + 1#32 = BitVec.ofNat 32 ((s.stftChan ch).cnt.toNat + 1) := by
    rw [BitVec.ofNat_add, BitVec.ofNat_toNat, BitVec.setWidth_eq]
  rw [shifted, hcnt]
  rfl

/-- The counter of a push, where it was below the hop size, advances by one (R247). -/
theorem cnt_shifted (x : Word) (hcnt : (s.stftChan ch).cnt.toNat < s.st.hop.toNat) :
    (shifted s ch x).cnt.toNat = (s.stftChan ch).cnt.toNat + 1 := by
  show ((s.stftChan ch).cnt + 1#32).toNat = _
  bv_omega

/-- The hop test of such a push (R247). -/
theorem hopReached_shifted (x : Word) (hcnt : (s.stftChan ch).cnt.toNat < s.st.hop.toNat) :
    hopReached (shifted s ch x).cnt.toNat s.st.hop.toNat = true ↔ s.st.hop.toNat ≤ (s.stftChan ch).cnt.toNat + 1 := by
  rw [hopReached, decide_eq_true_eq, cnt_shifted x hcnt]

section

variable (hr : s.Ready) (ho : s.OwnsScope) (hch : ch < s.params.nch) (x : Word)
include hr ho hch

/-- `ST.PUSH` passes the common checks inside the own scope. -/
theorem exec_stPush : exec (.stPush ch x) s = pushSample s.params.impl ch x s := by
  dsimp only [exec, execStPush]
  exact runCommand_go _ (examine_processing hr (decide_eq_true hch) rfl ho)

/-- A push that completes no hop moves one sample through the rings (R246, R247). -/
theorem exec_stPush_of_lt (hinv : s.Inv) (hhop : (s.stftChan ch).cnt.toNat + 1 < s.st.hop.toNat) :
    exec (.stPush ch x) s = .next (answered (s.setStftChan ch (shifted s ch x)) 0#32 (s.stftChan ch).output) := by
  obtain ⟨-, -, -, hcnt⟩ := hinv.stftChan_bounds hr hch
  have hnot : ¬ hopReached (shifted s ch x).cnt.toNat s.st.hop.toNat = true :=
    mt (hopReached_shifted x hcnt).1 (Nat.not_le.2 hhop)
  rw [exec_stPush hr ho hch, pushSample, ← shifted_eq_shift, if_neg hnot, answer_eq_answered]

section

variable (hinv : s.Inv) (hhop : s.st.hop.toNat ≤ (s.stftChan ch).cnt.toNat + 1)
include hinv hhop

/-- A push that completes a hop adds the frame buffer into the output ring (R247, R249, R250). -/
theorem exec_stPush_of_frameBuffer {fb : List (Cpx Word)}
    (hfb : (shifted s ch x).frameBuffer s.params.impl s.st s.free.mods ch = some fb) : exec (.stPush ch x) s =
      .next (answered (s.countExchange.setStftChan ch ((shifted s ch x).resynthesise s.params.impl.num s.st fb))
        0x200#32 (s.stftChan ch).output) := by
  obtain ⟨-, -, -, hcnt⟩ := hinv.stftChan_bounds hr hch
  rw [exec_stPush hr ho hch, pushSample, ← shifted_eq_shift, if_pos ((hopReached_shifted x hcnt).2 hhop), hfb]
  rfl

/-- A push that completes a hop hangs where the agent leaves it without a frame buffer (R252). -/
theorem exec_stPush_of_no_frameBuffer (hfb : (shifted s ch x).frameBuffer s.params.impl s.st s.free.mods ch = none) :
    exec (.stPush ch x) s = .fault .modNeverAnswers := by
  obtain ⟨-, -, -, hcnt⟩ := hinv.stftChan_bounds hr hch
  rw [exec_stPush hr ho hch, pushSample, ← shifted_eq_shift, if_pos ((hopReached_shifted x hcnt).2 hhop), hfb]

end

end

/-- The channel that overlap-add leaves, in the words of the statements (R247, R249, R250). -/
theorem frameRan_setStftChan (hinv : s.Inv) (hr : s.Ready) (hch : ch < s.params.nch) (x : Word) (fb : List (Cpx Word))
    (ports : Ports) (free : FreeCounts) : FrameRan s
      { s.setStftChan ch ((shifted s ch x).resynthesise s.params.impl.num s.st
          (s.params.impl.fft.inverse (fftLog2Field s.st.cfg) fb)) with ports := ports, free := free } ch x fb := by
  obtain ⟨hin, hout, hord, -⟩ := hinv.stftChan_bounds hr hch
  have hlen := hinv.lt_stftChans_length hch
  obtain ⟨hadded, habove⟩ := read_overlapAdd s.params.impl.num s.st.n.toNat (s.stftChan ch).owr.toNat s.st.scale
    (s.params.impl.fft.inverse (fftLog2Field s.st.cfg) fb) (shifted s ch x).outr (Mem.wf_write _ hout _ _)
    (Nat.zero_lt_of_lt hord)
  refine ⟨⟨_, rfl⟩, ?_, fun j hj => ?_, ?_, rfl⟩
  · refine (memRead_setStftChan_self hlen _ _).1.trans ?_
    exact (Mem.read_write _ hin _ x _).trans (if_pos rfl)
  · exact (memRead_setStftChan_self hlen _ _).2.trans (hadded j hj)
  · refine memRead_setStftChan_of_unchanged hlen (fun a ha => ?_) (fun a ha => ?_)
    · exact (Mem.read_write _ hin _ x a).trans (if_neg ha)
    · have hne : a ≠ (s.stftChan ch).ord.toNat := fun h => ha (h ▸ hord)
      refine (habove a (Nat.not_lt.1 ha)).trans ?_
      exact (Mem.read_write _ hout _ _ a).trans (if_neg hne)

end Sys2Proof.Machine

namespace Sys2Proof.Proofs

open Sys2Proof.Machine Sys2Proof.Statements

/-- Settles O40: a legal configuration passes every check, and the word that is stored gives back its four fields. -/
theorem stConfigReinitialises : Obligations.StConfigReinitialises := by
  intro s l h win mod hinv hready hlock hmin hmax hone hthree hle
  obtain ⟨-, -, -, -, -, hsize⟩ := hinv.legal.1
  have hl : l < 16 := by omega
  have hh : h < 4 := by omega
  have hlegal := (legalConfig_iff s.params l h).2 ⟨hmin, hmax, hone, hthree, hle⟩
  obtain ⟨-, hfft, hhop⟩ := configWord_fields hl hh win mod
  exact ⟨_, exec_stConfig win mod hready hlock hlegal, reinitialised_of_reinit rfl, hfft, hhop,
    winField_configWord hl hh win mod, modField_configWord hl hh win mod, rfl⟩

/-- Settles O41: the push answers at once, and the two words it wrote are the only ones that changed. -/
theorem pushBetweenFrames : Obligations.PushBetweenFrames := by
  intro s ch x hinv hready howner hch hhop
  obtain ⟨hin, hout, -, -⟩ := hinv.stftChan_bounds hready hch
  have hlen := hinv.lt_stftChans_length hch
  refine ⟨_, exec_stPush_of_lt hready howner hch x hinv hhop, rfl, ?_, ?_, ?_⟩
  · refine (memRead_setStftChan_self hlen _ _).1.trans ?_
    exact (Mem.read_write _ hin _ x _).trans (if_pos rfl)
  · refine (memRead_setStftChan_self hlen _ _).2.trans ?_
    exact (Mem.read_write _ hout _ _ _).trans (if_pos rfl)
  · exact memRead_setStftChan_of_unchanged hlen (fun a ha => (Mem.read_write _ hin _ x a).trans (if_neg ha))
      (fun a ha => (Mem.read_write _ hout _ _ a).trans (if_neg ha))

/-- Settles O42: with the identity modification there is always a frame buffer, and no exchange is counted. -/
theorem pushRunsIdentityFrame : Obligations.PushRunsIdentityFrame := by
  intro s ch x hinv hready howner hch hhop hmod
  have hfb := StftChannel.frameBuffer_of_identity s.params.impl s.st (shifted s ch x) s.free.mods ch hmod
  have hpush := exec_stPush_of_frameBuffer hready howner hch x hinv hhop hfb
  rw [State.countExchange_of_identity s hmod] at hpush
  exact ⟨_, hpush, frameRan_setStftChan hinv hready hch x _ _ s.free, rfl, rfl⟩

/-- Settles O43: there is a frame buffer exactly where the agent answers, and it comes from the bins of the answer. -/
theorem pushRunsAgentFrame : Obligations.PushRunsAgentFrame := by
  intro s ch x hinv hready howner hch hhop hmod spectrum
  have hfb := StftChannel.frameBuffer_of_external s.params.impl s.st (shifted s ch x) s.free.mods ch hmod
  refine ⟨fun hanswers => ?_, fun hnever => ?_⟩
  · have hpush := exec_stPush_of_frameBuffer hready howner hch x hinv hhop (hfb.trans (if_pos hanswers))
    rw [State.countExchange_of_external s hmod] at hpush
    exact ⟨_, hpush, frameRan_setStftChan hinv hready hch x _ _ _, rfl⟩
  · exact exec_stPush_of_no_frameBuffer hready howner hch x hinv hhop (hfb.trans (if_neg (Bool.eq_false_iff.1 hnever)))

end Sys2Proof.Proofs
end

section
/-! PROOFS. The first hop after a configuration (44_stft.md R247 (c), R255): while no frame runs, a cleared output ring stays
cleared. -/

namespace Sys2Proof.Machine

open Sys2Proof.Statements

variable {s t : State} {ch : Nat}

/-- The output ring of a channel holds zeros only (R245). -/
def State.Silent (ch : Nat) (s : State) : Prop := ∀ a < s.st.n.toNat, (s.stftChan ch).outr.read a = 0#32

theorem State.Silent.output (h : s.Silent ch) (hinv : s.Inv) (hr : s.Ready) (hch : ch < s.params.nch) :
    (s.stftChan ch).output = 0#32 := by
  obtain ⟨-, -, hord, -⟩ := hinv.stftChan_bounds hr hch
  exact h _ hord

/-- Whatever a push does besides, it answers the word its output ring delivered (R247). -/
theorem pushSample_answers_output {I : Impl Word} {x : Word} (h : pushSample I ch x s = .next t) :
    ∃ status, t.ports = s.ports.send ⟨status, (s.stftChan ch).output⟩ := by
  unfold pushSample at h
  dsimp only at h
  split at h
  · split at h
    · cases h
      exact ⟨_, congrArg (Ports.send · _) s.countExchange_ports⟩
    · cases h
  · cases h
    exact ⟨_, rfl⟩

/-- The word a push answers, by the responses of its port (R247). -/
theorem sent_of_exec_stPush {x : Word} (hr : s.Ready) (ho : s.OwnsScope) (hch : ch < s.params.nch)
    (h : exec (.stPush ch x) s = .next t) : ∃ status, (t.ports.port s.ports.cur).sent =
      (s.ports.port s.ports.cur).sent ++ [⟨status, (s.stftChan ch).output⟩] := by
  rw [exec_stPush hr ho hch] at h
  obtain ⟨status, hports⟩ := pushSample_answers_output h
  exact ⟨status, by rw [hports, Ports.send_port, if_pos rfl]⟩

/-- A push that completes no hop clears a word of the output ring and advances the counter, so silence lasts (R246, R247). -/
theorem State.Silent.push (h : s.Silent ch) (hinv : s.Inv) (hr : s.Ready) (hch : ch < s.params.nch) (x : Word)
    (hhop : (s.stftChan ch).cnt.toNat + 1 < s.st.hop.toNat) :
    (s.setStftChan ch (shifted s ch x)).Silent ch ∧
      ((s.setStftChan ch (shifted s ch x)).stftChan ch).cnt.toNat = (s.stftChan ch).cnt.toNat + 1 := by
  obtain ⟨-, hout, -, -⟩ := hinv.stftChan_bounds hr hch
  have hchan := stftChan_setStftChan_self (hinv.lt_stftChans_length hch) (shifted s ch x)
  refine ⟨fun a ha => ?_, ?_⟩
  · have hread : (shifted s ch x).outr.read a = _ := Mem.read_write _ hout _ _ a
    rw [hchan, hread, h a ha, ite_self]
  · rw [hchan]
    exact cnt_shifted x (Nat.lt_of_succ_lt hhop)

/-- After `st_reinit` a channel is silent and its counter stands at zero (R243, R245). -/
theorem silent_of_reinitialised {I : Impl Word} {cfg : Word} (h : Reinitialised I cfg s t) (hch : ch < s.st.chans.length) :
    t.Silent ch ∧ (t.stftChan ch).cnt = 0#32 := by
  obtain ⟨-, -, hcnt, -⟩ := h.cursors ch hch
  exact ⟨fun a ha => (h.outr ch a).trans (if_pos (h.n ▸ ha)), hcnt⟩

/-- Pushes that together complete no hop answer zeros from a cleared output ring, and leave it cleared (R247 (c)). -/
theorem execAll_stPush_of_silent (xs : List Word) (hinv : s.Inv) (hr : s.Ready) (ho : s.OwnsScope) (hch : ch < s.params.nch)
    (hsilent : s.Silent ch) (hroom : (s.stftChan ch).cnt.toNat + xs.length < s.st.hop.toNat) :
    ∃ t, execAll (xs.map (Instr.stPush ch)) s = .next t ∧ (t.Inv ∧ t.Ready ∧ t.OwnsScope) ∧ t.params = s.params ∧
      t.Silent ch ∧ t.ports.cur = s.ports.cur ∧
      (t.ports.port s.ports.cur).sent = (s.ports.port s.ports.cur).sent ++ List.replicate xs.length ⟨0#32, 0#32⟩ := by
  induction xs generalizing s with
  | nil => exact ⟨s, rfl, ⟨hinv, hr, ho⟩, rfl, hsilent, rfl, (List.append_nil _).symm⟩
  | cons x xs ih =>
    rw [List.length_cons] at hroom
    have hhop : (s.stftChan ch).cnt.toNat + 1 < s.st.hop.toNat := by omega
    have hpush := exec_stPush_of_lt hr ho hch x hinv hhop
    rw [hsilent.output hinv hr hch] at hpush
    obtain ⟨hsilent', hcnt⟩ := hsilent.push hinv hr hch x hhop
    have hcur := Ports.send_cur s.ports ⟨0#32, 0#32⟩
    have hroom' : ((s.setStftChan ch (shifted s ch x)).stftChan ch).cnt.toNat + xs.length < s.st.hop.toNat := by omega
    obtain ⟨t, hrun, hkeeps, hparams, hend, htcur, hsent⟩ :=
      ih (hinv.of_exec hpush) hr (ho.trans (congrArg some hcur.symm)) hch hsilent' hroom'
    refine ⟨t, ?_, hkeeps, hparams, hend, htcur.trans hcur, ?_⟩
    · rw [List.map_cons, execAll, hpush]
      exact hrun
    · have hports : (answered (s.setStftChan ch (shifted s ch x)) 0#32 0#32).ports = s.ports.send ⟨0#32, 0#32⟩ := rfl
      rw [hports, hcur, Ports.send_port, if_pos rfl] at hsent
      rw [hsent, List.append_assoc, List.length_cons, List.replicate_succ]
      rfl

end Sys2Proof.Machine

namespace Sys2Proof.Proofs

open Sys2Proof.Machine Sys2Proof.Statements

/-- Settles O44: the configuration clears the output ring and the counter, and the pushes before the end of the hop keep the ring
clear; so does the part of the last push that precedes its frame. -/
theorem firstHopIsSilent : Obligations.FirstHopIsSilent := by
  intro s ch l h win mod xs hinv hready howner hch hmin hmax hone hthree hle hlen
  have hlock : s.NotLockedOut := by
    rw [State.NotLockedOut, howner]
    exact fun heq => Port.ne_other _ (Option.some.inj heq)
  obtain ⟨u, hconfig, hre, hfft, hhop, -, -, hu⟩ :=
    stConfigReinitialises s l h win mod hinv hready hlock hmin hmax hone hthree hle
  have hsys : u.sys = s.sys := (congrArg State.sys hu :)
  have hparams : u.params = s.params := (congrArg State.params hu :)
  have hports : u.ports = s.ports.send ⟨0#32, 0#32⟩ := congrArg State.ports hu
  have hcur : u.ports.cur = s.ports.cur := hports ▸ Ports.send_cur _ _
  have huready : u.Ready := by rw [State.Ready, hsys]; exact hready
  have huowner : u.OwnsScope := by rw [State.OwnsScope, hsys, hcur]; exact howner
  obtain ⟨hsilent, hcnt⟩ := silent_of_reinitialised hre (hinv.lt_stftChans_length hch)
  have hroom : (u.stftChan ch).cnt.toNat + xs.length < u.st.hop.toNat := by
    rw [hcnt, hre.hop, ← hre.configured, hfft, hhop]
    exact (Nat.zero_add _).trans_lt hlen
  obtain ⟨t, hrun, ⟨htinv, htready, htowner⟩, htparams, hend, htcur, hsent⟩ := execAll_stPush_of_silent xs
    (hinv.of_exec hconfig) huready huowner (hparams.symm ▸ hch) hsilent hroom
  have htch : ch < t.params.nch := by rw [htparams, hparams]; exact hch
  refine ⟨t, ?_, ?_, fun x t' hpush => ?_⟩
  · rw [execAll, hconfig]
    exact hrun
  · rw [hcur, hports, Ports.send_port, if_pos rfl] at hsent
    rw [hsent, List.append_assoc, List.replicate_succ]
    rfl
  · have hlast := sent_of_exec_stPush htready htowner htch hpush
    rwa [hend.output htinv htready htch, htcur, hcur] at hlast

end Sys2Proof.Proofs
end

section
/-! PROOFS. Channel independence of unit ST (44_stft.md R257): what a push with the identity modification makes of its channel
depends on that channel and the shared configuration only. -/

namespace Sys2Proof.Machine

open Sys2Proof.Statements

variable {s : State}

/-- The frame buffer of a push with the identity modification (R249). -/
def StftChannel.identityBuffer (I : Impl Word) (st : StftUnit) (c : StftChannel) : List (Cpx Word) :=
  I.fft.inverse (fftLog2Field st.cfg) (I.fft.forward (fftLog2Field st.cfg)
    (analysisFrame I.num st.n.toNat c.inw.toNat st.wintab.read c.inr.read))

/-- A push with the identity modification, as a function of its channel: the channel it leaves and the response it sends
(R247). -/
def StftChannel.pushIdentity (I : Impl Word) (st : StftUnit) (x : Word) (c : StftChannel) : StftChannel × Response :=
  let c' := c.shift st.n.toNat x
  if hopReached c'.cnt.toNat st.hop.toNat then
    (c'.resynthesise I.num st (c'.identityBuffer I st), Response.executed c.output { frame := true })
  else (c', Response.executed c.output {})

/-- Of unit ST the push reads, besides its channel, the shared configuration only. -/
theorem StftChannel.pushIdentity_of_shared (I : Impl Word) {st st' : StftUnit} (x : Word) (c : StftChannel)
    (h : { st with chans := [] } = { st' with chans := [] }) : c.pushIdentity I st x = c.pushIdentity I st' x :=
  (congrArg (fun shared => c.pushIdentity I shared x) h :)

theorem exec_stPush_of_identity {ch : Nat} (x : Word) (hr : s.Ready) (ho : s.OwnsScope) (hch : ch < s.params.nch)
    (hmod : modField s.st.cfg = .identity) : exec (.stPush ch x) s =
      .next ((s.setStftChan ch ((s.stftChan ch).pushIdentity s.params.impl s.st x).1).respond
        ((s.stftChan ch).pushIdentity s.params.impl s.st x).2) := by
  rw [exec_stPush hr ho hch, pushSample, StftChannel.frameBuffer_of_identity _ _ _ _ _ hmod,
    State.countExchange_of_identity s hmod, StftChannel.pushIdentity]
  dsimp only
  split <;> rfl

/-- Of two pushes on different channels the second finds its channel as it was before the first. -/
theorem execAll_two_pushes {c d : Nat} {x y : Word} {p q : StftChannel × Response} (hr : s.Ready) (ho : s.OwnsScope)
    (hinv : s.Inv) (hc : c < s.params.nch) (hd : d < s.params.nch) (hne : c ≠ d) (hmod : modField s.st.cfg = .identity)
    (hp : (s.stftChan c).pushIdentity s.params.impl s.st x = p)
    (hq : (s.stftChan d).pushIdentity s.params.impl s.st y = q) : execAll [.stPush c x, .stPush d y] s =
      .next ((((s.setStftChan c p.1).setStftChan d q.1).respond p.2).respond q.2) := by
  have hfirst := exec_stPush_of_identity x hr ho hc hmod
  rw [hp] at hfirst
  have howner : ((s.setStftChan c p.1).respond p.2).OwnsScope := ho.trans (congrArg some (Ports.send_cur s.ports _).symm)
  have hchan : ((s.setStftChan c p.1).respond p.2).stftChan d = s.stftChan d :=
    stftChan_setStftChan_of_ne (hinv.lt_stftChans_length hc) p.1 hne.symm
  have hshared : (s.stftChan d).pushIdentity s.params.impl ((s.setStftChan c p.1).respond p.2).st y = q :=
    (StftChannel.pushIdentity_of_shared _ y _ rfl).trans hq
  have hsecond := exec_stPush_of_identity (s := (s.setStftChan c p.1).respond p.2) y hr howner hd hmod
  rw [hchan, State.respond_params, State.setStftChan_params, hshared] at hsecond
  rw [execAll, hfirst]
  dsimp only
  rw [execAll, hsecond]
  rfl

theorem State.setStftChan_comm {c d : Nat} (hne : c ≠ d) (v w : StftChannel) :
    (s.setStftChan c v).setStftChan d w = (s.setStftChan d w).setStftChan c v := by
  simp only [State.setStftChan, List.set_comm v w hne]

end Sys2Proof.Machine

namespace Sys2Proof.Proofs

open Sys2Proof.Machine

/-- Settles O45: the push is a function of its channel and the shared configuration, and two of them replace different
channels. -/
theorem channelsAreIndependent : Obligations.ChannelsAreIndependent := by
  refine ⟨?_, ?_⟩
  · intro s s' t t' ch x hr hr' ho ho' hinv hinv' hch hch' hmod himpl hshared hchan ht ht'
    have hcfg : s.st.cfg = s'.st.cfg := (congrArg StftUnit.cfg hshared :)
    rw [exec_stPush_of_identity x hr ho hch hmod] at ht
    rw [exec_stPush_of_identity x hr' ho' hch' (hcfg ▸ hmod), ← hchan, ← himpl,
      ← StftChannel.pushIdentity_of_shared _ x _ hshared] at ht'
    cases ht
    cases ht'
    have hlen := hinv.lt_stftChans_length hch
    have hlen' := hinv'.lt_stftChans_length hch'
    exact ⟨(stftChan_setStftChan_self hlen _).trans (stftChan_setStftChan_self hlen' _).symm, ⟨_, rfl, rfl⟩,
      fun c hc => stftChan_setStftChan_of_ne hlen _ hc⟩
  · intro s c d x y hr ho hinv hc hd hne hmod
    refine ⟨_, _, execAll_two_pushes hr ho hinv hc hd hne hmod rfl rfl,
      execAll_two_pushes hr ho hinv hd hc hne.symm hmod rfl rfl, ?_, _, _, rfl, rfl⟩
    rw [State.setStftChan_comm hne]
    rfl

end Sys2Proof.Proofs
end

section
/-! PROOFS. Correct rounding in the default numerics (45_numerics_fft_window.md R282): the word that `roundWord` gives is finite
exactly below the overflow threshold, and then no finite word is nearer, a tie going to the even significand. -/

namespace Sys2Proof.Machine

open Sys2Proof.Statements

/-! The nearest integer to a quotient. -/

/-- A quotient is rounded by at most a half, and by a half only to an even integer. -/
theorem roundQuotient_error {n d : Nat} (hd : 0 < d) : 2 * ((roundQuotient n d : Int) * d - n).natAbs ≤ d ∧
    (2 * ((roundQuotient n d : Int) * d - n).natAbs = d → roundQuotient n d % 2 = 0) := by
  have hrem := Nat.mod_lt n hd
  have hdown : ((n / d : Nat) : Int) * d = n - (n % d : Nat) := by
    rw [eq_sub_iff_add_eq]
    exact_mod_cast Nat.div_add_mod' n d
  have hup : ((n / d + 1 : Nat) : Int) * d = n - (n % d : Nat) + d := by rw [Nat.cast_succ, add_one_mul, hdown]
  simp only [roundQuotient]
  split
  next => rw [hdown]; omega
  next =>
    split
    next =>
      obtain heven | hodd := Nat.mod_two_eq_zero_or_one (n / d)
      · rw [heven, Nat.add_zero, hdown]; omega
      · rw [hodd, hup]; omega
    next => rw [hup]; omega

/-- No integer is nearer to a quotient than the one it is rounded to, and one as near leaves that one even. -/
theorem roundQuotient_nearest {n d : Nat} (hd : 0 < d) (g : Int) :
    ((roundQuotient n d : Int) * d - n).natAbs ≤ (g * d - n).natAbs ∧
    ((g * d - n).natAbs = ((roundQuotient n d : Int) * d - n).natAbs → g ≠ roundQuotient n d →
      roundQuotient n d % 2 = 0) := by
  obtain ⟨hhalf, htie⟩ := roundQuotient_error (n := n) hd
  obtain rfl | hne := eq_or_ne g (roundQuotient n d)
  · exact ⟨le_rfl, fun _ h => absurd rfl h⟩
  · have hapart : d ≤ (g * d - roundQuotient n d * d).natAbs := by
      rw [← sub_mul, Int.natAbs_mul, Int.natAbs_natCast]
      exact Nat.le_mul_of_pos_left d (Int.natAbs_pos.2 (sub_ne_zero.2 hne))
    exact ⟨by omega, fun heq _ => htie (by omega)⟩

/-- A quotient is rounded to less than `2^24` exactly below the middle between `2^24 - 1`, which is odd, and `2^24`. -/
theorem roundQuotient_lt_iff {n d : Nat} (hd : 0 < d) : roundQuotient n d < 2 ^ 24 ↔ 2 * n < (2 ^ 25 - 1) * d := by
  obtain ⟨hhalf, htie⟩ := roundQuotient_error (n := n) hd
  obtain hbelow | hlast | habove : roundQuotient n d ≤ 2 ^ 24 - 2 ∨ roundQuotient n d = 2 ^ 24 - 1 ∨
    2 ^ 24 ≤ roundQuotient n d := by omega
  · have hmul : (roundQuotient n d : Int) * d ≤ (2 ^ 24 - 2) * d := mul_le_mul_of_nonneg_right (by omega) (by omega)
    omega
  · have hstrict := lt_of_le_of_ne hhalf fun h => absurd (htie h) (by rw [hlast]; decide)
    have hgap : 2 * (n - roundQuotient n d * d : Int) < d := by omega
    rw [hlast] at hgap ⊢
    push_cast at hgap
    omega
  · have hmul : (2 ^ 24 : Int) * d ≤ roundQuotient n d * d := mul_le_mul_of_nonneg_right (by exact_mod_cast habove) (by omega)
    omega

/-! The nearest magnitude to a quotient. -/

/-- The significand that `n / d` is rounded to, in the unit of its binade. -/
def significand (n d : Nat) : Nat := roundQuotient n (d * 2 ^ spacing (n / d))

/-- The magnitude that `n / d` is rounded to. -/
def rounded (n d : Nat) : Nat := significand n d * 2 ^ spacing (n / d)

/-- The 31 bits below the sign that encode the rounded magnitude (R281). -/
def encoding (n d : Nat) : Nat := spacing (n / d) * 2 ^ 23 + significand n d

section

variable (n : Nat) {d : Nat} (hd : 0 < d)

include hd

/-- The two sides of the binade of a quotient. -/
theorem quotient_binade : n < 2 ^ 24 * 2 ^ spacing (n / d) * d ∧
    (spacing (n / d) = 0 ∨ 2 ^ 23 * 2 ^ spacing (n / d) * d ≤ n) := by
  obtain ⟨hhigh, hlow⟩ := spacing_spec (n / d)
  exact ⟨(Nat.div_lt_iff_lt_mul hd).1 hhigh, hlow.imp_right (Nat.le_div_iff_mul_le hd).1⟩

theorem significand_le : significand n d ≤ 2 ^ 24 := by
  obtain ⟨hhigh, -⟩ := quotient_binade n hd
  refine roundQuotient_le (Nat.mul_pos hd (Nat.two_pow_pos _)) ?_
  rw [mul_comm d, ← mul_assoc]
  exact hhigh.le

theorem le_significand : spacing (n / d) = 0 ∨ 2 ^ 23 ≤ significand n d := by
  refine (quotient_binade n hd).2.imp_right fun hlow => le_roundQuotient (Nat.mul_pos hd (Nat.two_pow_pos _)) ?_
  rw [mul_comm d, ← mul_assoc]
  exact hlow

/-- No multiple of the unit of the binade is nearer to `n / d` than the rounded magnitude, and one as near leaves the
significand even. -/
theorem rounded_nearest_multiple (h : Int) :
    ((rounded n d : Int) * d - n).natAbs ≤ (h * (2 ^ spacing (n / d) : Nat) * d - n).natAbs ∧
    ((h * (2 ^ spacing (n / d) : Nat) * d - n).natAbs = ((rounded n d : Int) * d - n).natAbs → h ≠ significand n d →
      significand n d % 2 = 0) := by
  have hunit : ∀ h : Int, h * (2 ^ spacing (n / d) : Nat) * d = h * (d * 2 ^ spacing (n / d) : Nat) := fun h => by
    rw [Nat.cast_mul d, mul_assoc, mul_comm (d : Int)]
  rw [rounded, Nat.cast_mul (significand n d), hunit, hunit]
  exact roundQuotient_nearest (Nat.mul_pos hd (Nat.two_pow_pos _)) h

/-- No magnitude of either sign is nearer to `n / d` than the rounded one, and one as near leaves the significand even: the
magnitudes that are no multiples of the unit of the binade lie beyond its lower end, which is such a multiple. -/
theorem rounded_nearest {g : Int} (hg : IsFloat g.natAbs) :
    ((rounded n d : Int) * d - n).natAbs ≤ (g * d - n).natAbs ∧
    ((g * d - n).natAbs = ((rounded n d : Int) * d - n).natAbs → g ≠ rounded n d → significand n d % 2 = 0) := by
  by_cases hdvd : ((2 ^ spacing (n / d) : Nat) : Int) ∣ g
  · obtain ⟨h, rfl⟩ := hdvd
    obtain ⟨hle, htie⟩ := rounded_nearest_multiple n hd h
    rw [mul_comm _ h]
    exact ⟨hle, fun heq hne => htie heq fun hh => hne (by rw [hh, rounded, Nat.cast_mul])⟩
  · have hbelow : g.natAbs < 2 ^ 23 * 2 ^ spacing (n / d) :=
      not_le.1 fun hge => hdvd (Int.natCast_dvd.2 (hg.two_pow_dvd hge))
    have hzero : spacing (n / d) ≠ 0 := fun hzero => hdvd (by rw [hzero]; exact one_dvd g)
    have hlow := (quotient_binade n hd).2.resolve_left hzero
    obtain ⟨hend, -⟩ := rounded_nearest_multiple n hd (2 ^ 23)
    have hfar : g * d < 2 ^ 23 * (2 ^ spacing (n / d) : Nat) * d :=
      mul_lt_mul_of_pos_right (by omega) (by omega)
    have hlow' : (2 ^ 23 * (2 ^ spacing (n / d) : Nat) * d : Int) ≤ n := by exact_mod_cast hlow
    omega

/-- The encoding of the rounded magnitude is that of a finite word exactly below the overflow threshold: the largest finite
magnitude and a half of its unit (R282). -/
theorem encoding_lt_iff : encoding n d < 0x7F800000 ↔ n < (2 ^ 25 - 1) * 2 ^ 252 * d := by
  obtain ⟨hhigh, hlow⟩ := quotient_binade n hd
  have hmost := significand_le n hd
  have hleast := le_significand n hd
  unfold encoding
  obtain hsmall | htop | hlarge := Nat.lt_trichotomy (spacing (n / d)) 253
  · have hpow : 2 ^ spacing (n / d) * d ≤ 2 ^ 252 * d :=
      Nat.mul_le_mul_right d (Nat.pow_le_pow_right (by decide) (by omega))
    rw [mul_assoc] at hhigh ⊢
    omega
  · have hlast := roundQuotient_lt_iff (n := n) (Nat.mul_pos hd (Nat.two_pow_pos 253))
    rw [← htop, ← significand, htop] at hlast
    omega
  · have hpow : 2 ^ 254 * d ≤ 2 ^ spacing (n / d) * d :=
      Nat.mul_le_mul_right d (Nat.pow_le_pow_right (by decide) (by omega))
    rw [mul_assoc] at hlow ⊢
    omega

end

/-! The rounded word. -/

/-- What a word with the encoding `k · 2^23 + m` of a finite magnitude holds (R281); `m` may be the carry `2^24`. -/
theorem magnitude_of_encoding {w : Word} {s : Bool} {k m : Nat} (hw : w.toNat = s.toNat * 2 ^ 31 + (k * 2 ^ 23 + m))
    (hlt : k * 2 ^ 23 + m < 0x7F800000) (hm : m ≤ 2 ^ 24) (hlow : k = 0 ∨ 2 ^ 23 ≤ m) :
    isFinite w = true ∧ signBit w = s ∧ magnitude w = m * 2 ^ k ∧ fracField w % 2 = m % 2 := by
  have hsign : signBit w = s := signBit_of_toNat hw (by omega)
  have hfields := toNat_eq_fields w
  rw [hw, hsign] at hfields
  have hfrac := fracField_lt w
  obtain ⟨m', hmag, hm', hlow', hbits⟩ := magnitude_significand w
  refine ⟨(isFinite_iff w).2 (by omega), hsign, ?_, by omega⟩
  obtain hsame | hcarry : (expField w - 1 = k ∧ m' = m) ∨ (expField w - 1 = k + 1 ∧ m' = 2 ^ 23 ∧ m = 2 ^ 24) := by omega
  · obtain ⟨hk, hsig⟩ := hsame
    rw [hmag, hk, hsig]
  · obtain ⟨hk, hsig, hfull⟩ := hcarry
    rw [hmag, hk, hsig, hfull]
    ring

/-- Below the overflow threshold a quotient is rounded to a finite word (R282). -/
theorem roundWord_of_lt (s : Bool) {n d : Nat} (hd : 0 < d) (h : encoding n d < 0x7F800000) :
    isFinite (roundWord s n d) = true ∧ signBit (roundWord s n d) = s ∧ magnitude (roundWord s n d) = rounded n d ∧
      fracField (roundWord s n d) % 2 = significand n d % 2 := by
  have hword : roundWord s n d = signWord s ||| BitVec.ofNat 32 (encoding n d) := by
    rw [roundWord_eq]
    exact if_neg (Nat.not_le.2 h)
  rw [hword]
  exact magnitude_of_encoding (toNat_signWord_or s (h.trans (by decide))) h (significand_le n hd) (le_significand n hd)

/-- From the overflow threshold on the result is the infinity of the sign (R282). -/
theorem roundWord_of_ge (s : Bool) {n d : Nat} (h : 0x7F800000 ≤ encoding n d) : roundWord s n d = infinity s := by
  rw [roundWord_eq]
  exact if_pos h

theorem infinity_fields (s : Bool) :
    isFinite (infinity s) = false ∧ isNaN (infinity s) = false ∧ isInf (infinity s) = true ∧ signBit (infinity s) = s := by
  decide +revert

/-- The sign of a rounded result, also of a zero or an infinity (R282). -/
theorem signBit_roundWord (s : Bool) (n : Nat) {d : Nat} (hd : 0 < d) : signBit (roundWord s n d) = s := by
  obtain hlt | hge := Nat.lt_or_ge (encoding n d) 0x7F800000
  · obtain ⟨-, hsign, -⟩ := roundWord_of_lt s hd hlt
    exact hsign
  · obtain ⟨-, -, -, hsign⟩ := infinity_fields s
    rw [roundWord_of_ge s hge, hsign]

/-! Values. -/

/-- A number with a sign. -/
def signed (s : Bool) (x : ℚ) : ℚ := if s then -x else x

theorem abs_signed (s : Bool) (x : ℚ) : |signed s x| = |x| := by
  cases s with
  | false => rfl
  | true => exact abs_neg x

theorem signed_mul_signed (s t : Bool) (x y : ℚ) : signed s x * signed t y = signed (s != t) (x * y) := by
  cases s <;> cases t <;> simp [signed]

theorem signed_div_signed (s t : Bool) (x y : ℚ) : signed s x / signed t y = signed (s != t) (x / y) := by
  cases s <;> cases t <;> simp [signed, neg_div, div_neg]

theorem value_eq (w : Word) : value w = signed (signBit w) (magnitude w / 2 ^ 149) := by
  rw [value, scaledValue, signed]
  split
  next => rw [Int.cast_neg, Int.cast_natCast, neg_div]
  next => rw [Int.cast_natCast]

theorem natAbs_scaledValue (w : Word) : (scaledValue w).natAbs = magnitude w := by
  rw [scaledValue]
  split <;> omega

/-- A value is as far from a quotient as the integers say, in units of 2^−149 and of the divisor. -/
theorem abs_value_sub_quotient (w : Word) (n : Nat) {d : Nat} (hd : 0 < d) :
    |value w - n / d / 2 ^ 149| = ((scaledValue w * d - n).natAbs : ℚ) / (d * 2 ^ 149) := by
  have hpos : (0 : ℚ) < d * 2 ^ 149 := mul_pos (Nat.cast_pos.2 hd) (by norm_num)
  have hne : (d : ℚ) ≠ 0 := Nat.cast_ne_zero.2 hd.ne'
  have hdiff : value w - n / d / 2 ^ 149 = ((scaledValue w * d - n : Int) : ℚ) / (d * 2 ^ 149) := by
    rw [value]
    push_cast
    field_simp
  rw [hdiff, abs_div, abs_of_pos hpos, Nat.cast_natAbs, Int.cast_abs]

/-- The overflow threshold of R282 in units of 2^−149. -/
theorem quotient_lt_threshold_iff (n : Nat) {d : Nat} (hd : 0 < d) :
    |(n : ℚ) / d / 2 ^ 149| < (2 ^ 25 - 1) * 2 ^ 103 ↔ n < (2 ^ 25 - 1) * 2 ^ 252 * d := by
  have hscale : ((2 : ℚ) ^ 25 - 1) * 2 ^ 103 * 2 ^ 149 * d = (((2 ^ 25 - 1) * 2 ^ 252 * d : Nat) : ℚ) := by
    push_cast
    norm_num
  rw [abs_of_nonneg (by positivity), div_lt_iff₀ (by positivity), div_lt_iff₀ (Nat.cast_pos.2 hd), hscale, Nat.cast_lt]

/-- `roundWord` rounds a quotient that is not negative (R282). -/
theorem rounded_roundWord_of_nonneg (n : Nat) {d : Nat} (hd : 0 < d) :
    Rounded (roundWord false n d) ((n : ℚ) / d / 2 ^ 149) := by
  have hthreshold := (quotient_lt_threshold_iff n hd).trans (encoding_lt_iff n hd).symm
  obtain hlt | hge := Nat.lt_or_ge (encoding n d) 0x7F800000
  · obtain ⟨hfinite, hsign, hmag, hfrac⟩ := roundWord_of_lt false hd hlt
    have hvalue : scaledValue (roundWord false n d) = rounded n d := by rw [scaledValue_of_nonneg hsign, hmag]
    refine ⟨iff_of_true hfinite (hthreshold.2 hlt), fun _ w _ => ?_, fun h => absurd (hfinite.symm.trans h) (by decide)⟩
    have hpos : (0 : ℚ) < d * 2 ^ 149 := mul_pos (Nat.cast_pos.2 hd) (by norm_num)
    obtain ⟨hnearest, htie⟩ := rounded_nearest n hd ((natAbs_scaledValue w).symm ▸ isFloat_magnitude w)
    rw [abs_value_sub_quotient w n hd, abs_value_sub_quotient _ n hd, hvalue, div_le_div_iff_of_pos_right hpos,
      div_left_inj' hpos.ne', Nat.cast_le, Nat.cast_inj]
    refine ⟨hnearest, fun heq hne => hfrac.trans (htie heq fun h => hne ?_)⟩
    rw [value, value, hvalue, h]
  · obtain ⟨hfinite, -, hinf, hsign⟩ := infinity_fields false
    rw [roundWord_of_ge false hge]
    refine ⟨iff_of_false (by rw [hfinite]; decide) fun h => hge.not_gt (hthreshold.1 h), fun h => ?_, fun _ => ⟨hinf, ?_⟩⟩
    · exact absurd (hfinite.symm.trans h) (by decide)
    · rw [hsign]
      exact iff_of_false (by decide) (not_lt.2 (by positivity))

/-! The negative side. -/

theorem value_fneg (w : Word) : value (fneg w) = -value w := by
  rw [value, scaledValue_fneg, Int.cast_neg, neg_div, value]

theorem isNaN_fneg (w : Word) : isNaN (fneg w) = isNaN w := by rw [isNaN, expField_fneg, fracField_fneg, isNaN]

theorem isInf_fneg (w : Word) : isInf (fneg w) = isInf w := by rw [isInf, expField_fneg, fracField_fneg, isInf]

/-- Rounding is symmetric. -/
theorem rounded_fneg {r : Word} {x : ℚ} (h : Rounded r x) : Rounded (fneg r) (-x) := by
  obtain ⟨hthreshold, hnearest, hoverflow⟩ := h
  rw [Rounded, isFinite_fneg, isInf_fneg, fracField_fneg, signBit_fneg, value_fneg, abs_neg]
  refine ⟨hthreshold, fun hr w hw => ?_, fun hr => ?_⟩
  · obtain ⟨hle, htie⟩ := hnearest hr (fneg w) ((isFinite_fneg w).trans hw)
    have hflip : ∀ y : ℚ, |y - -x| = |-y - x| := fun y => by rw [← abs_neg, neg_sub', neg_neg, sub_eq_add_neg]
    rw [value_fneg] at hle htie
    rw [hflip, hflip, neg_neg]
    exact ⟨hle, fun heq hne => htie heq fun h => hne (by rw [← h, neg_neg])⟩
  · obtain ⟨hinf, hsign⟩ := hoverflow hr
    have hne : x ≠ 0 := fun h => absurd (hthreshold.2 (by rw [h]; norm_num)) (by rw [hr]; decide)
    refine ⟨hinf, ?_⟩
    rw [Bool.not_eq_true', ← Bool.not_eq_true, hsign, not_lt, neg_lt_zero, lt_iff_le_and_ne]
    exact ⟨fun h => ⟨h, hne.symm⟩, fun h => h.1⟩

theorem roundWord_true (n : Nat) {d : Nat} (hd : 0 < d) : roundWord true n d = fneg (roundWord false n d) := by
  obtain hlt | hge := Nat.lt_or_ge (encoding n d) 0x7F800000
  · obtain ⟨-, hsign, hmag, -⟩ := roundWord_of_lt true hd hlt
    obtain ⟨-, hsign', hmag', -⟩ := roundWord_of_lt false hd hlt
    refine eq_of_signBit_of_magnitude (by rw [hsign, signBit_fneg, hsign']; rfl) ?_
    rw [hmag, magnitude, expField_fneg, fracField_fneg, ← magnitude, hmag']
  · rw [roundWord_of_ge true hge, roundWord_of_ge false hge]
    decide

/-- `roundWord` is correct rounding of a quotient in units of 2^−149 (R282). -/
theorem rounded_roundWord (s : Bool) (n : Nat) {d : Nat} (hd : 0 < d) :
    Rounded (roundWord s n d) (signed s ((n : ℚ) / d / 2 ^ 149)) := by
  have hnonneg := rounded_roundWord_of_nonneg n hd
  cases s with
  | false => exact hnonneg
  | true =>
    rw [roundWord_true n hd]
    exact rounded_fneg hnonneg

end Sys2Proof.Machine
end

section
/-! PROOFS. The four arithmetic primitives on finite words, and the special results, the canonical NaN and the comparisons of
all words (45_numerics_fft_window.md R281 to R285). -/

namespace Sys2Proof.Machine

open Sys2Proof.Statements

variable {a b w : Word}

/-! Finite operands. -/

theorem fadd_of_finite (ha : isFinite a = true) (hb : isFinite b = true) : fadd a b =
    if scaledValue a + scaledValue b = 0 then signWord (signBit a && signBit b)
    else roundInt (scaledValue a + scaledValue b) := by
  simp only [fadd, not_isNaN_of_isFinite ha, not_isNaN_of_isFinite hb, not_isInf_of_isFinite ha, not_isInf_of_isFinite hb,
    Bool.or_false, Bool.false_eq_true, if_false]

theorem fmul_of_finite (ha : isFinite a = true) (hb : isFinite b = true) :
    fmul a b = roundWord (signBit a != signBit b) (magnitude a * magnitude b) (2 ^ 149) := by
  simp only [fmul, not_isNaN_of_isFinite ha, not_isNaN_of_isFinite hb, not_isInf_of_isFinite ha, not_isInf_of_isFinite hb,
    Bool.or_false, Bool.false_eq_true, if_false]

theorem fdiv_of_finite (ha : isFinite a = true) (hb : isFinite b = true) : fdiv a b =
    if magnitude b = 0 then (if magnitude a = 0 then quietNaN else infinity (signBit a != signBit b))
    else roundWord (signBit a != signBit b) (magnitude a * 2 ^ 149) (magnitude b) := by
  simp only [fdiv, not_isNaN_of_isFinite ha, not_isNaN_of_isFinite hb, not_isInf_of_isFinite ha, not_isInf_of_isFinite hb,
    Bool.or_false, Bool.false_eq_true, if_false]

theorem roundWord_zero (s : Bool) {d : Nat} (hd : 0 < d) : roundWord s 0 d = signWord s := by
  simp [roundWord, roundQuotient, hd]

theorem rounded_roundInt (z : Int) : Rounded (roundInt z) (z / 2 ^ 149) := by
  have hround := rounded_roundWord (decide (z < 0)) z.natAbs Nat.one_pos
  rw [Nat.cast_natAbs, Nat.cast_one, div_one, signed] at hround
  split at hround
  next hneg => rwa [abs_of_neg (of_decide_eq_true hneg), Int.cast_neg, neg_div, neg_neg] at hround
  next hnonneg => rwa [abs_of_nonneg (not_lt.1 (hnonneg ∘ decide_eq_true))] at hround

theorem rounded_fadd (ha : isFinite a = true) (hb : isFinite b = true) : Rounded (fadd a b) (value a + value b) := by
  have hsum : value a + value b = ((scaledValue a + scaledValue b : Int) : ℚ) / 2 ^ 149 := by
    rw [value, value, Int.cast_add, add_div]
  rw [fadd_of_finite ha hb, hsum]
  split
  next hzero =>
    have hround := rounded_roundWord (signBit a && signBit b) 0 Nat.one_pos
    rw [roundWord_zero _ Nat.one_pos] at hround
    rw [hzero]
    convert hround using 1
    cases signBit a && signBit b <;> norm_num [signed]
  next => exact rounded_roundInt _

theorem rounded_fsub (ha : isFinite a = true) (hb : isFinite b = true) : Rounded (fsub a b) (value a - value b) := by
  rw [fsub, sub_eq_add_neg, ← value_fneg]
  exact rounded_fadd ha ((isFinite_fneg b).trans hb)

theorem rounded_fmul (ha : isFinite a = true) (hb : isFinite b = true) : Rounded (fmul a b) (value a * value b) := by
  have hround := rounded_roundWord (signBit a != signBit b) (magnitude a * magnitude b) (Nat.two_pow_pos 149)
  rw [fmul_of_finite ha hb, value_eq a, value_eq b, signed_mul_signed]
  rw [Nat.cast_mul, Nat.cast_pow, Nat.cast_ofNat] at hround
  convert hround using 2
  field_simp

theorem magnitude_pos_of_value_ne_zero (h : value w ≠ 0) : 0 < magnitude w := by
  refine Nat.pos_of_ne_zero fun hzero => h ?_
  rw [value, Int.natAbs_eq_zero.1 ((natAbs_scaledValue w).trans hzero), Int.cast_zero, zero_div]

theorem rounded_fdiv (ha : isFinite a = true) (hb : isFinite b = true) (hne : value b ≠ 0) :
    Rounded (fdiv a b) (value a / value b) := by
  have hpos := magnitude_pos_of_value_ne_zero hne
  have hround := rounded_roundWord (signBit a != signBit b) (magnitude a * 2 ^ 149) hpos
  rw [fdiv_of_finite ha hb, if_neg hpos.ne', value_eq a, value_eq b, signed_div_signed]
  rw [Nat.cast_mul, Nat.cast_pow, Nat.cast_ofNat] at hround
  convert hround using 2
  field_simp

/-! The format. -/

theorem signed_eq_pow_mul (s : Bool) (x : ℚ) : signed s x = (-1) ^ s.toNat * x := by
  cases s <;> simp [signed]

theorem toNat_signBit (w : Word) : (signBit w).toNat = w.toNat / 2 ^ 31 := by
  have hfields := toNat_eq_fields w
  have hfrac := fracField_lt w
  have hexp : expField w < 256 := by rw [expField_eq]; omega
  omega

theorem isInf_iff (w : Word) : isInf w = true ↔ w = 0x7F800000#32 ∨ w = 0xFF800000#32 := by
  refine ⟨fun h => ?_, fun h => ?_⟩
  · rw [← infinity_signBit h]
    cases signBit w with
    | false => exact .inl rfl
    | true => exact .inr rfl
  · obtain rfl | rfl := h <;> decide

/-- The words are binary32 (R281). -/
theorem hasFormat (w : Word) : HasFormat w where
  isNaN := by rw [isNaN, expField_eq, fracField_eq, Bool.and_eq_true, beq_iff_eq, bne_iff_ne]
  isInf := isInf_iff w
  isFinite := by rw [isFinite_iff, expField_eq]
  signBit := by rw [signBit_eq, decide_eq_true_eq]
  subnormal h := by
    rw [value_eq, signed_eq_pow_mul, toNat_signBit, magnitude, expField_eq, if_pos h, fracField_eq, mul_div_assoc]
  normal hlow _ := by
    have hunit : (2 : ℚ) ^ (expField w - 1) / 2 ^ 149 = 2 ^ expField w / 2 ^ 150 := by
      rw [expField_eq, div_eq_div_iff (by positivity) (by positivity), ← pow_add, ← pow_add]
      congr 1
      omega
    rw [value_eq, signed_eq_pow_mul, toNat_signBit, magnitude, if_neg (by rw [expField_eq]; omega), Nat.cast_mul,
      Nat.cast_pow, Nat.cast_ofNat, mul_div_assoc, hunit, expField_eq, fracField_eq]
    ring

/-! Zeros, infinities and NaNs. -/

theorem eq_signWord_iff (w : Word) (s : Bool) : w = signWord s ↔ signBit w = s ∧ magnitude w = 0 := by
  have hfields : signBit (signWord s) = s ∧ magnitude (signWord s) = 0 := by decide +revert
  obtain ⟨hsign, hmag⟩ := hfields
  refine ⟨fun h => h ▸ ⟨hsign, hmag⟩, fun h => ?_⟩
  obtain ⟨hsign', hmag'⟩ := h
  exact eq_of_signBit_of_magnitude (hsign'.trans hsign.symm) (hmag'.trans hmag.symm)

theorem isZero_iff (w : Word) : IsZero w ↔ magnitude w = 0 := by
  have hpos := eq_signWord_iff w false
  have hneg := eq_signWord_iff w true
  rw [IsZero, show 0x00000000#32 = signWord false from rfl, show 0x80000000#32 = signWord true from rfl, hpos, hneg]
  cases signBit w <;> simp

theorem isZero_signWord (s : Bool) : IsZero (signWord s) := by
  cases s with
  | false => exact .inl rfl
  | true => exact .inr rfl

theorem isFinite_of_isZero (h : IsZero w) : isFinite w = true := by
  obtain rfl | rfl := h <;> decide

theorem not_isFinite_of_isInf (h : isInf w = true) : isFinite w = false := by
  rw [Bool.eq_false_iff]
  exact fun hfinite => absurd (h.symm.trans (not_isInf_of_isFinite hfinite)) (by decide)

theorem not_isNaN_of_isInf (h : isInf w = true) : isNaN w = false := by
  rw [isInf, Bool.and_eq_true] at h
  obtain ⟨-, hfrac⟩ := h
  rw [isNaN, bne, hfrac, Bool.not_true, Bool.and_false]

theorem eq_of_isInf_of_signBit (ha : isInf a = true) (hb : isInf b = true) (h : signBit a = signBit b) : a = b := by
  rw [← infinity_signBit ha, ← infinity_signBit hb, h]

theorem nan_of_operand (h : isNaN a = true ∨ isNaN b = true) :
    fadd a b = quietNaN ∧ fmul a b = quietNaN ∧ fdiv a b = quietNaN ∧ fmod a b = quietNaN := by
  obtain h | h := h <;> simp [fadd, fmul, fdiv, fmod, h]

/-- A sum with an infinity (R282). -/
theorem fadd_of_isInf (ha : isInf a = true) (hb : isNaN b = false) :
    fadd a b = if isInf b && (signBit a != signBit b) then quietNaN else a := by
  simp only [fadd, not_isNaN_of_isInf ha, ha, hb, Bool.or_false, Bool.false_eq_true, if_false, if_true]

theorem fadd_of_isFinite_of_isInf (ha : isFinite a = true) (hb : isInf b = true) : fadd a b = b := by
  simp only [fadd, not_isNaN_of_isFinite ha, not_isInf_of_isFinite ha, not_isNaN_of_isInf hb, hb, Bool.or_false,
    Bool.false_eq_true, if_false, if_true]

theorem fmul_comm (a b : Word) : fmul a b = fmul b a := by
  simp only [fmul, bne_comm (a := signBit a), Bool.or_comm (isNaN a), Bool.or_comm (isInf a), mul_comm (magnitude a),
    Bool.or_comm (isFinite a && _)]

/-- A product with an infinity (R282). -/
theorem fmul_of_isInf (ha : isInf a = true) (hb : isNaN b = false) :
    fmul a b = if isFinite b && magnitude b == 0 then quietNaN else infinity (signBit a != signBit b) := by
  simp only [fmul, not_isNaN_of_isInf ha, ha, hb, not_isFinite_of_isInf ha, Bool.or_false, Bool.false_eq_true, if_false,
    if_true, Bool.true_or, Bool.false_and, Bool.false_or]

/-- A quotient of an infinity (R282). -/
theorem fdiv_of_isInf (ha : isInf a = true) (hb : isNaN b = false) :
    fdiv a b = if isInf b then quietNaN else infinity (signBit a != signBit b) := by
  simp only [fdiv, not_isNaN_of_isInf ha, ha, hb, Bool.or_false, Bool.false_eq_true, if_false, if_true]

/-- A quotient by an infinity (R282). -/
theorem fdiv_of_isFinite_of_isInf (ha : isFinite a = true) (hb : isInf b = true) :
    fdiv a b = signWord (signBit a != signBit b) := by
  simp only [fdiv, not_isNaN_of_isFinite ha, not_isInf_of_isFinite ha, not_isNaN_of_isInf hb, hb, Bool.or_false,
    Bool.false_eq_true, if_false, if_true]

/-- A product is the canonical NaN or has the exclusive-or of the signs (R282). -/
theorem fmul_eq_quietNaN_or_signBit (a b : Word) :
    fmul a b = quietNaN ∨ signBit (fmul a b) = (signBit a != signBit b) := by
  obtain ⟨-, -, -, hsign⟩ := infinity_fields (signBit a != signBit b)
  simp only [fmul]
  split
  next => exact .inl rfl
  next =>
    split
    next =>
      split
      next => exact .inl rfl
      next => exact .inr hsign
    next => exact .inr (signBit_roundWord _ _ (Nat.two_pow_pos 149))

/-- A quotient is the canonical NaN or has the exclusive-or of the signs (R282). -/
theorem fdiv_eq_quietNaN_or_signBit (a b : Word) :
    fdiv a b = quietNaN ∨ signBit (fdiv a b) = (signBit a != signBit b) := by
  obtain ⟨-, -, -, hsign⟩ := infinity_fields (signBit a != signBit b)
  have hzero : ∀ s, signBit (signWord s) = s := by decide
  simp only [fdiv]
  split_ifs with _ _ _ _ hb
  · exact .inl rfl
  · exact .inl rfl
  · exact .inr hsign
  · exact .inr (hzero _)
  · exact .inl rfl
  · exact .inr hsign
  · exact .inr (signBit_roundWord _ _ (Nat.pos_of_ne_zero hb))

/-- A sum that is zero has the sign that both operands have, else + (R282). -/
theorem signWord_of_sum_zero (h : scaledValue a + scaledValue b = 0) : signWord (signBit a && signBit b) =
    if a = 0x80000000#32 ∧ b = 0x80000000#32 then 0x80000000#32 else 0x00000000#32 := by
  have hminus : ∀ w, w = 0x80000000#32 ↔ signBit w = true ∧ magnitude w = 0 := fun w => eq_signWord_iff w true
  cases hsign : signBit a && signBit b with
  | false =>
    rw [if_neg fun hzero => ?_]
    · rfl
    · rw [hminus, hminus] at hzero
      obtain ⟨⟨ha, -⟩, hb, -⟩ := hzero
      rw [ha, hb] at hsign
      exact absurd hsign (by decide)
  | true =>
    obtain ⟨ha, hb⟩ := Bool.and_eq_true_iff.1 hsign
    rw [scaledValue, scaledValue, if_pos ha, if_pos hb] at h
    rw [if_pos ⟨(hminus a).2 ⟨ha, by omega⟩, (hminus b).2 ⟨hb, by omega⟩⟩]
    rfl

/-- The special results of R282. -/
theorem specialResults (a b : Word) : SpecialResults a b where
  zeroSum ha hb hsum := by
    have hzero : scaledValue a + scaledValue b = 0 := by
      rw [value, value, ← add_div, div_eq_zero_iff] at hsum
      exact_mod_cast hsum.resolve_right (by positivity)
    rw [fadd_of_finite ha hb, if_pos hzero, signWord_of_sum_zero hzero]
  difference := rfl
  productSign h := (fmul_eq_quietNaN_or_signBit a b).resolve_left fun heq => absurd (heq ▸ h) (by decide)
  quotientSign h := (fdiv_eq_quietNaN_or_signBit a b).resolve_left fun heq => absurd (heq ▸ h) (by decide)
  infinitySum ha hb := by
    obtain hb | rfl := hb
    · rw [fadd_of_isInf ha (not_isNaN_of_isFinite hb), not_isInf_of_isFinite hb, fadd_of_isFinite_of_isInf hb ha]
      exact ⟨rfl, rfl⟩
    · rw [fadd_of_isInf ha (not_isNaN_of_isInf ha), bne_self_eq_false, Bool.and_false]
      exact ⟨rfl, rfl⟩
  infinityProduct ha hb hzero := by
    obtain ⟨-, -, hinf, -⟩ := infinity_fields (signBit a != signBit b)
    rw [isZero_iff] at hzero
    rw [fmul_comm b, fmul_of_isInf ha hb, beq_false_of_ne hzero, Bool.and_false]
    exact ⟨hinf, hinf⟩
  infinityQuotient ha hb := by
    obtain ⟨-, -, hinf, -⟩ := infinity_fields (signBit a != signBit b)
    rw [fdiv_of_isInf ha (not_isNaN_of_isFinite hb), not_isInf_of_isFinite hb, fdiv_of_isFinite_of_isInf hb ha]
    exact ⟨hinf, isZero_signWord _⟩
  zeroProduct ha hb := by
    rw [fmul_comm b, fmul_of_finite (isFinite_of_isZero ha) hb, (isZero_iff a).1 ha, zero_mul,
      roundWord_zero _ (Nat.two_pow_pos 149)]
    exact ⟨isZero_signWord _, isZero_signWord _⟩
  zeroQuotient ha hb hzero := by
    obtain ⟨-, -, hinf, -⟩ := infinity_fields (signBit b != signBit a)
    rw [isZero_iff] at ha hzero
    have hafinite := isFinite_of_isZero ((isZero_iff a).2 ha)
    rw [fdiv_of_finite hafinite hb, fdiv_of_finite hb hafinite, ha, if_neg hzero, if_pos rfl, if_neg hzero, zero_mul,
      roundWord_zero _ (Nat.pos_of_ne_zero hzero)]
    exact ⟨isZero_signWord _, hinf⟩

theorem canonicalNaN (a b : Word) : CanonicalNaN a b where
  operand h := by
    obtain ⟨hadd, hmul, hdiv, hmod⟩ := nan_of_operand h
    rw [← isNaN_fneg b] at h
    obtain ⟨hsub, -⟩ := nan_of_operand h
    intro op hop
    simp only [List.mem_cons, List.not_mem_nil, or_false] at hop
    obtain rfl | rfl | rfl | rfl | rfl := hop
    · exact hadd
    · exact hsub
    · exact hmul
    · exact hdiv
    · exact hmod
  sum ha hb hne := by
    have hsign : signBit a ≠ signBit b := fun h => hne (eq_of_isInf_of_signBit ha hb h)
    rw [fadd_of_isInf ha (not_isNaN_of_isInf hb), hb, bne_iff_ne.2 hsign]
    rfl
  difference ha := by
    have hb : isInf (fneg a) = true := (isInf_fneg a).trans ha
    rw [fsub, fadd_of_isInf ha (not_isNaN_of_isInf hb), hb, signBit_fneg]
    cases signBit a <;> rfl
  product ha hb := by
    have hfinite := isFinite_of_isZero hb
    rw [fmul_comm b, fmul_of_isInf ha (not_isNaN_of_isFinite hfinite), hfinite, (isZero_iff b).1 hb]
    exact ⟨rfl, rfl⟩
  infinityQuotient ha hb := by
    rw [fdiv_of_isInf ha (not_isNaN_of_isInf hb), hb]
    rfl
  zeroQuotient ha hb := by
    rw [fdiv_of_finite (isFinite_of_isZero ha) (isFinite_of_isZero hb), (isZero_iff a).1 ha, (isZero_iff b).1 hb]
    rfl
  negation := rfl

/-! The comparisons. -/

theorem natAbs_scaledValue_lt (h : isFinite w = true) : (scaledValue w).natAbs < 2 ^ 24 * 2 ^ 253 := by
  obtain ⟨m, hmag, hm, -⟩ := magnitude_significand w
  have hexp : expField w < 255 := lt_of_le_of_ne (by rw [expField_eq]; omega) ((isFinite_iff w).1 h)
  rw [natAbs_scaledValue, hmag]
  exact Nat.mul_lt_mul_of_lt_of_le hm (Nat.pow_le_pow_right (by decide) (by omega)) (Nat.two_pow_pos _)

/-- The order key of a word that is no NaN stands for its extended value. -/
theorem extendedValue_cases (h : isNaN w = false) :
    (extendedValue w = ⊥ ∧ orderKey w = -2 ^ 300) ∨ (extendedValue w = (⊤ : WithTop ℚ) ∧ orderKey w = 2 ^ 300) ∨
    (extendedValue w = (value w : WithTop ℚ) ∧ orderKey w = scaledValue w ∧
      -2 ^ 300 < scaledValue w ∧ scaledValue w < 2 ^ 300) := by
  cases hinf : isInf w with
  | false =>
    have hfinite := isFinite_of_isNaN_of_isInf h hinf
    have hlarge : (2 : Int) ^ 24 * 2 ^ 253 < 2 ^ 300 := by
      rw [← pow_add]
      exact pow_lt_pow_right₀ (by decide) (by decide)
    have hsmall := natAbs_scaledValue_lt hfinite
    refine .inr (.inr ⟨?_, orderKey_of_isFinite hfinite, by omega, by omega⟩)
    rw [extendedValue, hinf]
    rfl
  | true =>
    rw [extendedValue, orderKey, hinf]
    cases signBit w with
    | true => exact .inl ⟨rfl, rfl⟩
    | false => exact .inr (.inl ⟨rfl, rfl⟩)

theorem value_le_value_iff : value a ≤ value b ↔ scaledValue a ≤ scaledValue b := by
  rw [value, value, div_le_div_iff_of_pos_right (by positivity), Int.cast_le]

/-- The order keys order the words that are no NaN as their extended values do. -/
theorem extendedValue_le_iff (ha : isNaN a = false) (hb : isNaN b = false) :
    extendedValue a ≤ extendedValue b ↔ orderKey a ≤ orderKey b := by
  have hpos : (0 : Int) < 2 ^ 300 := pow_pos (by decide) 300
  obtain ⟨hav, hak⟩ | ⟨hav, hak⟩ | ⟨hav, hak, halow, hahigh⟩ := extendedValue_cases ha <;>
    obtain ⟨hbv, hbk⟩ | ⟨hbv, hbk⟩ | ⟨hbv, hbk, hblow, hbhigh⟩ := extendedValue_cases hb <;>
    rw [hav, hbv, hak, hbk]
  · exact iff_of_true le_rfl le_rfl
  · exact iff_of_true bot_le (by omega)
  · exact iff_of_true bot_le hblow.le
  · exact iff_of_false (WithBot.not_coe_le_bot _) (by omega)
  · exact iff_of_true le_rfl le_rfl
  · exact iff_of_false (fun h => WithTop.not_top_le_coe _ (WithBot.coe_le_coe.1 h)) hbhigh.not_ge
  · exact iff_of_false (WithBot.not_coe_le_bot _) halow.not_ge
  · exact iff_of_true (WithBot.coe_le_coe.2 le_top) hahigh.le
  · rw [WithBot.coe_le_coe, WithTop.coe_le_coe, value_le_value_iff]

/-- The comparisons of R285. -/
theorem compares (a b : Word) : Compares a b where
  unordered h := by
    obtain h | h := h <;> simp [flt, fle, feq, h]
  ordered ha hb := by
    have hle := extendedValue_le_iff ha hb
    have hge := extendedValue_le_iff hb ha
    simp only [flt, fle, feq, ha, hb, Bool.not_false, Bool.true_and, decide_eq_true_eq]
    exact ⟨by rw [← not_le, ← not_le, hge], hle.symm, by rw [le_antisymm_iff, le_antisymm_iff, hle, hge]⟩

end Sys2Proof.Machine
end

section
/-! PROOFS. The results of the default numerics that are exact (45_numerics_fft_window.md R286 to R288, R292, R300): a quotient
that is a magnitude of at most 24 significant bits is kept. -/

namespace Sys2Proof.Machine

open Sys2Proof.Statements

variable {a b w : Word}

/-- The largest finite magnitude bounds those of 24 significant bits (R281). -/
theorem IsFloat.le_largest {n : Nat} (hn : IsFloat n) (hlt : n < 2 ^ 24 * 2 ^ 253) : n ≤ (2 ^ 24 - 1) * 2 ^ 253 := by
  obtain hlow | hhigh := Nat.lt_or_ge n (2 ^ 23 * 2 ^ 253)
  · omega
  · obtain ⟨q, rfl⟩ := hn.two_pow_dvd hhigh
    omega

/-- A quotient that is a magnitude is kept, also in the last binade (R282). -/
theorem roundWord_mul_of_isFloat (s : Bool) {n d : Nat} (hn : IsFloat n) (hlt : n < 2 ^ 24 * 2 ^ 253) (hd : 0 < d) :
    isFinite (roundWord s (n * d) d) = true ∧ signBit (roundWord s (n * d) d) = s ∧
      magnitude (roundWord s (n * d) d) = n := by
  have hlargest := hn.le_largest hlt
  have hencoding : encoding (n * d) d < 0x7F800000 :=
    (encoding_lt_iff (n * d) hd).2 (Nat.mul_lt_mul_of_pos_right (by omega) hd)
  obtain ⟨hfinite, hsign, hmag, -⟩ := roundWord_of_lt s hd hencoding
  obtain ⟨hexact, -⟩ := rounded_nearest (n * d) hd (g := n) hn
  rw [Nat.cast_mul, sub_self, Int.natAbs_zero, Nat.le_zero, Int.natAbs_eq_zero, ← sub_mul, mul_eq_zero] at hexact
  exact ⟨hfinite, hsign, by omega⟩

/-- A fraction with a power of two below it and at most 24 bits above is exact (R290, R300). -/
theorem roundWord_dyadic {n l : Nat} (hn : n < 2 ^ 24) (hl : l ≤ 149) :
    isFinite (roundWord false (n * 2 ^ 149) (2 ^ l)) = true ∧ value (roundWord false (n * 2 ^ 149) (2 ^ l)) = n / 2 ^ l := by
  have hsplit : n * 2 ^ 149 = n * 2 ^ (149 - l) * 2 ^ l := by rw [mul_assoc, ← pow_add, Nat.sub_add_cancel hl]
  have hpow : 2 ^ (149 - l) ≤ 2 ^ 253 := Nat.pow_le_pow_right (by decide) (by omega)
  have hlt : n * 2 ^ (149 - l) < 2 ^ 24 * 2 ^ 253 := Nat.mul_lt_mul_of_lt_of_le hn hpow (Nat.two_pow_pos _)
  obtain ⟨hfinite, hsign, hmag⟩ := roundWord_mul_of_isFloat false (isFloat_mul_two_pow hn _) hlt (Nat.two_pow_pos l)
  rw [hsplit]
  refine ⟨hfinite, ?_⟩
  rw [value_of_nonneg hsign, hmag, div_eq_div_iff (by positivity) (by positivity)]
  exact_mod_cast hsplit.symm

/-! Integers, floors and remainders. -/

/-- An integer of 32 bits is rounded, and lies far below the overflow threshold (R286). -/
theorem rounded_u2f {n : Nat} (h : n < 2 ^ 32) : Rounded (u2f n) n ∧ isFinite (u2f n) = true := by
  have hround := rounded_roundWord_of_nonneg (n * 2 ^ 149) Nat.one_pos
  rw [Nat.cast_one, div_one, Nat.cast_mul, Nat.cast_pow, Nat.cast_ofNat, mul_div_assoc, div_self (by positivity),
    mul_one] at hround
  have ⟨hthreshold, _⟩ := hround
  refine ⟨hround, hthreshold.2 ?_⟩
  have hcast : (n : ℚ) < 2 ^ 32 := by exact_mod_cast h
  rw [abs_of_nonneg (Nat.cast_nonneg n)]
  exact hcast.trans (by norm_num)

/-- An integer of at most 24 significant bits is converted exactly (R286). -/
theorem value_u2f {n : Nat} (hn : IsFloat (n * 2 ^ 149)) (h : n < 2 ^ 32) : value (u2f n) = n := by
  obtain ⟨-, hsign, hmag⟩ := roundWord_mul_of_isFloat false hn (by omega) Nat.one_pos
  rw [mul_one, ← u2f] at hsign hmag
  rw [value_of_nonneg hsign, hmag, Nat.cast_mul, Nat.cast_pow, Nat.cast_ofNat, mul_div_assoc, div_self (by positivity),
    mul_one]

/-- A value that is not negative is its magnitude, also of −0.0. -/
theorem value_eq_magnitude (h : 0 ≤ value w) : value w = magnitude w / 2 ^ 149 := by
  rw [← abs_of_nonneg h, value_eq, abs_signed, abs_of_nonneg (by positivity)]

/-- Of the words that are not negative only −0.0 has the sign bit set. -/
theorem signBit_of_value_nonneg (h : 0 ≤ value w) : signBit w = false ∨ magnitude w = 0 := by
  rw [Classical.or_iff_not_imp_left, Bool.not_eq_false]
  intro hsign
  have heq := value_eq_magnitude h
  rw [value_eq, hsign, signed, if_pos rfl, neg_eq_self, div_eq_zero_iff, Nat.cast_eq_zero] at heq
  exact heq.resolve_right (by positivity)

/-- The floor of a value that is not negative, also of −0.0 (R287). -/
theorem ffloorU_of_value_nonneg (ha : isFinite a = true) (h : 0 ≤ value a) : ffloorU a = magnitude a / 2 ^ 149 := by
  obtain hsign | hzero := signBit_of_value_nonneg h
  · exact ffloorU_eq ha hsign
  · rw [ffloorU, hzero, Nat.zero_div, ite_self]

theorem floor_value (h : 0 ≤ value a) : ⌊value a⌋ = (magnitude a / 2 ^ 149 : Nat) := by
  have hfloor := Rat.floor_natCast_div_natCast (magnitude a) (2 ^ 149)
  rwa [Nat.cast_pow, Nat.cast_ofNat, ← value_eq_magnitude h] at hfloor

/-- The remainder is exact (R288). -/
theorem fmod_fields (ha : isFinite a = true) (hb : isFinite b = true) (hapos : 0 ≤ value a) (hbpos : 0 < magnitude b) :
    isFinite (fmod a b) = true ∧ signBit (fmod a b) = false ∧ magnitude (fmod a b) = magnitude a % magnitude b := by
  have hplus : (signBit a && magnitude a != 0) = false := by
    obtain hsign | hzero := signBit_of_value_nonneg hapos
    · rw [hsign, Bool.false_and]
    · rw [hzero, bne_self_eq_false, Bool.and_false]
  have hword : fmod a b = roundWord false (magnitude a % magnitude b * 1) 1 := by
    simp [fmod, not_isNaN_of_isFinite ha, not_isNaN_of_isFinite hb, not_isInf_of_isFinite ha, not_isInf_of_isFinite hb,
      hbpos.ne', hplus]
  have hlt := natAbs_scaledValue_lt ha
  rw [natAbs_scaledValue] at hlt
  rw [hword]
  exact roundWord_mul_of_isFloat false ((isFloat_magnitude a).mod (isFloat_magnitude b)) ((Nat.mod_le _ _).trans_lt hlt)
    Nat.one_pos

/-- The remainder in real numbers (R288). -/
theorem value_fmod (ha : isFinite a = true) (hb : isFinite b = true) (hapos : 0 ≤ value a) (hbpos : 0 < value b) :
    value (fmod a b) = value a - value b * ⌊value a / value b⌋ ∧ value (fmod a b) < value b := by
  have hmagpos := magnitude_pos_of_value_ne_zero hbpos.ne'
  obtain ⟨-, hsign, hmag⟩ := fmod_fields ha hb hapos hmagpos
  have hsplit : ((magnitude a % magnitude b : Nat) : ℚ) = magnitude a - magnitude b * (magnitude a / magnitude b : Nat) := by
    rw [eq_sub_iff_add_eq]
    exact_mod_cast Nat.mod_add_div (magnitude a) (magnitude b)
  rw [value_of_nonneg hsign, hmag, value_eq_magnitude hapos, value_eq_magnitude hbpos.le,
    div_div_div_cancel_right₀ (by positivity), Rat.floor_natCast_div_natCast, div_lt_div_iff_of_pos_right (by positivity)]
  refine ⟨?_, Nat.cast_lt.2 (Nat.mod_lt _ hmagpos)⟩
  rw [hsplit, ← Int.natCast_div, Int.cast_natCast, sub_div, div_mul_eq_mul_div]

/-! The default record, and the Bartlett window. -/

theorem isDefaultNum_binary32 : IsDefaultNum binary32 where
  arithmetic := ⟨binary32_fadd, binary32_fsub, binary32_fmul, binary32_fdiv, binary32_fmod, binary32_fneg⟩
  tests := ⟨binary32_flt, binary32_fle, binary32_feq, binary32_isnan, binary32_isfinite⟩
  conversions := ⟨binary32_u2f, binary32_ffloorU⟩
  constants := ⟨binary32_zero, binary32_half, binary32_negHalf, binary32_one, binary32_threeHalves, binary32_two,
    binary32_fiveHalves⟩
  powers l hl := by
    have hdyadic := roundWord_dyadic (show 1 < 2 ^ 24 by decide) (show l ≤ 149 by omega)
    rwa [Nat.one_mul, ← binary32_pow2neg, Nat.cast_one] at hdyadic

/-- The nearest word to a fraction with a power of two below it and at most 24 bits above (R290). -/
theorem nearestWord_dyadic {n l : Nat} (hn : n < 2 ^ 24) (hl : l ≤ 149) :
    isFinite (nearestWord n (2 ^ l)) = true ∧ value (nearestWord n (2 ^ l)) = n / 2 ^ l := by
  rw [nearestWord, decide_eq_false (Int.natCast_nonneg n).not_gt, Int.natAbs_natCast]
  exact roundWord_dyadic hn hl

/-- Both halves of a Bartlett window are exact (R292). -/
theorem bartlettWord_exact {l j : Nat} (hl : l ≤ 15) (hj : j < 2 ^ l) : isFinite (bartlettWord l j) = true ∧
    value (bartlettWord l j) = 1 - |2 * (j : ℚ) / 2 ^ l - 1| := by
  have hsize : 2 ^ l ≤ 2 ^ 15 := Nat.pow_le_pow_right (by decide) hl
  have hpos : (0 : ℚ) < 2 ^ l := by positivity
  rw [bartlettWord]
  split
  next hrising =>
    obtain ⟨hfinite, hvalue⟩ := nearestWord_dyadic (n := 2 * j) (l := l) (by omega) (by omega)
    have hle : 2 * (j : ℚ) / 2 ^ l ≤ 1 := (div_le_one hpos).2 (by exact_mod_cast hrising)
    refine ⟨hfinite, hvalue.trans ?_⟩
    rw [abs_of_nonpos (sub_nonpos.2 hle), Nat.cast_mul, Nat.cast_ofNat]
    ring
  next hfalling =>
    obtain ⟨hfinite, hvalue⟩ := nearestWord_dyadic (n := 2 * 2 ^ l - 2 * j) (l := l) (by omega) (by omega)
    have hge : 1 ≤ 2 * (j : ℚ) / 2 ^ l := (one_le_div hpos).2 (by exact_mod_cast (not_le.1 hfalling).le)
    have hcast : ((2 * 2 ^ l - 2 * j : Nat) : Int) = 2 * (2 : Int) ^ l - 2 * j := by
      rw [Nat.cast_sub (by omega)]
      push_cast
      rfl
    rw [← hcast]
    refine ⟨hfinite, hvalue.trans ?_⟩
    rw [abs_of_nonneg (sub_nonneg.2 hge), Nat.cast_sub (by omega)]
    push_cast
    field_simp
    ring

end Sys2Proof.Machine

namespace Sys2Proof.Proofs

open Sys2Proof.Machine

/-- Settles O46: every finite result is `roundWord` of the exact quotient in units of 2^−149, which rounds correctly; the other
results are read off the definitions. -/
theorem arithmeticIsCorrectlyRounded : Obligations.ArithmeticIsCorrectlyRounded := by
  refine ⟨fun p hp => ?_, hasFormat, fun a b ha hb => ?_, fun a b => ⟨specialResults a b, canonicalNaN a b, compares a b⟩⟩
  · rw [Params.impl_of_standard hp, reference_num]
    exact isDefaultNum_binary32
  · exact ⟨rounded_fadd ha hb, rounded_fsub ha hb, rounded_fmul ha hb, rounded_fdiv ha hb⟩

/-- Settles O47: rounding keeps what has 24 significant bits, an integer and the remainder of two magnitudes among them. -/
theorem conversionsAreExact : Obligations.ConversionsAreExact := by
  refine ⟨fun n => rounded_u2f, fun n hn => ?_, fun m k hm hlt => ?_, fun a ha hnonneg _ => ?_, fun a b ha hb hapos hbpos => ?_⟩
  · refine value_u2f ?_ (by omega)
    obtain hlt | rfl := Nat.lt_or_eq_of_le hn
    · exact isFloat_mul_two_pow hlt 149
    · exact ⟨1, 173, by decide, by decide⟩
  · have hexact := value_u2f (n := m * 2 ^ k) ⟨m, k + 149, hm, by rw [pow_add, mul_assoc]⟩ hlt
    rwa [Nat.cast_mul, Nat.cast_pow, Nat.cast_ofNat] at hexact
  · rw [floor_value hnonneg, ffloorU_of_value_nonneg ha hnonneg]
  · obtain ⟨hfinite, hsign, -⟩ := fmod_fields ha hb hapos (magnitude_pos_of_value_ne_zero hbpos.ne')
    exact ⟨hfinite, hsign, value_fmod ha hb hapos hbpos⟩

/-- Settles O48: the Bartlett words are fractions of at most 16 bits over a power of two. -/
theorem bartlettWindowIsExact : Obligations.BartlettWindowIsExact := by
  intro p l j hp _ hl hj
  rw [Params.impl_of_standard hp, reference_wrom]
  exact ⟨rfl, bartlettWord_exact hl hj⟩

end Sys2Proof.Proofs
end

section
/-! PROOFS. The discrete Fourier transform (45_numerics_fft_window.md R296): of a sequence from those of its even and odd elements,
and its inverse. -/

namespace Sys2Proof.Machine

/-! The discrete Fourier transform. -/

/-- Bin `k` of the transform of `n` elements of `x` with the root of unity `ζ` (R296). -/
def dft (ζ : ℂ) (n : Nat) (x : Nat → ℂ) (k : Nat) : ℂ := ∑ j ∈ Finset.range n, x j * ζ ^ (j * k)

/-- A sum over the even and the odd indices. -/
theorem sum_range_two_mul (f : Nat → ℂ) (n : Nat) : ∑ j ∈ Finset.range (2 * n), f j =
    ∑ j ∈ Finset.range n, f (2 * j) + ∑ j ∈ Finset.range n, f (2 * j + 1) := by
  induction n with
  | zero => simp
  | succ n ih =>
    rw [Nat.mul_succ, Finset.sum_range_succ, Finset.sum_range_succ, ih, Finset.sum_range_succ, Finset.sum_range_succ]
    ring

variable {ζ : ℂ} {n : Nat} (x : Nat → ℂ) (r : Nat)

/-- The first half of the bins (R297). -/
theorem dft_two_mul : dft ζ (2 * n) x r =
    dft (ζ ^ 2) n (fun j => x (2 * j)) r + ζ ^ r * dft (ζ ^ 2) n (fun j => x (2 * j + 1)) r := by
  rw [dft, sum_range_two_mul, dft, dft, Finset.mul_sum]
  congr 1
  · refine Finset.sum_congr rfl fun j _ => ?_
    rw [← pow_mul, mul_assoc]
  · refine Finset.sum_congr rfl fun j _ => ?_
    rw [← pow_mul]
    ring

/-- Bins `n` apart agree in a transform of size `n`. -/
theorem dft_add_size (h : ζ ^ n = 1) : dft ζ n x (n + r) = dft ζ n x r := by
  refine Finset.sum_congr rfl fun j _ => ?_
  rw [mul_add, pow_add, mul_comm j n, pow_mul, h, one_pow, one_mul]

/-- The second half of the bins (R297). -/
theorem dft_two_mul_add (h : ζ ^ n = -1) : dft ζ (2 * n) x (n + r) =
    dft (ζ ^ 2) n (fun j => x (2 * j)) r - ζ ^ r * dft (ζ ^ 2) n (fun j => x (2 * j + 1)) r := by
  have hsquare : (ζ ^ 2) ^ n = 1 := by rw [← pow_mul, mul_comm, pow_mul, h, neg_one_sq]
  rw [dft_two_mul, dft_add_size _ r hsquare, dft_add_size _ r hsquare, pow_add, h]
  ring

/-- The inverse transform gives the sequence back, `n` times as large (R296). -/
theorem dft_inverse {m : Nat} (hζ : IsPrimitiveRoot ζ n) (hm : m < n) :
    dft ζ⁻¹ n (dft ζ n x) m = n * x m := by
  have hne : ζ ≠ 0 := hζ.ne_zero (by omega)
  have horthogonal : ∀ j ∈ Finset.range n, j ≠ m →
      x j * ∑ k ∈ Finset.range n, (ζ ^ j * (ζ ^ m)⁻¹) ^ k = 0 := by
    intro j hj hjm
    have hratio : ζ ^ j * (ζ ^ m)⁻¹ ≠ 1 := fun h => hjm <|
      hζ.pow_inj (Finset.mem_range.1 hj) hm (mul_inv_eq_one₀ (pow_ne_zero m hne) |>.1 h)
    have hone : (ζ ^ j * (ζ ^ m)⁻¹) ^ n = 1 := by
      rw [mul_pow, inv_pow, ← pow_mul, ← pow_mul, mul_comm j, mul_comm m, pow_mul, pow_mul, hζ.pow_eq_one, one_pow, one_pow,
        inv_one, mul_one]
    rw [geom_sum_eq hratio, hone, sub_self, zero_div, mul_zero]
  have hswap : dft ζ⁻¹ n (dft ζ n x) m =
      ∑ j ∈ Finset.range n, x j * ∑ k ∈ Finset.range n, (ζ ^ j * (ζ ^ m)⁻¹) ^ k := by
    simp only [dft, Finset.sum_mul, Finset.mul_sum]
    rw [Finset.sum_comm]
    refine Finset.sum_congr rfl fun j _ => Finset.sum_congr rfl fun k _ => ?_
    rw [mul_pow, inv_pow, inv_pow, ← pow_mul, ← pow_mul, mul_comm k m, mul_assoc]
  rw [hswap, Finset.sum_eq_single_of_mem m (Finset.mem_range.2 hm) horthogonal, mul_inv_cancel₀ (pow_ne_zero m hne)]
  simp [mul_comm]

end Sys2Proof.Machine
end

section
/-! PROOFS. The radix-2 pair over exact numerics (45_numerics_fft_window.md R297, R299, R300): what the elements of the list are
after each stage. -/

namespace Sys2Proof.Machine

open Sys2Proof.Statements

/-- The list holds the complex numbers `f 0` to `f (n - 1)`. -/
def Elements (n : Nat) (b : List (Cpx ℝ)) (f : Nat → ℂ) : Prop :=
  b.length = n ∧ ∀ (k : Nat) (h : k < b.length), toComplex b[k] = f k

section

variable {n m : Nat} {b b' : List (Cpx ℝ)} {f f' g : Nat → ℂ}

theorem Elements.congr (h : Elements n b f) (heq : ∀ k < n, f k = g k) : Elements n b g := by
  obtain ⟨hlen, hget⟩ := h
  exact ⟨hlen, fun k hk => (hget k hk).trans (heq k (hlen ▸ hk))⟩

theorem elements_map_range (c : Nat → Cpx ℝ) (n : Nat) : Elements n ((List.range n).map c) fun k => toComplex (c k) := by
  refine ⟨by simp, fun k hk => ?_⟩
  rw [List.getElem_map, List.getElem_range]

theorem Elements.map (h : Elements n b f) {op : Cpx ℝ → Cpx ℝ} {opC : ℂ → ℂ}
    (hop : ∀ z, toComplex (op z) = opC (toComplex z)) : Elements n (b.map op) fun k => opC (f k) := by
  obtain ⟨hlen, hget⟩ := h
  exact ⟨by rw [List.length_map, hlen], fun k hk => by rw [List.getElem_map, hop, hget]⟩

theorem elements_getD (b : List (Cpx ℝ)) (z : Cpx ℝ) : Elements b.length b fun k => toComplex (b.getD k z) :=
  ⟨rfl, fun _ hk => congrArg toComplex (List.getD_eq_getElem _ _ hk).symm⟩

theorem Elements.getD (h : Elements n b f) {k : Nat} (hk : k < n) (z : Cpx ℝ) : toComplex (b.getD k z) = f k := by
  obtain ⟨hlen, hget⟩ := h
  have hk' : k < b.length := by omega
  rw [List.getD_eq_getElem _ _ hk', hget]

theorem Elements.take (h : Elements (n + m) b f) : Elements n (b.take n) f := by
  obtain ⟨hlen, hget⟩ := h
  exact ⟨by rw [List.length_take]; omega, fun k hk => by rw [List.getElem_take, hget]⟩

theorem Elements.drop (h : Elements (n + m) b f) : Elements m (b.drop n) fun k => f (n + k) := by
  obtain ⟨hlen, hget⟩ := h
  exact ⟨by rw [List.length_drop]; omega, fun k hk => by rw [List.getElem_drop, hget]⟩

theorem Elements.append (h : Elements n b f) (h' : Elements m b' fun k => f (n + k)) : Elements (n + m) (b ++ b') f := by
  obtain ⟨hlen, hget⟩ := h
  obtain ⟨hlen', hget'⟩ := h'
  refine ⟨by rw [List.length_append, hlen, hlen'], fun k hk => ?_⟩
  rw [List.getElem_append]
  split
  next hlow => exact hget k hlow
  next hhigh =>
    refine (hget' (k - b.length) _).trans (congrArg f ?_)
    omega

theorem Elements.zipWith (h : Elements n b f) (h' : Elements n b' f') {op : Cpx ℝ → Cpx ℝ → Cpx ℝ} {opC : ℂ → ℂ → ℂ}
    (hop : ∀ z z', toComplex (op z z') = opC (toComplex z) (toComplex z')) :
    Elements n (List.zipWith op b b') fun k => opC (f k) (f' k) := by
  obtain ⟨hlen, hget⟩ := h
  obtain ⟨hlen', hget'⟩ := h'
  refine ⟨by rw [List.length_zipWith, hlen, hlen', min_self], fun k hk => ?_⟩
  rw [List.getElem_zipWith, hop, hget, hget']

theorem toComplex_injective : Function.Injective toComplex := fun z w h => by
  obtain ⟨re, im⟩ := z
  obtain ⟨re', im'⟩ := w
  obtain ⟨rfl, rfl⟩ := Complex.mk.inj h
  rfl

/-- A list is determined by its elements. -/
theorem Elements.unique (h : Elements n b f) (h' : Elements n b' f) : b = b' := by
  obtain ⟨hlen, hget⟩ := h
  obtain ⟨hlen', hget'⟩ := h'
  exact List.ext_getElem (hlen.trans hlen'.symm) fun k hk hk' =>
    toComplex_injective ((hget k hk).trans (hget' k hk').symm)

end

/-! The complex operations (R299). -/

section

variable {N : Num ℝ} (hN : Exact N) (z w : Cpx ℝ)

include hN

theorem toComplex_cadd : toComplex (cadd N z w) = toComplex z + toComplex w := by
  rw [cadd, hN.fadd, hN.fadd]
  rfl

theorem toComplex_csub : toComplex (csub N z w) = toComplex z - toComplex w := by
  rw [csub, hN.fsub, hN.fsub]
  rfl

theorem toComplex_cmul : toComplex (cmul N z w) = toComplex z * toComplex w := by
  rw [cmul, hN.fsub, hN.fadd, hN.fmul, hN.fmul, hN.fmul, hN.fmul]
  rfl

end

/-! One stage. -/

/-- The butterflies of blocks of `2 · half` elements, element by element (R297). -/
def butterfly (half : Nat) (w f : Nat → ℂ) (k : Nat) : ℂ :=
  if k % (2 * half) < half then f k + w (k % (2 * half)) * f (k + half)
  else f (k - half) - w (k % (2 * half) - half) * f k

/-- The butterflies of a block do not depend on where it stands. -/
theorem butterfly_shift (half : Nat) (w f : Nat → ℂ) (k : Nat) :
    butterfly half w f (2 * half + k) = butterfly half w (fun k => f (2 * half + k)) k := by
  have hle := Nat.mod_le k (2 * half)
  rw [butterfly, butterfly, Nat.add_mod_left]
  split
  next => rw [add_assoc]
  next => rw [Nat.add_sub_assoc (by omega)]

section

variable {N : Num ℝ} (hN : Exact N) {ws b : List (Cpx ℝ)} {half : Nat} {w f : Nat → ℂ}

include hN

theorem elements_butterflies (hw : Elements half ws w) (hb : Elements (half + half) b f) :
    Elements (half + half) (butterflies N ws half b) (butterfly half w f) := by
  have hts := hw.zipWith hb.drop (toComplex_cmul hN)
  refine ((hb.take.zipWith hts (toComplex_cadd hN)).congr fun k hk => ?_).append
    ((hb.take.zipWith hts (toComplex_csub hN)).congr fun k hk => ?_)
  · rw [butterfly, Nat.mod_eq_of_lt (by omega), if_pos hk, add_comm k]
  · rw [butterfly, Nat.mod_eq_of_lt (by omega), if_neg (by omega), Nat.add_sub_cancel_left]

theorem elements_blocks (hw : Elements half ws w) (count : Nat) (hb : Elements (count * (half + half)) b f) :
    Elements (count * (half + half)) (blocks N ws half count b) (butterfly half w f) := by
  induction count generalizing b f with
  | zero => exact ⟨(Nat.zero_mul _).symm, nofun⟩
  | succ count ih =>
    rw [Nat.succ_mul, Nat.add_comm] at hb ⊢
    rw [blocks, Nat.two_mul]
    refine (elements_butterflies hN hw hb.take).append ((ih hb.drop).congr fun k _ => ?_)
    rw [← Nat.two_mul, butterfly_shift]

end

/-! All stages. -/

theorem bitrev_two_mul (m i : Nat) : bitrev (m + 1) (2 * i) = bitrev m i := by
  rw [bitrev, Nat.mul_mod_right, Nat.zero_mul, Nat.zero_add, Nat.mul_div_cancel_left _ Nat.two_pos]

theorem bitrev_two_mul_add_one (m i : Nat) : bitrev (m + 1) (2 * i + 1) = 2 ^ m + bitrev m i := by
  rw [bitrev, Nat.mul_add_mod, show (2 * i + 1) / 2 = i by omega, Nat.one_mod, Nat.one_mul]

theorem bitrev_lt (l j : Nat) : bitrev l j < 2 ^ l := by
  induction l generalizing j with
  | zero => exact Nat.one_pos
  | succ l ih =>
    have hbit : j % 2 * 2 ^ l ≤ 1 * 2 ^ l := Nat.mul_le_mul_right _ (Nat.le_of_lt_succ (Nat.mod_lt j Nat.two_pos))
    have hrest := ih (j / 2)
    rw [bitrev, pow_succ]
    omega

/-- Element `k` after `s` of `s + m` stages: block `i` of `2^s` elements holds the transform of the elements of `x` that lie
`2^m` apart from `bitrev(m, i)` on (R297). -/
def stageElement (ζ : ℂ) (x : Nat → ℂ) (s m k : Nat) : ℂ :=
  dft (ζ ^ 2 ^ m) (2 ^ s) (fun j => x (bitrev m (k / 2 ^ s) + 2 ^ m * j)) (k % 2 ^ s)

section

variable {ζ : ℂ} {x : Nat → ℂ} {s m : Nat}

theorem stageElement_of_lt (i : Nat) {r : Nat} (hr : r < 2 ^ s) : stageElement ζ x s m (2 ^ s * i + r) =
    dft (ζ ^ 2 ^ m) (2 ^ s) (fun j => x (bitrev m i + 2 ^ m * j)) r := by
  rw [stageElement, Nat.mul_add_div (Nat.two_pow_pos s), Nat.div_eq_of_lt hr, Nat.add_zero, Nat.mul_add_mod,
    Nat.mod_eq_of_lt hr]

/-- A stage joins the transforms of two blocks into one (R297). -/
theorem butterfly_stageElement (h : ζ ^ 2 ^ (s + m) = -1) (k : Nat) :
    butterfly (2 ^ s) (fun j => (ζ ^ 2 ^ m) ^ j) (stageElement ζ x s (m + 1)) k = stageElement ζ x (s + 1) m k := by
  have hdouble : 2 ^ (s + 1) = 2 * 2 ^ s := pow_succ' 2 s
  have hroot : (ζ ^ 2 ^ m) ^ 2 ^ s = -1 := by rw [← pow_mul, ← pow_add, add_comm, h]
  have hsquare : ζ ^ 2 ^ (m + 1) = (ζ ^ 2 ^ m) ^ 2 := by rw [← pow_mul, pow_succ]
  have hk := Nat.div_add_mod k (2 * 2 ^ s)
  generalize hi : k / (2 * 2 ^ s) = i at hk
  generalize hr : k % (2 * 2 ^ s) = r at hk
  have hrlt : r < 2 * 2 ^ s := hr ▸ Nat.mod_lt _ (by positivity)
  have heven : ∀ r < 2 ^ s, stageElement ζ x s (m + 1) (2 ^ s * (2 * i) + r) =
      dft ((ζ ^ 2 ^ m) ^ 2) (2 ^ s) (fun j => x (bitrev m i + 2 ^ m * (2 * j))) r := fun r hr => by
    rw [stageElement_of_lt _ hr, hsquare, bitrev_two_mul]
    simp only [pow_succ, mul_assoc]
  have hodd : ∀ r < 2 ^ s, stageElement ζ x s (m + 1) (2 ^ s * (2 * i + 1) + r) =
      dft ((ζ ^ 2 ^ m) ^ 2) (2 ^ s) (fun j => x (bitrev m i + 2 ^ m * (2 * j + 1))) r := fun r hr => by
    rw [stageElement_of_lt _ hr, hsquare, bitrev_two_mul_add_one]
    simp only [pow_succ, mul_assoc, mul_add, mul_one, add_comm, add_assoc, add_left_comm]
  have hwhole := stageElement_of_lt (ζ := ζ) (x := x) (m := m) (s := s + 1) i (hdouble ▸ hrlt)
  rw [hdouble, hk] at hwhole
  rw [hwhole, butterfly, hr]
  split
  next hlow =>
    rw [show k + 2 ^ s = 2 ^ s * (2 * i + 1) + r by rw [← hk]; ring, show k = 2 ^ s * (2 * i) + r by rw [← hk]; ring,
      heven r hlow, hodd r hlow, dft_two_mul]
  next hhigh =>
    obtain ⟨r', rfl⟩ := Nat.exists_eq_add_of_le (not_lt.1 hhigh)
    have hlow : r' < 2 ^ s := by omega
    rw [show k = 2 ^ s * (2 * i) + r' + 2 ^ s by rw [← hk]; ring, Nat.add_sub_cancel, Nat.add_sub_cancel_left,
      show 2 ^ s * (2 * i) + r' + 2 ^ s = 2 ^ s * (2 * i + 1) + r' by ring, heven r' hlow, hodd r' hlow,
      dft_two_mul_add _ _ hroot]

end

/-! The pair. -/

/-- The middle power of a root of unity (R297). -/
theorem pow_half_of_isPrimitiveRoot {ζ : ℂ} {m : Nat} (hζ : IsPrimitiveRoot ζ (2 ^ (m + 1))) : ζ ^ 2 ^ m = -1 :=
  (hζ.pow (Nat.two_pow_pos _) (pow_succ 2 m)).eq_neg_one_of_two_right

section

variable {N : Num ℝ} (hN : Exact N) {tw : Twiddles ℝ} {l : Nat} {inverse : Bool} {ζ : ℂ} {b a : List (Cpx ℝ)} {x : Nat → ℂ}
  (hζ : IsPrimitiveRoot ζ (2 ^ l)) (htw : ∀ k, toComplex (twiddle N tw l inverse k) = ζ ^ k)

theorem elements_bitReversed (N : Num ℝ) (ha : Elements (2 ^ l) a x) :
    Elements (2 ^ l) (bitReversed N l a) (stageElement ζ x 0 l) := by
  refine (elements_map_range _ _).congr fun k _ => ?_
  rw [ha.getD (bitrev_lt l k)]
  simp [stageElement, dft]

include hN htw

/-- A stage runs its butterflies with the powers of `ζ` that its twiddle factors are (R297). -/
theorem elements_fftStage {s m : Nat} (hl : l = s + 1 + m) {f : Nat → ℂ} (hb : Elements (2 ^ l) b f) :
    Elements (2 ^ l) (fftStage N tw l inverse (s + 1) b) (butterfly (2 ^ s) (fun j => (ζ ^ 2 ^ m) ^ j) f) := by
  have hhalf : 2 ^ (s + 1) / 2 = 2 ^ s := by rw [pow_succ, Nat.mul_div_cancel _ Nat.two_pos]
  have hstride : 2 ^ l / 2 ^ (s + 1) = 2 ^ m := by rw [hl, pow_add, Nat.mul_div_cancel_left _ (Nat.two_pow_pos _)]
  have hsize : 2 ^ l = 2 ^ m * (2 ^ s + 2 ^ s) := by rw [hl]; ring
  have hws := (elements_map_range (fun j => twiddle N tw l inverse (j * 2 ^ m)) (2 ^ s)).congr
    (g := fun j => (ζ ^ 2 ^ m) ^ j) fun j _ => by rw [htw, pow_mul']
  rw [fftStage, hhalf, hstride]
  rw [hsize] at hb ⊢
  exact elements_blocks hN hws _ hb

include hζ

/-- The core is the discrete Fourier transform with the root of unity its twiddle factors are powers of (R297). -/
theorem elements_fftCore (ha : Elements (2 ^ l) a x) :
    Elements (2 ^ l) (fftCore N tw l inverse a) (dft ζ (2 ^ l) x) := by
  have hstages : ∀ s m, s + m = l → Elements (2 ^ l)
      ((List.range s).foldl (fun b s => fftStage N tw l inverse (s + 1) b) (bitReversed N l a)) (stageElement ζ x s m) := by
    intro s
    induction s with
    | zero =>
      intro m hm
      obtain rfl : m = l := by omega
      exact elements_bitReversed N ha
    | succ s ih =>
      intro m hm
      rw [List.range_succ, List.foldl_append]
      refine (elements_fftStage hN htw hm.symm (ih (m + 1) (by omega))).congr fun k _ => ?_
      exact butterfly_stageElement (pow_half_of_isPrimitiveRoot (by rwa [show s + m + 1 = l by omega])) k
  refine (hstages l 0 rfl).congr fun k hk => ?_
  rw [stageElement, Nat.div_eq_of_lt hk, Nat.mod_eq_of_lt hk]
  simp [bitrev]

end

/-! The twiddle factors. -/

/-- The root of unity of the inverse transform of size `2^l` (R296). -/
noncomputable def unitRoot (l : Nat) : ℂ := Complex.exp (2 * Real.pi * Complex.I / 2 ^ l)

theorem isPrimitiveRoot_unitRoot (l : Nat) : IsPrimitiveRoot (unitRoot l) (2 ^ l) := by
  have hroot := Complex.isPrimitiveRoot_exp (2 ^ l) (Nat.two_pow_pos l).ne'
  rwa [Nat.cast_pow, Nat.cast_ofNat] at hroot

theorem unitRoot_inv_pow (l k : Nat) : (unitRoot l)⁻¹ ^ k = Complex.exp (-2 * Real.pi * Complex.I * k / 2 ^ l) := by
  rw [unitRoot, ← Complex.exp_neg, ← Complex.exp_nat_mul]
  congr 1
  ring

theorem toComplex_polar (θ : ℝ) : toComplex ⟨Real.cos θ, Real.sin θ⟩ = Complex.exp (θ * Complex.I) :=
  Complex.ext (Complex.exp_ofReal_mul_I_re θ).symm (Complex.exp_ofReal_mul_I_im θ).symm

section

variable {N : Num ℝ} (hN : Exact N) {tw : Twiddles ℝ} {l : Nat} {a : List (Cpx ℝ)} {x : Nat → ℂ}
  (hcos : ∀ k, tw.cosine l k = Real.cos (2 * Real.pi * k / 2 ^ l))
  (hsin : ∀ k, tw.sine l k = Real.sin (2 * Real.pi * k / 2 ^ l))

include hcos hsin

/-- The inverse factors are the powers of the root (R300). -/
theorem toComplex_twiddle_inverse (N : Num ℝ) (k : Nat) : toComplex (twiddle N tw l true k) = unitRoot l ^ k := by
  have hfactor : twiddle N tw l true k = ⟨Real.cos (2 * Real.pi * k / 2 ^ l), Real.sin (2 * Real.pi * k / 2 ^ l)⟩ := by
    rw [← hcos, ← hsin]
    rfl
  rw [hfactor, toComplex_polar, unitRoot, ← Complex.exp_nat_mul]
  congr 1
  push_cast
  ring

include hN

/-- The forward factors are the powers of the inverse root (R297). -/
theorem toComplex_twiddle_forward (k : Nat) : toComplex (twiddle N tw l false k) = (unitRoot l)⁻¹ ^ k := by
  have hfactor : twiddle N tw l false k =
      ⟨Real.cos (-(2 * Real.pi * k / 2 ^ l)), Real.sin (-(2 * Real.pi * k / 2 ^ l))⟩ := by
    rw [Real.cos_neg, Real.sin_neg, ← hcos, ← hsin, ← hN.fneg]
    rfl
  rw [hfactor, toComplex_polar, unitRoot_inv_pow]
  congr 1
  push_cast
  ring

/-- The forward transform (R296, R297). -/
theorem elements_fftForward (ha : Elements (2 ^ l) a x) :
    Elements (2 ^ l) (fftForward N tw l a) (dft (unitRoot l)⁻¹ (2 ^ l) x) :=
  elements_fftCore hN (isPrimitiveRoot_unitRoot l).inv (toComplex_twiddle_forward hN hcos hsin) ha

/-- The inverse transform (R296, R300). -/
theorem elements_fftInverse (ha : Elements (2 ^ l) a x) :
    Elements (2 ^ l) (fftInverse N tw l a) fun k => dft (unitRoot l) (2 ^ l) x k / 2 ^ l := by
  have hcore := elements_fftCore hN (isPrimitiveRoot_unitRoot l) (toComplex_twiddle_inverse hcos hsin N) ha
  refine hcore.map (opC := fun z => z / 2 ^ l) fun z => ?_
  have hscale : toComplex z / 2 ^ l = toComplex z * ((1 / 2 ^ l : ℝ) : ℂ) := by
    push_cast
    ring
  rw [hN.fmul, hN.fmul, hN.pow2neg, hscale]
  exact Complex.ext (Complex.re_mul_ofReal (toComplex z) _).symm (Complex.im_mul_ofReal (toComplex z) _).symm

/-- The pair gives a sequence back (R296). -/
theorem fftInverse_fftForward (ha : a.length = 2 ^ l) : fftInverse N tw l (fftForward N tw l a) = a := by
  have hlist : Elements (2 ^ l) a fun k => toComplex (a.getD k ⟨0, 0⟩) := ha ▸ elements_getD a ⟨0, 0⟩
  have hpair := elements_fftInverse hN hcos hsin (elements_fftForward hN hcos hsin hlist)
  refine (hpair.congr fun k hk => ?_).unique hlist
  have hback := dft_inverse (fun k => toComplex (a.getD k ⟨0, 0⟩)) (isPrimitiveRoot_unitRoot l).inv hk
  rw [inv_inv, Nat.cast_pow, Nat.cast_ofNat] at hback
  rw [hback, mul_div_cancel_left₀ _ (pow_ne_zero l two_ne_zero)]

end

/-! A frame. -/

/-- A frame with the identity modification is the analysis copy (44_stft.md R248, R249). -/
theorem transformed_analysisFrame {I : Impl ℝ} {l : Nat} (inw : Nat) (wintab inr : Nat → ℝ)
    (hpair : ∀ a, a.length = 2 ^ l → I.fft.inverse l (I.fft.forward l a) = a) :
    transformed I l some (analysisFrame I.num (2 ^ l) inw wintab inr) = some (analysisFrame I.num (2 ^ l) inw wintab inr) := by
  rw [transformed, Option.map_some, hpair]
  rw [analysisFrame, List.length_map, List.length_range]

theorem analysisFrame_getD {N : Num ℝ} (hN : Exact N) {n j : Nat} (inw : Nat) (wintab inr : Nat → ℝ) (hj : j < n)
    (z : Cpx ℝ) : ((analysisFrame N n inw wintab inr).getD j z).re = wintab j * inr ((inw + j) % n) := by
  rw [analysisFrame, List.getD_eq_getElem _ _ (by simpa using hj), List.getElem_map, List.getElem_range, hN.fmul]

end Sys2Proof.Machine

namespace Sys2Proof.Proofs

open Sys2Proof.Machine

/-- Settles O49: by induction on the stages each block holds the transform of the elements it stands for, the roots of unity are
orthogonal, and a frame passes the analysis copy through a pair that gives it back. -/
theorem radix2IsFourierTransform : Obligations.Radix2IsFourierTransform := by
  refine ⟨fun p hp => ?_, fun N tw l a hN hcos hsin ha => ⟨fun k hk => ?_, ?_⟩, fun I l inw wintab inr hN hpair => ?_⟩
  · rw [Params.impl_of_standard hp, reference_fft, reference_num, radix2_forward, radix2_inverse]
    exact ⟨rfl, rfl⟩
  · have hlist := ha ▸ elements_getD a ⟨0, 0⟩
    rw [(elements_fftForward hN hcos hsin hlist).getD hk, dft]
    refine Finset.sum_congr rfl fun j _ => ?_
    rw [unitRoot_inv_pow, Nat.cast_mul]
  · exact fftInverse_fftForward hN hcos hsin ha
  · exact ⟨_, transformed_analysisFrame inw wintab inr hpair, fun j hj => analysisFrame_getD hN inw wintab inr hj _⟩

end Sys2Proof.Proofs
end

section
/-! PROOFS. How a command ends once the common checks have decided about it, and what it leaves when it faults or is refused
(60_exceptions.md R331, R332, R335). -/

namespace Sys2Proof.Machine

open Sys2Proof.Statements

variable {s t : State} {i : Instr} {o : Host.Outcome State Fault Refusal}

/-- How a command that passed the common checks can end: it executes and answers with `CODE = 0`, or faults, or is a push whose
frame asks an agent that hangs (44_stft.md R252). -/
inductive Ending (s : State) : Instr → Host.Outcome State Fault Refusal → Prop
  | executes (i : Instr) (u : State) (data : Word) (f : Flags) : u.ports = s.ports → Ending s i (answer u data f)
  | faults (i : Instr) (e : ErrCode) : Ending s i (failWith e i s)
  | hangs (ch : Nat) (x : Word) : modField s.st.cfg = .external → Ending s (.stPush ch x) (.fault .modNeverAnswers)

theorem ending_ite {c : Prop} [Decidable c] {a b : Host.Outcome State Fault Refusal} (ha : Ending s i a)
    (hb : Ending s i b) : Ending s i (if c then a else b) := by
  split
  · exact ha
  · exact hb

theorem ending_delayRead (i : Instr) (mode : Interpolation) (ch : Nat) (d : Word) :
    Ending s i (delayRead i mode ch d s) := by
  unfold delayRead
  split
  · split
    · exact .executes i _ _ _ rfl
    · exact .executes i _ _ _ rfl
  · exact .faults i _

/-- With the identity modification there is always a frame buffer, so only an agent can hang a push. -/
theorem ending_pushSample (I : Impl Word) (ch : Nat) (x : Word) : Ending s (.stPush ch x) (pushSample I ch x s) := by
  unfold pushSample
  dsimp only
  split
  · split
    next => exact .executes _ _ _ _ s.countExchange_ports
    next hnone =>
      cases hmod : modField s.st.cfg with
      | identity =>
        rw [StftChannel.frameBuffer_of_identity _ _ _ _ _ hmod] at hnone
        cases hnone
      | external => exact .hangs ch x hmod
  · exact .executes _ _ _ _ rfl

/-- Every command is the common checks and then what it does itself (60_exceptions.md R331). -/
theorem exec_eq_runCommand (i : Instr) (s : State) :
    ∃ perform, exec i s = runCommand i s perform ∧ Ending s i (perform s) := by
  cases i with
  | sysNop | sysReset | sysEnd | spConfig | spSettgt | spAdv | spSnap | dlWrite | dlAdv | bqStep | bqClear =>
    dsimp only [exec, execSysNop, execSysReset, execSysEnd, execSpConfig, execSpSettgt, execSpAdv, execSpSnap,
      execDlWrite, execDlAdv, execBqStep, execBqClear]
    exact ⟨_, rfl, .executes _ _ _ _ rfl⟩
  | sysPrepare | sysRdmem | bqLoad | stConfig =>
    dsimp only [exec, execSysPrepare, execSysRdmem, execBqLoad, execStConfig]
    exact ⟨_, rfl, ending_ite (.executes _ _ _ _ rfl) (.faults _ _)⟩
  | sysBegin n =>
    dsimp only [exec, execSysBegin]
    exact ⟨_, rfl, ending_ite (.faults _ _) (.executes _ _ _ _ rfl)⟩
  | sysRdreg addr =>
    dsimp only [exec, execSysRdreg]
    refine ⟨_, rfl, ?_⟩
    split
    · exact .executes _ _ _ _ rfl
    · exact .faults _ _
  | dlRdn ch d | dlRdl ch d | dlRdc ch d =>
    dsimp only [exec, execDlRdn, execDlRdl, execDlRdc]
    exact ⟨_, rfl, ending_delayRead _ _ ch d⟩
  | stPush ch x =>
    dsimp only [exec, execStPush]
    exact ⟨_, rfl, ending_pushSample _ ch x⟩

/-! `exec`, by the verdict of the common checks. -/

theorem exec_of_examine_go (h : examine i s.ports.cur s = .go) : Ending s i (exec i s) := by
  obtain ⟨perform, hrun, hend⟩ := exec_eq_runCommand i s
  rwa [hrun, runCommand_go perform h]

theorem exec_of_examine_refused (h : examine i s.ports.cur s = .refused) : exec i s = .next (s.respond Response.refused) := by
  obtain ⟨perform, hrun, -⟩ := exec_eq_runCommand i s
  rw [hrun, runCommand_refused perform h]

theorem exec_of_examine_held (h : examine i s.ports.cur s = .held) : exec i s = .next s := by
  obtain ⟨perform, hrun, -⟩ := exec_eq_runCommand i s
  rw [hrun, runCommand_held perform h]

theorem exec_of_examine_fault {e : ErrCode} (h : examine i s.ports.cur s = .fault e) : exec i s = failWith e i s := by
  obtain ⟨perform, hrun, -⟩ := exec_eq_runCommand i s
  rw [hrun, runCommand_fault perform h]

/-- A fault that the common checks find, with none recorded. -/
theorem exec_of_examine_fault_first {e : ErrCode} (hf : s.sys.fault = false) (h : examine i s.ports.cur s = .fault e) :
    exec i s = .next (faulted s e i.commandWord) := by
  rw [exec_of_examine_fault h, failWith_of_no_fault e i hf]

/-! What a fault or a refusal leaves. -/

/-- `t` is `s` but for the ports and the four fault registers (60_exceptions.md R335). -/
def OnlyFaultRegs (s t : State) : Prop :=
  t = { s with ports := t.ports,
               sys := { s.sys with fault := t.sys.fault, errcode := t.sys.errcode, errcmd := t.sys.errcmd,
                                   errport := t.sys.errport } }

theorem onlyFaultRegs_respond (s : State) (r : Response) : OnlyFaultRegs s (s.respond r) := rfl

theorem onlyFaultRegs_raise (s : State) (e : ErrCode) (w : Word) : OnlyFaultRegs s (s.raise e w) := by
  cases hf : s.sys.fault with
  | true => rw [State.raise, SysRegs.enterFault_of_fault _ _ _ _ hf]; rfl
  | false => rw [State.raise, SysRegs.enterFault_of_no_fault _ _ _ _ hf]; rfl

theorem onlyFaultRegs_illegalCommand (w : Word) (s : State) : OnlyFaultRegs s (illegalCommand w s) := by
  unfold illegalCommand
  split
  · exact onlyFaultRegs_respond s _
  · exact onlyFaultRegs_raise s _ w

theorem illegalCommand_fault (w : Word) (s : State) : (illegalCommand w s).sys.fault = true := by
  unfold illegalCommand
  split
  next hfault => exact hfault
  next => exact SysRegs.enterFault_fault ..

/-- A command that executed answers with `CODE = 0`, so one that answers with another code faulted. -/
theorem Ending.onlyFaultRegs (h : Ending s i o) (ho : o = .next t) {r : Response} (hports : t.ports = s.ports.send r)
    (hcode : r.status.extractLsb' 0 8 ≠ 0#8) : OnlyFaultRegs s t := by
  cases h with
  | executes _ u data f hu =>
    cases ho
    have hsent : s.ports.send (Response.executed data f) = s.ports.send r :=
      (congrArg (Ports.send · _) hu.symm).trans hports
    rw [← (Ports.send_inj _ _ _).1 hsent] at hcode
    exact absurd (Response.executed_code data f) hcode
  | faults _ e =>
    cases ho
    exact onlyFaultRegs_raise s e _
  | hangs => cases ho

end Sys2Proof.Machine

namespace Sys2Proof.Proofs

open Sys2Proof.Machine

/-- Settles O56: of the ways a command can end, those with a non-zero `CODE` are the refusal and the fault. -/
theorem faultsArePrecise : Obligations.FaultsArePrecise := by
  refine ⟨fun s t i r hexec hports hcode => ?_, fun w s => ?_⟩
  · cases hverdict : examine i s.ports.cur s with
    | go => exact (exec_of_examine_go hverdict).onlyFaultRegs hexec hports hcode
    | refused =>
      rw [exec_of_examine_refused hverdict] at hexec
      cases hexec
      exact onlyFaultRegs_respond s _
    | held =>
      rw [exec_of_examine_held hverdict] at hexec
      cases hexec
      rfl
    | fault e =>
      rw [exec_of_examine_fault hverdict] at hexec
      cases hexec
      exact onlyFaultRegs_raise s e _
  · have hregs := onlyFaultRegs_illegalCommand s w
    rw [OnlyFaultRegs, illegalCommand_fault] at hregs
    exact hregs

end Sys2Proof.Proofs
end

section
/-! PROOFS. The block with a fault recorded: what is refused, and that nothing but `SYS.RESET` changes it (60_exceptions.md R323,
R332, R336); and which command can stop the model at all (R334). -/

namespace Sys2Proof.Machine

open Sys2Proof.Statements

variable {s t u : State} {i : Instr} {p : Port}

/-! Illegal words. -/

/-- The illegal word is the first of its port, and takes no operand words (30_encoding.md R115). -/
theorem words_of_decode_illegal {ws rest : List Word} {w : Word} (h : decode ws = .illegal w rest) : ws = w :: rest := by
  cases ws with
  | nil => cases h
  | cons v tail =>
    rw [decode] at h
    split at h
    next =>
      cases h
      rfl
    next => split at h <;> cases h

/-- A step that serves an illegal word takes that word alone off its port. -/
theorem step_of_illegal {w : Word} {rest : List Word} (hchoose : s.choose = some p)
    (hdel : s.delivered p = .illegal w rest) : step s = .next (illegalCommand w (s.takeCommand p rest)) :=
  (step_of_choose hchoose).trans (serve_of_illegal hdel)

theorem illegalCommand_of_fault (w : Word) (hf : s.sys.fault = true) :
    illegalCommand w s = s.respond Response.refused := by rw [illegalCommand, if_pos hf]

theorem illegalCommand_of_no_fault (w : Word) (hf : s.sys.fault = false) :
    illegalCommand w s = faulted s .illegal w := by
  rw [illegalCommand, hf, if_neg Bool.false_ne_true, State.raise, SysRegs.enterFault_of_no_fault _ _ _ _ hf]
  rfl

theorem State.takeCommand_cur (s : State) (p : Port) (rest : List Word) : (s.takeCommand p rest).ports.cur = p :=
  Ports.take_cur s.ports p rest

theorem State.takeCommand_pending (s : State) (p : Port) (rest : List Word) :
    ((s.takeCommand p rest).ports.port p).pending = rest := by rw [State.takeCommand_port_self]

/-! While a fault is recorded. -/

theorem respond_refused (s : State) : s.respond Response.refused = answered s 0x7F#32 0#32 := rfl

/-- A recorded fault holds no command back: it is refused at once (60_exceptions.md R323). -/
theorem State.enabled_of_fault (hf : s.sys.fault = true) (h : s.delivered p ≠ .incomplete) : s.enabled p = true := by
  unfold State.enabled
  split
  next hdel => exact absurd hdel h
  next => rfl
  next =>
    rw [examine_of_fault hf]
    split <;> rfl

theorem survivesFault_cases (h : survivesFault i = true) : i = .sysNop ∨ ∃ addr, i = .sysRdreg addr := by
  cases i with
  | sysNop => exact .inl rfl
  | sysRdreg addr => exact .inr ⟨addr, rfl⟩
  | _ => cases h

/-- The refused commands are all but the three of the rule (60_exceptions.md R323). -/
theorem examine_eq_refused (hf : s.sys.fault = true) (hreset : i ≠ .sysReset) (hnop : i ≠ .sysNop)
    (hrdreg : ∀ addr, i ≠ .sysRdreg addr) : examine i p s = .refused := by
  rw [examine_of_fault hf, if_neg]
  rintro (hclass | hsurvives)
  · exact hreset (eq_sysReset_of_class hclass)
  · obtain rfl | ⟨addr, rfl⟩ := survivesFault_cases hsurvives
    · exact hnop rfl
    · exact hrdreg addr rfl

/-- `t` is `s` but for the ports and the counters of drawn free values. -/
def Frozen (s t : State) : Prop := t = { s with ports := t.ports, free := t.free }

theorem Frozen.refl (s : State) : Frozen s s := rfl

theorem Frozen.respond (h : Frozen s t) (r : Response) : Frozen s (t.respond r) := by
  rw [Frozen] at h
  rw [h]
  rfl

theorem Frozen.of_takeCommand {rest : List Word} (h : Frozen (s.takeCommand p rest) t) : Frozen s t := h

/-- The first fault is kept (60_exceptions.md R332). -/
theorem frozen_raise (e : ErrCode) (w : Word) (hf : s.sys.fault = true) : Frozen s (s.raise e w) := by
  rw [State.raise, SysRegs.enterFault_of_fault _ _ _ _ hf]
  rfl

theorem Performed.frozen_of_survivesFault (hu : Performed s i u) (h : survivesFault i = true) : Frozen s u := by
  cases hu with
  | reads => rfl
  | _ => cases h

/-- While a fault is recorded a command other than `SYS.RESET` changes nothing of the block (60_exceptions.md R323, R332). -/
theorem exec_frozen (hf : s.sys.fault = true) (hi : i ≠ .sysReset) (h : exec i s = .next t) : Frozen s t := by
  obtain rfl | rfl | ⟨e, rfl⟩ | ⟨u, r, hgo, hu, rfl⟩ := exec_next h
  · exact .refl t
  · exact (Frozen.refl s).respond _
  · exact frozen_raise e _ hf
  · rw [examine_of_fault hf] at hgo
    split at hgo
    next hpass =>
      have hsurvives := hpass.resolve_left fun hclass => hi (eq_sysReset_of_class hclass)
      exact (hu.frozen_of_survivesFault hsurvives).respond r
    next => cases hgo

/-! Which command can stop the model. -/

theorem ownScope_eq_go {lock : Option Port} : ownScope lock p = .go ↔ lock = some p := by simp [ownScope]

/-- A class P command passes the common checks only inside the scope of its own port (60_exceptions.md R325). -/
theorem lock_of_examine_go (hc : cmdClass i = .processing) (hr : s.Ready) (h : examine i p s = .go) :
    s.sys.lock = some p := by
  obtain hreset | hscope := scopeCheck_of_examine_go hr.2 h
  · cases hc.symm.trans hreset
  · simp only [scopeCheck, hc] at hscope
    exact ownScope_eq_go.1 hscope

/-- A command that passed the common checks gives a next state, unless it is a push whose agent hangs. -/
theorem Ending.next_or_hangs {o : Host.Outcome State Fault Refusal} (h : Ending s i o) : (∃ t, o = .next t) ∨
    (o = .fault .modNeverAnswers ∧ (∃ ch x, i = .stPush ch x) ∧ modField s.st.cfg = .external) := by
  cases h with
  | executes | faults => exact .inl ⟨_, rfl⟩
  | hangs ch x hmod => exact .inr ⟨rfl, ⟨ch, x, rfl⟩, hmod⟩

/-- A command that passed the common checks and hangs is a push inside the scope of its port. -/
theorem exec_next_or_hangs (h : examine i s.ports.cur s = .go) : (∃ t, exec i s = .next t) ∨
    (exec i s = .fault .modNeverAnswers ∧ (∃ ch x, i = .stPush ch x) ∧ s.Ready ∧ s.OwnsScope ∧
      modField s.st.cfg = .external) := by
  obtain hnext | ⟨hhangs, ⟨ch, x, rfl⟩, hmod⟩ := (exec_of_examine_go h).next_or_hangs
  · exact .inl hnext
  · obtain ⟨hready, -⟩ := ready_of_examine_go h rfl
    exact .inr ⟨hhangs, ⟨ch, x, rfl⟩, hready, lock_of_examine_go rfl hready h, hmod⟩

/-- Taking a command off its port changes nothing that holds a command. -/
theorem held_takeCommand_iff {q : Port} {rest : List Word} : Held (s.takeCommand p rest) q i ↔ Held s q i := Iff.rfl

end Sys2Proof.Machine

namespace Sys2Proof.Proofs

open Sys2Proof.Machine Sys2Proof.Statements

/-- Settles O50: the common checks refuse every command but the three, and an illegal word is refused likewise. -/
theorem refusedWhileFault : Obligations.RefusedWhileFault := by
  refine fun s p hfault => ⟨State.enabled_of_fault hfault, fun i rest hchoose hdel hreset hnop hrdreg => ?_,
    fun w rest hchoose hdel => ?_, fun _ => rfl⟩
  · have hrefused : examine i (s.takeCommand p rest).ports.cur (s.takeCommand p rest) = .refused :=
      examine_eq_refused hfault hreset hnop hrdreg
    have hstep : step s = exec i (s.takeCommand p rest) := (step_of_choose hchoose).trans (serve_of_command hdel)
    rw [hstep, exec_of_examine_refused hrefused, respond_refused]
    exact ⟨rfl, s.takeCommand_pending p rest, s.takeCommand_cur p rest⟩
  · rw [step_of_illegal hchoose hdel, illegalCommand_of_fault (s := s.takeCommand p rest) w hfault, respond_refused]
    exact ⟨rfl, words_of_decode_illegal hdel, s.takeCommand_pending p rest, s.takeCommand_cur p rest⟩

/-- Settles O51: an illegal word is the only word of its port that the step takes, and the first fault is recorded with it. -/
theorem illegalWordFaults : Obligations.IllegalWordFaults := by
  intro s p w rest hchoose hdel hfault
  rw [step_of_illegal hchoose hdel, illegalCommand_of_no_fault (s := s.takeCommand p rest) w hfault]
  exact ⟨rfl, words_of_decode_illegal hdel, s.takeCommand_cur p rest, s.takeCommand_pending p rest⟩

/-- Settles O57: a step that serves a port executes `SYS.RESET`, refuses, reads, or raises a fault that is not recorded. -/
theorem frozenAfterFault : Obligations.FrozenAfterFault := by
  intro s t hfault hstep
  cases hchoose : s.choose with
  | none =>
    rw [step, hchoose] at hstep
    cases hstep
    exact .inl (Frozen.refl s)
  | some p =>
    rw [step_of_choose hchoose] at hstep
    obtain rfl | ⟨w, rest, -, rfl⟩ | ⟨i, rest, hdel, hexec⟩ := serve_next hstep
    · exact .inl (Frozen.refl t)
    · have hrefused := illegalCommand_of_fault (s := s.takeCommand p rest) w hfault
      rw [hrefused]
      exact .inl ((Frozen.refl _).respond _).of_takeCommand
    · by_cases hreset : i = .sysReset
      · subst hreset
        rw [exec_sysReset] at hexec
        cases hexec
        exact .inr ⟨rfl, p, rest, rfl, hdel⟩
      · exact .inl (exec_frozen (s := s.takeCommand p rest) hfault hreset hexec).of_takeCommand

/-- Settles O58: what is not performed gives a next state, and of what is performed only the frame of a push can hang; the port
a step serves is enabled, so its command is not held. -/
theorem onlyTheAgentCanHang : Obligations.OnlyTheAgentCanHang := by
  refine ⟨fun s i => ?_, fun s i hheld => exec_of_examine_held (examine_eq_held_iff_held.2 hheld),
    fun s p i rest hchoose hdel => ?_⟩
  · cases hverdict : examine i s.ports.cur s with
    | go => exact exec_next_or_hangs hverdict
    | refused => exact .inl ⟨_, exec_of_examine_refused hverdict⟩
    | held => exact .inl ⟨_, exec_of_examine_held hverdict⟩
    | fault e => exact .inl ⟨_, exec_of_examine_fault hverdict⟩
  · obtain ⟨henabled, hstep, hcur, -⟩ := stepRunsDecodedCommand.1 s p i rest hchoose hdel
    have hnot : ¬ Held s p i := by
      rw [← heldExactlyByRule s p i rest hdel, henabled]
      exact Bool.noConfusion
    exact ⟨hnot, hstep, by rwa [held_takeCommand_iff, hcur]⟩

end Sys2Proof.Proofs
end

section
/-! PROOFS. The faults of the common checks, in their order: index, preparation, scope (60_exceptions.md R324 to R326, R331); and
the faults that single commands raise by their operands (R327 to R330). -/

namespace Sys2Proof.Machine

open Sys2Proof.Statements

variable {s : State} {i : Instr} {p : Port}

/-! The common checks that fault. -/

theorem examine_of_outOfRange (hf : s.sys.fault = false) (h : OutOfRange s.params i) : examine i p s = .fault .index := by
  have hclass : cmdClass i ≠ .reset := by
    intro hreset
    rw [eq_sysReset_of_class hreset] at h
    exact h
  have hindex : indexOk s.params i = false := Bool.eq_false_iff.2 fun hok => indexOk_iff.1 hok h
  simp [examine, hclass, hf, hindex]

/-- All but four commands need `PREPARED = 1` (60_exceptions.md R324). -/
theorem needsPrepare_of_ne (hnop : i ≠ .sysNop) (hreset : i ≠ .sysReset)
    (hprepare : ∀ srate maxblk cap, i ≠ .sysPrepare srate maxblk cap) (hrdreg : ∀ addr, i ≠ .sysRdreg addr) :
    needsPrepare i = true := by
  cases i with
  | sysNop => exact absurd rfl hnop
  | sysReset => exact absurd rfl hreset
  | sysPrepare srate maxblk cap => exact absurd rfl (hprepare srate maxblk cap)
  | sysRdreg addr => exact absurd rfl (hrdreg addr)
  | _ => rfl

theorem examine_of_not_prepared (hf : s.sys.fault = false) (hp : s.sys.prepared = false) (hi : ¬ OutOfRange s.params i)
    (h : needsPrepare i = true) : examine i p s = .fault .notPrepared := by
  obtain ⟨hclass, -⟩ := of_needsPrepare h
  simp [examine, hclass, hf, hp, h, indexOk_iff.2 hi]

/-- Class P and `SYS.END` need the own scope (40_sys.md R143, R151). -/
theorem scopeCheck_of_needs_scope (lock : Option Port) (p : Port) (h : ClassP i ∨ i = .sysEnd) :
    cmdClass i ≠ .reset ∧ scopeCheck i lock p = ownScope lock p := by
  cases i with
  | sysEnd | dlWrite | dlAdv | dlRdn | dlRdl | dlRdc | bqStep | stPush => exact ⟨nofun, rfl⟩
  | _ => obtain h | h := h <;> cases h

/-- `SYS.BEGIN` and `SYS.PREPARE` need to be outside the own scope (40_sys.md R147, R150). -/
theorem scopeCheck_of_opens_or_prepares (lock : Option Port) (p : Port) (h : (∃ n, i = .sysBegin n) ∨ Prepares i) :
    cmdClass i ≠ .reset ∧ scopeCheck i lock p = outsideScope lock p := by
  obtain ⟨n, rfl⟩ | ⟨srate, maxblk, cap, rfl⟩ := h <;> exact ⟨nofun, rfl⟩

/-! Operands that fault. -/

/-- `SYS.BEGIN` passes the common checks of a ready block outside any scope (40_sys.md R150). -/
theorem exec_sysBegin (n : Word) (hr : s.Ready) (hl : s.sys.lock = none) : exec (.sysBegin n) s =
    if s.sys.maxblk.toNat < n.toNat then failWith .block (.sysBegin n) s
    else answer { s with sys := { s.sys with lock := some s.ports.cur, blklen := n } } 0#32 {} := by
  have hgo : examine (.sysBegin n) s.ports.cur s = .go := by
    obtain ⟨hclass, hscope⟩ := scopeCheck_of_opens_or_prepares s.sys.lock s.ports.cur (.inl ⟨n, rfl⟩)
    rw [examine_of_ready hr rfl hclass, hscope, hl]
    rfl
  dsimp only [exec, execSysBegin]
  exact runCommand_go _ hgo

theorem delayRead_of_illegal {mode : Interpolation} {ch : Nat} {d : Word} (hf : s.sys.fault = false)
    (h : legalDelay s.params.impl.num s.dl.cap.toNat d ≠ true) :
    delayRead i mode ch d s = .next (faulted s .dlRange i.commandWord) := by
  rw [delayRead, if_neg h, failWith_of_no_fault .dlRange i hf]

/-- Each read of an illegal delay faults (42_delay_line.md R193). -/
theorem exec_delayReads_of_illegal {ch : Nat} {d : Word} (hr : s.Ready) (ho : s.OwnsScope) (hch : ch < s.params.nch)
    (h : legalDelay s.params.impl.num s.dl.cap.toNat d ≠ true) : ∀ i ∈ [Instr.dlRdn ch d, .dlRdl ch d, .dlRdc ch d],
      exec i s = .next (faulted s .dlRange i.commandWord) := by
  intro i hi
  obtain ⟨mode, -, hread⟩ := exec_delayReads hr ho hch i hi
  rw [hread, delayRead_of_illegal hr.2 h]

theorem packCommand_ch_eq_add (unit func : BitVec 4) {ch : Nat} (hch : ch < 16) : packCommand unit func 0 ch 0 =
    packCommand unit func 0 0 0 + BitVec.ofNat 32 (ch * 2 ^ 12) := by
  rw [packCommand_eq_add unit func (by decide) hch (by decide), Nat.zero_mul, Nat.zero_add, Nat.add_zero]

theorem packCommand_idx_eq_add (unit func : BitVec 4) {idx : Nat} (hidx : idx < 256) : packCommand unit func idx 0 0 =
    packCommand unit func 0 0 0 + BitVec.ofNat 32 (idx * 2 ^ 16) := by
  rw [packCommand_eq_add unit func hidx (by decide) (by decide), Nat.zero_mul, Nat.add_zero]

/-- What `a0` must be (43_biquad.md R223). -/
theorem legalA0_iff {α : Type} (N : Num α) (a0 : α) :
    legalA0 N a0 = true ↔ N.isnan a0 = false ∧ N.isfinite a0 = true ∧ N.feq a0 N.zero = false := by
  simp [legalA0, and_assoc]

theorem exec_bqLoad {f : Nat} (b0 b1 b2 a0 a1 a2 : Word) (hr : s.Ready) (hl : s.NotLockedOut) (hf : f < s.params.nbq) :
    exec (.bqLoad f b0 b1 b2 a0 a1 a2) s = if legalA0 s.params.impl.num a0 then
      answer (s.setFilter f
        { s.filter f with coeffs := normalise s.params.impl.num 0x3F800000#32 b0 b1 b2 a0 a1 a2 }) 0#32 {}
    else failWith .coef (.bqLoad f b0 b1 b2 a0 a1 a2) s := by
  have hgo := examine_of_awaitScope (i := .bqLoad f b0 b1 b2 a0 a1 a2) hr (decide_eq_true hf) nofun rfl hl
  dsimp only [exec, execBqLoad]
  exact runCommand_go _ hgo

theorem exec_stConfig_of_illegal {l h : Nat} (win : Window) (mod : ModSel) (hr : s.Ready) (hl : s.NotLockedOut)
    (hillegal : legalConfig s.params l h ≠ true) :
    exec (.stConfig l h win mod) s = failWith .cfg (.stConfig l h win mod) s := by
  have hgo := examine_of_awaitScope (i := .stConfig l h win mod) hr rfl nofun rfl hl
  dsimp only [exec, execStConfig]
  rw [runCommand_go _ hgo, if_neg hillegal]

theorem exec_sysPrepare_of_illegal (srate maxblk cap : Word) (hf : s.sys.fault = false) (hl : s.sys.lock = none)
    (hillegal : legalCapacity s.params cap ≠ true) :
    exec (.sysPrepare srate maxblk cap) s = failWith .cfg (.sysPrepare srate maxblk cap) s := by
  dsimp only [exec, execSysPrepare]
  rw [runCommand_go _ (examine_sysPrepare srate maxblk cap hf hl), if_neg hillegal]

end Sys2Proof.Machine

namespace Sys2Proof.Proofs

open Sys2Proof.Machine Sys2Proof.Statements

/-- Settles O52: the range check comes first but for the refusal. -/
theorem indexOutOfRangeFaults : Obligations.IndexOutOfRangeFaults :=
  fun _ _ hfault hrange => exec_of_examine_fault_first hfault (examine_of_outOfRange hfault hrange)

/-- Settles O53: every command but the four needs `PREPARED = 1`. -/
theorem notPreparedFaults : Obligations.NotPreparedFaults := by
  intro s i hfault hprepared hrange hnop hreset hprepare hrdreg
  exact exec_of_examine_fault_first hfault
    (examine_of_not_prepared hfault hprepared hrange (needsPrepare_of_ne hnop hreset hprepare hrdreg))

/-- Settles O54: on a ready block the scope check decides; that a command waits is the rule of 40_sys.md R144. -/
theorem scopeViolationFaults : Obligations.ScopeViolationFaults := by
  refine fun s i hready hrange => ⟨fun hneeds hnotOwner => ?_, fun houtside howner => ?_,
    fun p rest hwaits hdel hlock => ?_⟩
  · obtain ⟨hclass, hscope⟩ := scopeCheck_of_needs_scope s.sys.lock s.ports.cur hneeds
    refine exec_of_examine_fault_first hready.2 ?_
    rw [examine_of_ready hready (indexOk_iff.2 hrange) hclass, hscope, ownScope, if_neg hnotOwner]
  · obtain ⟨hclass, hscope⟩ := scopeCheck_of_opens_or_prepares s.sys.lock s.ports.cur houtside
    refine exec_of_examine_fault_first hready.2 ?_
    rw [examine_of_ready hready (indexOk_iff.2 hrange) hclass, hscope, outsideScope, if_pos howner]
  · exact (heldExactlyByRule s p i rest hdel).2
      ⟨ne_sysReset_of_waits hwaits, hready.2, hrange, .inl hready.1, hwaits, hlock⟩

/-- Settles O15: outside any scope `SYS.BEGIN` passes the common checks, and `MAXBLK` decides. -/
theorem beginOpensScope : Obligations.BeginOpensScope := by
  refine fun s n hready hlock => ⟨fun hle => ?_, fun hlt => ?_⟩ <;> rw [exec_sysBegin n hready hlock]
  · rw [if_neg (Nat.not_lt.2 hle), answer_eq_answered]
  · rw [if_pos hlt]
    exact failWith_of_no_fault .block _ hready.2

/-- Settles O30: each broken bound makes the delay illegal, and the three reads check it alike. -/
theorem illegalDelayFaults : Obligations.IllegalDelayFaults := by
  intro s ch d hparams hready howner hch hbroken
  have hwidth : ch < 16 := hch.trans_le hparams.1.2
  have hillegal : legalDelay s.params.impl.num s.dl.cap.toNat d ≠ true := by
    rw [ne_eq, legalDelay_iff]
    rintro ⟨hcap, hnan, hlow, hhigh⟩
    simp [Nat.not_lt.2 hcap, hnan, hlow, hhigh] at hbroken
  have hreads := exec_delayReads_of_illegal hready howner hch hillegal
  simp only [List.forall_mem_cons, Instr.commandWord, packCommand_ch_eq_add _ _ hwidth] at hreads
  obtain ⟨hrdn, hrdl, hrdc, -⟩ := hreads
  exact ⟨hrdn, hrdl, hrdc⟩

/-- Settles O35: the load passes the common checks, and `a0` decides between the quotients and the fault. -/
theorem bqLoadNormalises : Obligations.BqLoadNormalises := by
  refine fun s f b0 b1 b2 a0 a1 a2 hparams hready hlock hf => ⟨fun hlegal => ?_, fun hbroken => ?_⟩ <;>
    rw [exec_bqLoad b0 b1 b2 a0 a1 a2 hready hlock hf]
  · rw [if_pos ((legalA0_iff _ a0).2 hlegal), answer_eq_answered]
    rfl
  · have hwidth : f < 256 := hf.trans_le hparams.2.2.1.2
    have hillegal : ¬ legalA0 s.params.impl.num a0 = true := by
      rw [legalA0_iff]
      rintro ⟨hnan, hfinite, hzero⟩
      simp [hnan, hfinite, hzero] at hbroken
    rw [if_neg hillegal, failWith_of_no_fault .coef _ hready.2, Instr.commandWord, packCommand_idx_eq_add 3 0 hwidth]
    rfl

/-- Settles O55: each broken bound makes the configuration or the capacity illegal, which is checked after the scope. -/
theorem badConfigurationFaults : Obligations.BadConfigurationFaults := by
  refine ⟨fun s l h win mod hready hlock hbroken => ?_, fun s srate maxblk cap hfault hlock hbroken => ?_⟩
  · have hillegal : legalConfig s.params l h ≠ true := by
      rw [ne_eq, legalConfig_iff]
      omega
    rw [exec_stConfig_of_illegal win mod hready hlock hillegal, failWith_of_no_fault .cfg _ hready.2]
  · have hillegal : legalCapacity s.params cap ≠ true := by
      rw [ne_eq, legalCapacity_iff]
      rintro ⟨hpos, hmax⟩
      obtain rfl | habove := hbroken
      · exact absurd hpos (by decide)
      · omega
    rw [exec_sysPrepare_of_illegal srate maxblk cap hfault hlock hillegal]
    exact failWith_of_no_fault .cfg _ hfault

end Sys2Proof.Proofs
end

section
/-! PROOFS. How a run gets stuck (70_reset_and_hazards.md R378, 00_scope.md R12): of a port with no enabled command, what it has
at its head, and why only one port can wait. -/

namespace Sys2Proof.Machine

open Sys2Proof.Statements

variable {s : State} {p : Port}

theorem step_of_choose_none (h : s.choose = none) : step s = .next s := by simp only [step, h]

/-- A run that has not ended has a port that is not exhausted, written here as the other one of its opposite. -/
theorem State.exists_not_exhausted_other (h : ¬ s.Ended) : ∃ p : Port, ¬ s.Exhausted p.other := by
  by_contra hall
  rw [not_exists_not] at hall
  exact h ⟨hall .control, hall .audio⟩

/-- A port that has something to deliver and is not enabled waits with a held command; an illegal word never waits
(40_sys.md R144). -/
theorem State.held_of_not_enabled (h : s.enabled p = false) (hdeliver : ¬ s.Exhausted p) :
    ∃ i rest, s.delivered p = .command i rest ∧ Held s p i := by
  cases hdel : s.delivered p with
  | incomplete => exact absurd hdel hdeliver
  | illegal w rest => simp [State.enabled, hdel] at h
  | command i rest => exact ⟨i, rest, rfl, examine_eq_held_iff_held.1 ((State.enabled_eq_false_iff hdel).1 h)⟩

/-- A port that is not enabled is exhausted where it owns the scope: its own scope holds no command back. -/
theorem State.exhausted_of_lock (h : s.enabled p = false) (hlock : s.sys.lock = some p) : s.Exhausted p := by
  by_contra hdeliver
  obtain ⟨i, rest, -, -, -, -, -, -, hother⟩ := State.held_of_not_enabled h hdeliver
  exact Port.ne_other p (Option.some.inj (hlock.symm.trans hother))

end Sys2Proof.Machine

namespace Sys2Proof.Proofs

open Sys2Proof.Machine Sys2Proof.Statements

/-- Settles O9: a port that still delivers waits for the scope of its opposite, which therefore is not held itself. -/
theorem stuckOnlyBehindOpenScope : Obligations.StuckOnlyBehindOpenScope := by
  rintro s ⟨hnotEnded, hnone⟩
  have hdisabled := State.choose_eq_none hnone
  obtain ⟨p, hdeliver⟩ := State.exists_not_exhausted_other hnotEnded
  obtain ⟨i, rest, hdel, -, hfault, -, -, hwaits, hlock⟩ := State.held_of_not_enabled (hdisabled p.other) hdeliver
  rw [Port.other_other] at hlock
  exact ⟨⟨p, i, rest, State.exhausted_of_lock (hdisabled p) hlock, hdel, hlock, hfault, hwaits⟩,
    step_of_choose_none hnone⟩

end Sys2Proof.Proofs
end
